-- ==== Sys2Proof/Word.lean ====
section
/-! DEFINITION. The unit of the wire and the width of a diagnostic register (00_scope.md R11, R12). -/

namespace Sys2Proof

/-- A byte of the stream (R11). -/
abbrev Byte := BitVec 8

/-- A byte string (R11). -/
abbrev Bytes := List Byte

/-- A u32: a natural below 2^32 whose additions wrap (R12). -/
abbrev U32 := BitVec 32

end Sys2Proof
end

