-- ==== Sys2Proof/Syntax.lean ====
section
/-! DEFINITION. The instructions: one constructor for each row of spec/opcode_table.json. The seven
encoded objects carry the fields the header leaves open; a packet's length field is the size of the
packet, 7 + |body| (30_encoding.md R62), so it is no operand of its own. -/

namespace Sys2Proof

/-- The rows of the opcode table. `pkt…` are inbound packets (R60-R70), `cmd…` outbound command lines
(R69, R70), `port…` the port transactions (R80), which have no encoding. -/
inductive Instr where
  /-- PKT_DATA (R112): type 0, with its body `p[7..L)`. -/
  | pktData (body : Bytes)
  /-- PKT_STRING (R113): type 1, with its body. -/
  | pktString (body : Bytes)
  /-- PKT_STRING_PONG (R196): the one 11-byte packet whose text is `PONG` (R70). -/
  | pktStringPong
  /-- PKT_UNKNOWN (R114): type `t` in 2..255, with its body. -/
  | pktUnknown (t : Byte) (body : Bytes)
  /-- PKT_SHORT_LENGTH (R106): any type, declared length `lll` in 0..6 (the row's three free bits). -/
  | pktShortLength (t : Byte) (lll : BitVec 3)
  /-- CMD_LINE (R190): ENCODE(name, params). -/
  | cmdLine (name : Bytes) (params : List Bytes)
  /-- CMD_PING (R195): the line `50 49 4E 47 0D`. -/
  | cmdPing
  /-- PORT_INGEST (R100). -/
  | portIngest (chunk : Bytes)
  /-- PORT_DSTEP (R102). -/
  | portDstep
  /-- PORT_AWAIT (R163), `t` in ticks. -/
  | portAwait (t : Nat)
  /-- PORT_TICK (R165). -/
  | portTick
  /-- PORT_SEND (R193). -/
  | portSend (name : Bytes) (params : List Bytes)
  /-- PORT_PING (R195). -/
  | portPing
  /-- PORT_RESET (R250). -/
  | portReset
  /-- PORT_DIAG_READ (R29). -/
  | portDiagRead (i : Nat)
  deriving DecidableEq, Repr

end Sys2Proof
end

