-- ==== Sys2Proof/WellFormed.lean ====
section
/-! DEFINITION. Which instructions the opcode table's rows admit, and which of them are the terms the
decoder answers with. -/

namespace Sys2Proof

/-- Printable ASCII, 20..7E inclusive (43_command_encoder.md R191). -/
def printable (x : Byte) : Bool := 0x20 ≤ x.toNat && x.toNat ≤ 0x7E

/-- The longest body a packet can have: 65535 - 7 (30_encoding.md R62). -/
abbrev maxBody : Nat := 65528

/-- The text of PKT_STRING_PONG, `50 4F 4E 47` (30_encoding.md R70 and the row's own bits). -/
def pongText : Bytes := [0x50, 0x4F, 0x4E, 0x47]

/-- The name of CMD_PING's line, `50 49 4E 47` (30_encoding.md R70 and the row's own bits). -/
def pingText : Bytes := [0x50, 0x49, 0x4E, 0x47]

/-- The constraints the rows put on their operands: a body fits the 16-bit length (R62), an unknown
type is 2..255 (R63), a short length is 0..6 (R106), a command line is printable (R191). A port
transaction takes any operand. -/
def Instr.wellFormed : Instr → Bool
  | .pktData body => body.length ≤ maxBody
  | .pktString body => body.length ≤ maxBody
  | .pktStringPong => true
  | .pktUnknown t body => 2 ≤ t.toNat && body.length ≤ maxBody
  | .pktShortLength _ lll => lll.toNat ≤ 6
  | .cmdLine name params => name.all printable && params.all (fun p => p.all printable)
  | .cmdPing => true
  | .portIngest _ => true
  | .portDstep => true
  | .portAwait _ => true
  | .portTick => true
  | .portSend _ _ => true
  | .portPing => true
  | .portReset => true
  | .portDiagRead _ => true

/-- Where two rows admit the same words, the term of the row that takes priority: PKT_STRING_PONG
before PKT_STRING and CMD_PING before CMD_LINE (fixed words before open ones), and a line whose tokens
hold no space, since "the receiver then cannot tell it from two parameters" (R190). -/
def Instr.canonical : Instr → Bool
  | .pktString body => body != pongText
  | .cmdLine name params =>
      !(name == pingText && params == []) && !name.contains 0x20 && params.all (fun p => !p.contains 0x20)
  | .pktData _ => true
  | .pktStringPong => true
  | .pktUnknown _ _ => true
  | .pktShortLength _ _ => true
  | .cmdPing => true
  | .portIngest _ => true
  | .portDstep => true
  | .portAwait _ => true
  | .portTick => true
  | .portSend _ _ => true
  | .portPing => true
  | .portReset => true
  | .portDiagRead _ => true

end Sys2Proof
end

