-- ==== Sys2Proof/Decode.lean ====
section
/-! DEFINITION. The packet header and its fields, the decoder of encoded objects, and after it the
encoder, written from the same layouts (30_encoding.md R60-R74, R78). -/

namespace Sys2Proof

/-! ### Byte strings and byte order -/

/-- MARKER (00_scope.md R9). -/
def marker : Bytes := [0xA5, 0xA5, 0xA5, 0xA5]

/-- HDR, the header's 4 + 1 + 2 bytes (R9, conflict C1). -/
abbrev hdrSize : Nat := 7

/-- `b[i..j)`, empty when j ≤ i (R11). -/
def slice (b : Bytes) (i j : Nat) : Bytes := (b.take j).drop i

/-- `beN(b)` for |b| = N: the first byte is the most significant (R12, R44). -/
def be (b : Bytes) : Nat := b.foldl (fun acc x => acc * 256 + x.toNat) 0

/-- `beN⁻¹(x)`, the N-byte big-endian encoding of x < 2^(8N) (R78). -/
def beEnc : Nat → Nat → Bytes
  | 0, _ => []
  | n + 1, x => BitVec.ofNat 8 (x / 256 ^ n) :: beEnc n x

/-! ### The header (R60, R61) -/

/-- `marker(p) = p[0..4)`. -/
def hdrMarker (p : Bytes) : Bytes := slice p 0 4

/-- `type(p) = p[4]`; every caller has tested |p| ≥ 7. -/
def hdrType (p : Bytes) : Byte := p.getD 4 0

/-- `length(p) = be2(p[5..7))`; every caller has tested |p| ≥ 7. -/
def hdrLength (p : Bytes) : Nat := be (slice p 5 7)

/-! ### The decoder -/

/-- Why bytes are no encoded object. -/
inductive DecodeReject where
  /-- The bytes begin neither with the marker (R61) nor a command line. -/
  | noMarker
  /-- Marker, but fewer than 7 bytes (R105). -/
  | headerIncomplete
  /-- Header complete, fewer bytes than the declared length (R108). -/
  | packetIncomplete (declared : Nat)
  /-- A line with no carriage return (R69). -/
  | lineUnterminated
  /-- A line with a byte outside 20..7E before its carriage return (R191). -/
  | lineNotPrintable
  deriving DecidableEq, Repr

/-- The row of a complete packet of type `t` and body `body` (R63; fixed words before open ones). -/
def packetOfType (t : Byte) (body : Bytes) : Instr :=
  if t = 0 then .pktData body
  else if t = 1 then (if body = pongText then .pktStringPong else .pktString body)
  else .pktUnknown t body

/-- The packet at the head of a byte string, and the bytes after it. The order of the tests is R223's:
marker, header complete, L < 7 (which takes priority over every packet row), completeness, type. -/
def decodePacket (b : Bytes) : Except DecodeReject (Instr × Bytes) :=
  if hdrMarker b ≠ marker then .error .noMarker
  else if b.length < hdrSize then .error .headerIncomplete
  else if hdrLength b < hdrSize then
    .ok (.pktShortLength (hdrType b) (BitVec.ofNat 3 (hdrLength b)), b.drop hdrSize)
  else if b.length < hdrLength b then .error (.packetIncomplete (hdrLength b))
  else .ok (packetOfType (hdrType b) (slice b hdrSize (hdrLength b)), b.drop (hdrLength b))

/-- The tokens of a line's text: its maximal runs between spaces, empty ones included (R69). -/
def splitSpaces : Bytes → List Bytes
  | [] => [[]]
  | b :: r =>
    if b = 0x20 then [] :: splitSpaces r
    else match splitSpaces r with
      | [] => [[b]]
      | tok :: toks => (b :: tok) :: toks

/-- The row of a line with the given tokens. -/
def lineOfTokens (toks : List Bytes) : Instr :=
  if toks = [pingText] then .cmdPing else .cmdLine (toks.headD []) toks.tail

/-- A command line at the head of a byte string: text up to the first carriage return (R69). The block
itself never decodes a line (R54); this reads the table's CMD rows (log 18). -/
def decodeLine (b : Bytes) : Except DecodeReject (Instr × Bytes) :=
  let text := b.takeWhile (fun x => x != 0x0D)
  if b.length ≤ text.length then .error .lineUnterminated
  else if !text.all printable then .error .lineNotPrintable
  else .ok (lineOfTokens (splitSpaces text), b.drop (text.length + 1))

/-- The encoded object at the head of a byte string: bytes that begin with the marker are a packet,
bytes that begin with a printable byte or a carriage return a line, anything else neither. -/
def decode (b : Bytes) : Except DecodeReject (Instr × Bytes) :=
  if hdrMarker b = marker then decodePacket b
  else match b with
    | [] => .error .noMarker
    | x :: _ => if printable x || x == 0x0D then decodeLine b else .error .noMarker

/-! ### The encoder -/

/-- The packet of type `t` and body `body`: `[marker:4][type:1][length:2]` and the body (R60, R62). -/
def packetBytes (t : Byte) (body : Bytes) : Bytes :=
  marker ++ [t] ++ beEnc 2 (hdrSize + body.length) ++ body

/-- `name`, then a space and each parameter, then a carriage return (R69, R190). -/
def lineBytes (name : Bytes) (params : List Bytes) : Bytes :=
  name ++ (params.map (fun p => 0x20 :: p)).flatten ++ [0x0D]

/-- The words of an instruction; a port transaction has none (R80). -/
def encode : Instr → Option Bytes
  | .pktData body => some (packetBytes 0 body)
  | .pktString body => some (packetBytes 1 body)
  | .pktStringPong => some (packetBytes 1 pongText)
  | .pktUnknown t body => some (packetBytes t body)
  | .pktShortLength t lll => some (marker ++ [t] ++ beEnc 2 lll.toNat)
  | .cmdLine name params => some (lineBytes name params)
  | .cmdPing => some (lineBytes pingText [])
  | .portIngest _ => none
  | .portDstep => none
  | .portAwait _ => none
  | .portTick => none
  | .portSend _ _ => none
  | .portPing => none
  | .portReset => none
  | .portDiagRead _ => none

/-! ### The opcode table's words -/

/-- The bytes of a table word of `nbits` bits: the table's word is one big-endian number whose first
byte is the most significant (R60; log 6), and the body a header declares beyond it is zeros. -/
def tableBytes (nbits w : Nat) : Bytes :=
  let given := beEnc ((nbits + 7) / 8) w
  if hdrMarker given = marker && decide (hdrSize ≤ given.length) then
    given ++ List.replicate (hdrLength given - given.length) 0
  else given

/-- The instruction the decoder reads from a table word. -/
def decodeTableWord (nbits w : Nat) : Option Instr :=
  match decode (tableBytes nbits w) with
  | .ok (i, _) => some i
  | .error _ => none

end Sys2Proof
end

