-- ==== Sys2Proof/Config.lean ====
section
/-! DEFINITION. The configuration of 00_scope.md R9: what is fixed before reset and never changes while
the block runs. It is plain data and stands in State as a field, so that every claim about a step holds
for every configuration. HDR is fixed (7) and is `hdrSize` of Decode.lean. -/

namespace Sys2Proof

/-- OVERFLOW (R9, R161). -/
inductive Overflow where
  | dropOldest
  | dropNewest
  deriving DecidableEq, Repr

/-- The parameters of R9. -/
structure Config where
  /-- MARKER, `A5 A5 A5 A5` in every legal configuration (R252). -/
  marker : Bytes
  /-- QCAP ≥ 1. -/
  qcap : Nat
  /-- OVERFLOW. -/
  overflow : Overflow
  /-- WIDTH_OF of every block id not listed in `widthExceptions`, in bytes. -/
  widthDefault : Nat
  /-- The block ids whose WIDTH_OF differs from the default, with their widths (log 10). -/
  widthExceptions : List (Byte × Nat)
  /-- T_NOMINAL, in ticks; OPEN. -/
  tNominal : Nat
  /-- MAX_CHUNK ≥ 1, in bytes; OPEN. -/
  maxChunk : Nat
  /-- BUF_CAP: `none` is the table's default 65534 + MAX_CHUNK, `some n` a capacity of n bytes (log 9). -/
  bufCap : Option Nat
  /-- WATERMARK: none, or some w ≥ 7. -/
  watermark : Option Nat
  /-- PING_CMD. -/
  pingCmd : Bytes
  /-- PONG_TOKEN. -/
  pongToken : Bytes
  deriving DecidableEq, Repr

/-- DESIGN CHOICE (log 8): T_NOMINAL of the configuration at reset; the spec leaves it OPEN (U7), so
nothing can be proved of it. -/
opaque Config.openTNominal : Nat

/-- DESIGN CHOICE (log 8): MAX_CHUNK of the configuration at reset is one more than this; the spec
leaves it OPEN (U8) but for the bound MAX_CHUNK ≥ 1. -/
opaque Config.openMaxChunkPred : Nat

/-- The configuration "for this hardware" of R9's table. -/
def Config.hardware : Config where
  marker := [0xA5, 0xA5, 0xA5, 0xA5]
  qcap := 10
  overflow := .dropOldest
  widthDefault := 1
  widthExceptions := []
  tNominal := Config.openTNominal
  maxChunk := Config.openMaxChunkPred + 1
  bufCap := none
  watermark := none
  pingCmd := [0x50, 0x49, 0x4E, 0x47]
  pongToken := [0x50, 0x4F, 0x4E, 0x47]

end Sys2Proof
end

