-- ==== Sys2Proof/Machine/State.lean ====
section
/-! DEFINITION. The block's state (10_state.md R20), its configuration, what it has put out, and what
the agents have offered it. Plain data throughout. -/

namespace Sys2Proof.Machine

/-- `waiter`: the outstanding synchronous wait with its remaining ticks (R27). -/
inductive Waiter where
  | idle
  | await (r : Nat)
  | ping (r : Nat)
  deriving DecidableEq, Repr

/-- A decoded DataBlock; every value is below 2^(8·width) (30_encoding.md R67). -/
structure DataBlock where
  blockId : Byte
  width : Nat
  values : List Nat
  deriving DecidableEq, Repr

/-- A decoded DataPacket (30_encoding.md R67). -/
structure DataPacket where
  relativeStartTimestampMs : U32
  dataBlocks : List DataBlock
  deriving DecidableEq, Repr

/-- The output events of R21. -/
inductive OutEvent where
  /-- TX(bytes), to the transport. -/
  | tx (bytes : Bytes)
  /-- DISCONNECT, to the transport. -/
  | disconnect
  /-- DATA_OUT(DataPacket), to the sink. -/
  | dataOut (dp : DataPacket)
  /-- AWAIT_DONE(r): some text, or none. -/
  | awaitDone (r : Option Bytes)
  /-- PING_DONE(b). -/
  | pingDone (b : Bool)
  deriving DecidableEq, Repr

/-- The sub-causes of MalformedPacket (41_body_decode.md R139). -/
inductive SubCause where
  | headerLength (declared : Nat)
  | bodyShort
  | blockHeaderShort
  | blockOverrun
  | widthMismatch
  | trailingBytes
  deriving DecidableEq, Repr

/-- The events the block raises, with their operands (60_exceptions.md R220). -/
inductive DiagEvent where
  | malformedPacket (cause : SubCause)
  | invalidEncoding
  | unknownType (t : Byte)
  | noReply
  | transportOverload (n : Nat)
  | encodeNonPrintable
  | replyDropped
  | noiseDiscarded (n : Nat)
  | forcedResync (n : Nat)
  | pingMismatch
  deriving DecidableEq, Repr

/-- The registers of the diagnostic file, by name (R29). -/
inductive DiagReg where
  | noiseBytes
  | malformed
  | invalidEnc
  | unknownType
  | dataOk
  | stringOk
  | replyDropped
  | noReply
  | overload
  | encErr
  | resync
  | pingMismatch
  | lastEvent
  deriving DecidableEq, Repr

/-- The result of ENCODE (R190). -/
inductive Encoded where
  | ok (bytes : Bytes)
  | errNonPrintable
  deriving DecidableEq, Repr

/-- A value returned to the agent that asked, which is no output event (logs 12 and 13). -/
inductive PortResult where
  /-- What DIAG_READ returns (R29). -/
  | diagWord (v : U32)
  /-- What ENCODE returns (R190). -/
  | encoded (r : Encoded)
  deriving DecidableEq, Repr

/-- The reasons an instruction has no step. -/
inductive Fault where
  /-- Raised by the meanings of INGEST, DSTEP, AWAIT, PING, CMD_PING and the packet rows when the
  transaction's enabling condition does not hold (R22): "A transaction that is not enabled has no step",
  treated as stuck by 93_implementation_defined.md U14. Safe. -/
  | notEnabled
  /-- Raised by a packet row's meaning when the Decoder runs but the packet at the head of `buf` is not
  this one, complete (log 5). Safe. -/
  | packetNotAtHead
  deriving DecidableEq, Repr

/-- The reasons the model gives no meaning. -/
inductive Refusal where
  /-- Raised by an arm of exec whose instruction has no meaning yet. Safe. -/
  | notModelled (mnemonic : String)
  /-- Raised by step: "A model refuses an illegal configuration. It does not run it" (R252, U17). Safe. -/
  | illegalConfiguration
  /-- Raised by DSTEP on a read outside `buf`, which cannot occur (R42, U15). Safe. -/
  | outOfRangeRead
  deriving DecidableEq, Repr

/-- Everything the model holds. `buf` … `diag` are the block's state and are complete (R20, R31);
`cfg` is the configuration (R9); `trace`, `events` and `results` are observations no rule reads;
`offers` is the environment's input. -/
structure State where
  cfg : Config
  buf : Bytes
  busy : Bool
  disc : Bool
  q : List Bytes
  waiter : Waiter
  diag : Vector U32 13
  /-- Output events, oldest first (R21). -/
  trace : List OutEvent
  /-- Diagnostic events with their operands, oldest first (R221: "a diagnostic trace that no rule reads"). -/
  events : List DiagEvent
  /-- Values returned by DIAG_READ and ENCODE, oldest first. -/
  results : List PortResult
  /-- Transactions the agents have offered and that have not been taken, oldest first (log 1). -/
  offers : List Instr
  deriving DecidableEq, Repr

/-- The state RESET produces, in the configuration of R9 (R35, R250, R252), with nothing observed and
nothing offered yet. -/
def State.reset : State where
  cfg := Config.hardware
  buf := []
  busy := false
  disc := false
  q := []
  waiter := .idle
  diag := Vector.replicate 13 0
  trace := []
  events := []
  results := []
  offers := []

end Sys2Proof.Machine
end

