-- ==== Sys2Proof/Machine/Ops.lean ====
section
/-! DEFINITION. The named operations over the buffer, the queue, the output trace and the diagnostic
file, and the raising of an event, which is all this block has of an exception (60_exceptions.md). -/

namespace Sys2Proof.Machine

/-- What a meaning answers with. -/
abbrev Result := Host.Outcome State Fault Refusal

/-! ### The input buffer (20_memory.md) -/

/-- MemRead(off, n), defined only when off + n ≤ |buf| (R13, R42). -/
def State.memRead (s : State) (off n : Nat) : Option Bytes :=
  if off + n ≤ s.buf.length then some (slice s.buf off (off + n)) else none

/-- Append a chunk (R40). -/
def State.append (s : State) (c : Bytes) : State := { s with buf := s.buf ++ c }

/-- Trim(n): drop the n oldest bytes (R41). -/
def State.trim (s : State) (n : Nat) : State := { s with buf := s.buf.drop n }

/-- A suspension point: the loop run ends with `buf` as it is (R102, R105, R108). -/
def State.suspend (s : State) : State := { s with busy := false }

/-! ### Outputs -/

/-- `emit E` (R13). -/
def State.emit (e : OutEvent) (s : State) : State := { s with trace := s.trace ++ [e] }

/-- Hand a value back to the agent that asked for it. -/
def State.answer (r : PortResult) (s : State) : State := { s with results := s.results ++ [r] }

/-! ### The diagnostic file (R29) -/

/-- A register's index in `diag` (R29's table). -/
def DiagReg.index : DiagReg → Fin 13
  | .noiseBytes => 0
  | .malformed => 1
  | .invalidEnc => 2
  | .unknownType => 3
  | .dataOk => 4
  | .stringOk => 5
  | .replyDropped => 6
  | .noReply => 7
  | .overload => 8
  | .encErr => 9
  | .resync => 10
  | .pingMismatch => 11
  | .lastEvent => 12

/-- A register's value. -/
def State.diagReg (s : State) (r : DiagReg) : U32 := s.diag[r.index]

/-- Write a register. -/
def State.setDiag (s : State) (r : DiagReg) (v : U32) : State := { s with diag := s.diag.set r.index v }

/-- `S.diag[r] <- S.diag[r] +% n`, wrapping at 2^32 (R12). -/
def State.count (s : State) (r : DiagReg) (n : Nat) : State := s.setDiag r (s.diagReg r + BitVec.ofNat 32 n)

/-- What DIAG_READ(i) returns: `S.diag[i]`, and 0 for i > 12 (R29). -/
def State.diagRead (s : State) (i : Nat) : U32 := if h : i < 13 then s.diag[i] else 0

/-! ### Raising an event (60_exceptions.md) -/

/-- The event's code (R220). -/
def DiagEvent.code : DiagEvent → Nat
  | .malformedPacket _ => 1
  | .invalidEncoding => 2
  | .unknownType _ => 3
  | .noReply => 4
  | .transportOverload _ => 5
  | .encodeNonPrintable => 6
  | .replyDropped => 7
  | .noiseDiscarded _ => 8
  | .forcedResync _ => 9
  | .pingMismatch => 10

/-- The event's counter (R220, last column). -/
def DiagEvent.counter : DiagEvent → DiagReg
  | .malformedPacket _ => .malformed
  | .invalidEncoding => .invalidEnc
  | .unknownType _ => .unknownType
  | .noReply => .noReply
  | .transportOverload _ => .overload
  | .encodeNonPrintable => .encErr
  | .replyDropped => .replyDropped
  | .noiseDiscarded _ => .noiseBytes
  | .forcedResync _ => .resync
  | .pingMismatch => .pingMismatch

/-- By how much the event's counter grows (R221). -/
def DiagEvent.amount : DiagEvent → Nat
  | .noiseDiscarded n => n
  | .malformedPacket _ => 1
  | .invalidEncoding => 1
  | .unknownType _ => 1
  | .noReply => 1
  | .transportOverload _ => 1
  | .encodeNonPrintable => 1
  | .replyDropped => 1
  | .forcedResync _ => 1
  | .pingMismatch => 1

/-- `raise X(info)`: LAST_EVENT gets X's code and X's counter grows (R221); nothing is saved, no mode
changes and control goes nowhere (R225), so there is no return from it (R226). The operands go to the
diagnostic trace that no rule reads. -/
def State.raise (e : DiagEvent) (s : State) : State :=
  let t := (s.count e.counter e.amount).setDiag .lastEvent (BitVec.ofNat 32 e.code)
  { t with events := s.events ++ [e] }

end Sys2Proof.Machine
end

