-- ==== Sys2Proof/Machine/Operands.lean ====
section
/-! DEFINITION. The pure functions of the block: marker search (40_frame_sync.md R101), the body
decoders (41_body_decode.md) and the command encoder (43_command_encoder.md R190). -/

namespace Sys2Proof.Machine

/-! ### Marker search -/

/-- The least i with `b[i..i+4) = MARKER`, or none (R101). -/
def findMarker : Bytes → Option Nat
  | [] => none
  | x :: r => if hdrMarker (x :: r) = marker then some 0 else (findMarker r).map (· + 1)

/-- Whether the last k bytes of b are the first k bytes of the marker. -/
def tailIsMarkerPrefix (b : Bytes) (k : Nat) : Bool :=
  decide (k ≤ b.length) && (b.drop (b.length - k) == marker.take k)

/-- The greatest such k in 0..3 (R101). -/
def tailKeep (b : Bytes) : Nat :=
  if tailIsMarkerPrefix b 3 then 3
  else if tailIsMarkerPrefix b 2 then 2
  else if tailIsMarkerPrefix b 1 then 1
  else 0

/-! ### DATA bodies -/

/-- WIDTH_OF(id), in bytes (R9, R133). -/
def widthOf (c : Config) (id : Byte) : Nat := (c.widthExceptions.lookup id).getD c.widthDefault

/-- The array decoder: |P|/w big-endian elements of w bytes (R135). -/
def decodeArray (p : Bytes) (w : Nat) : List Nat :=
  (List.range (p.length / w)).map (fun k => be (slice p (k * w) ((k + 1) * w)))

/-- One DataBlock at body offset o, with the offset after it (R134). -/
def decodeBlock (c : Config) (b : Bytes) (o : Nat) : Except SubCause (DataBlock × Nat) :=
  if o + 3 > b.length then .error .blockHeaderShort
  else
    let id := b.getD o 0
    let bl := be (slice b (o + 1) (o + 3))
    if o + 3 + bl > b.length then .error .blockOverrun
    else
      let w := widthOf c id
      if bl % w ≠ 0 then .error .widthMismatch
      else .ok ({ blockId := id, width := w, values := decodeArray (slice b (o + 3) (o + 3 + bl)) w }, o + 3 + bl)

/-- `repeat n times` of R130: n blocks from offset o, with the offset after the last. -/
def decodeBlocks (c : Config) (b : Bytes) : Nat → Nat → Except SubCause (List DataBlock × Nat)
  | 0, o => .ok ([], o)
  | n + 1, o =>
    match decodeBlock c b o with
    | .error e => .error e
    | .ok (blk, o') =>
      match decodeBlocks c b n o' with
      | .error e => .error e
      | .ok (blks, o'') => .ok (blk :: blks, o'')

/-- decodeData(B) (R130-R132, R136). -/
def decodeData (c : Config) (b : Bytes) : Except SubCause DataPacket :=
  if b.length < 5 then .error .bodyShort
  else
    match decodeBlocks c b (b.getD 4 0).toNat 5 with
    | .error e => .error e
    | .ok (blks, o) =>
      if o ≠ b.length then .error .trailingBytes
      else .ok { relativeStartTimestampMs := BitVec.ofNat 32 (be (slice b 0 4)), dataBlocks := blks }

/-! ### STRING bodies -/

/-- The rows of R138's table: for each byte of the sequence, its least and greatest value. -/
def utf8Table : List (List (Nat × Nat)) :=
  [ [(0x00, 0x7F)],
    [(0xC2, 0xDF), (0x80, 0xBF)],
    [(0xE0, 0xE0), (0xA0, 0xBF), (0x80, 0xBF)],
    [(0xE1, 0xEC), (0x80, 0xBF), (0x80, 0xBF)],
    [(0xED, 0xED), (0x80, 0x9F), (0x80, 0xBF)],
    [(0xEE, 0xEF), (0x80, 0xBF), (0x80, 0xBF)],
    [(0xF0, 0xF0), (0x90, 0xBF), (0x80, 0xBF), (0x80, 0xBF)],
    [(0xF1, 0xF3), (0x80, 0xBF), (0x80, 0xBF), (0x80, 0xBF)],
    [(0xF4, 0xF4), (0x80, 0x8F), (0x80, 0xBF), (0x80, 0xBF)] ]

/-- Whether b begins with a sequence of the form `row`. -/
def startsWithRow : List (Nat × Nat) → Bytes → Bool
  | [], _ => true
  | _ :: _, [] => false
  | (lo, hi) :: row, x :: b => decide (lo ≤ x.toNat) && decide (x.toNat ≤ hi) && startsWithRow row b

/-- The length of the well-formed sequence at the head of b, or none. -/
def utf8Head (b : Bytes) : Option Nat := (utf8Table.find? (fun row => startsWithRow row b)).map List.length

/-- validUtf8 with at most `fuel` sequences. -/
def validUtf8Fuel : Nat → Bytes → Bool
  | _, [] => true
  | 0, _ :: _ => false
  | fuel + 1, x :: b =>
    match utf8Head (x :: b) with
    | none => false
    | some k => validUtf8Fuel fuel ((x :: b).drop k)

/-- validUtf8(B): B splits into well-formed sequences (R138). No sequence is empty, so |B| of them
are enough. -/
def validUtf8 (b : Bytes) : Bool := validUtf8Fuel b.length b

/-- decodeString(B): the text is the body unchanged, or InvalidEncoding (R137). -/
def decodeString (b : Bytes) : Option Bytes := if validUtf8 b then some b else none

/-! ### The command encoder -/

/-- encodeCommand(name, params) (R190, R191). -/
def encodeCommand (name : Bytes) (params : List Bytes) : Encoded :=
  if name.all printable && params.all (fun p => p.all printable) then .ok (lineBytes name params)
  else .errNonPrintable

end Sys2Proof.Machine
end

