-- ==== Sys2Proof/Machine/Flags.lean ====
section
/-! DEFINITION. The block has no condition codes (10_state.md R32); its flags are `busy`, `disc` and the
constructor of `waiter`. Here are the conditions computed from them (R22), and the legality of a
configuration (R252). -/

namespace Sys2Proof.Machine

/-- INGEST is enabled: `¬busy ∧ ¬disc` (R22). -/
def State.mayIngest (s : State) : Bool := !s.busy && !s.disc

/-- AWAIT and PING are enabled: `waiter = Idle` (R22, R167). -/
def State.mayWait (s : State) : Bool := s.waiter == .idle

/-- The packet `i` stands complete at the head of `buf`: the decoder reads exactly it. -/
def State.packetAtHead (s : State) (i : Instr) : Bool :=
  match decodePacket s.buf with
  | .ok (j, _) => j == i
  | .error _ => false

/-- When an instruction can occur (R22). A packet row is the DSTEP that finds it at the head of `buf`
(log 5); CMD_PING is the PING that sends it (log 11); ENCODE is combinational (R190). -/
def enabled : Instr → State → Bool
  | .pktData body, s => s.busy && s.packetAtHead (.pktData body)
  | .pktString body, s => s.busy && s.packetAtHead (.pktString body)
  | .pktStringPong, s => s.busy && s.packetAtHead .pktStringPong
  | .pktUnknown t body, s => s.busy && s.packetAtHead (.pktUnknown t body)
  | .pktShortLength t lll, s => s.busy && s.packetAtHead (.pktShortLength t lll)
  | .cmdLine _ _, _ => true
  | .cmdPing, s => s.mayWait
  | .portIngest _, s => s.mayIngest
  | .portDstep, s => s.busy
  | .portAwait _, s => s.mayWait
  | .portTick, _ => true
  | .portSend _ _, _ => true
  | .portPing, s => s.mayWait
  | .portReset, _ => true
  | .portDiagRead _, _ => true

/-- The meaning of a transaction that has one only while `ok` holds: without it, no step (R22, U14). -/
def whenEnabled (ok : Bool) (r : Result) : Result := if ok then r else .fault .notEnabled

/-- A legal element width (R9, R252). -/
def legalWidth (w : Nat) : Bool := w == 1 || w == 2 || w == 4

/-- WIDTH_OF(id) is a legal width for every id (R252): for each id listed, and, where the default is
not legal, no id is left to it. -/
def legalWidths (c : Config) : Bool :=
  c.widthExceptions.all (fun x => legalWidth (widthOf c x.1))
    && (legalWidth c.widthDefault
      || (List.range 256).all (fun n => (c.widthExceptions.lookup (BitVec.ofNat 8 n)).isSome))

/-- BUF_CAP in bytes (R9). -/
def bufCapacity (c : Config) : Nat := c.bufCap.getD (65534 + c.maxChunk)

/-- BUF_CAP ≥ 65534 + MAX_CHUNK; the default meets it (R252). -/
def legalBufCap (c : Config) : Bool :=
  match c.bufCap with
  | none => true
  | some n => decide (65534 + c.maxChunk ≤ n)

/-- WATERMARK is none or some w ≥ 7 (R252). -/
def legalWatermark : Option Nat → Bool
  | none => true
  | some w => decide (7 ≤ w)

/-- At least one. -/
def positive : Nat → Bool
  | 0 => false
  | _ + 1 => true

/-- A configuration is legal: R252's seven conditions, in its order. -/
def legalConfig (c : Config) : Bool :=
  positive c.qcap
    && legalWidths c
    && positive c.maxChunk
    && legalBufCap c
    && legalWatermark c.watermark
    && c.pingCmd.all printable
    && c.marker == marker

end Sys2Proof.Machine
end

