-- ==== Sys2Proof/Machine/Agents.lean ====
section
/-! DEFINITION. Whose turn it is: the transactions the agents have offered, and how a table word is placed
so that the next step runs it (10_state.md R22; logs 1, 2, 3). -/

namespace Sys2Proof.Machine

/-- The earliest of the offered transactions that is enabled, with the others left as they were: an
agent whose transaction is not enabled waits (R22). -/
def firstEnabled (s : State) : List Instr → Option (Instr × List Instr)
  | [] => none
  | i :: rest =>
    if enabled i s then some (i, rest)
    else (firstEnabled s rest).map (fun x => (x.1, i :: x.2))

/-- Take that transaction from the offers. -/
def State.takeOffer (s : State) : Option (Instr × State) :=
  (firstEnabled s s.offers).map (fun x => (x.1, { s with offers := x.2 }))

/-- Offer a transaction ahead of those already offered. -/
def State.offerFirst (i : Instr) (s : State) : State := { s with offers := i :: s.offers }

/-- Place a table word where the block takes its next instruction: a command line is offered as the
transaction that sends it; anything else is put in the input buffer of a running Decoder, which is
offered the next step (log 3). -/
def placeTableWord (s : State) (nbits w : Nat) : State :=
  let bytes := tableBytes nbits w
  match decode bytes with
  | .ok (.cmdPing, _) => s.offerFirst .cmdPing
  | .ok (.cmdLine name params, _) => s.offerFirst (.cmdLine name params)
  | _ => { s with buf := bytes, busy := true }.offerFirst .portDstep

end Sys2Proof.Machine
end

