-- ==== Sys2Proof/Machine/Correlator.lean ====
section
/-! DEFINITION. The reply correlator (42_reply_correlator.md) with the two ends of a ping
(43_command_encoder.md R196, R197), and the meanings of PORT_AWAIT and PORT_TICK. -/

namespace Sys2Proof.Machine

/-- completePing(s): the wait ends, a text other than PONG_TOKEN is a mismatch, PING_DONE says which (R196). -/
def completePing (text : Bytes) (s : State) : State :=
  let t : State := { s with waiter := .idle }
  if text = s.cfg.pongToken then t.emit (.pingDone true)
  else (t.raise .pingMismatch).emit (.pingDone false)

/-- timeoutPing() (R197). -/
def timeoutPing (s : State) : State :=
  ({ s with waiter := .idle } : State).raise .noReply |>.emit (.pingDone false)

/-- An AWAIT ends with no reply (R163, R165). -/
def timeoutAwait (s : State) : State :=
  ({ s with waiter := .idle } : State).raise .noReply |>.emit (.awaitDone none)

/-- overflow(s): one text is lost, by the configured policy (R161). -/
def overflow (text : Bytes) (s : State) : State :=
  let t := s.raise .replyDropped
  match s.cfg.overflow with
  | .dropOldest => { t with q := s.q.tail ++ [text] }
  | .dropNewest => t

/-- enqueueReply(s): hand the text to the waiter if there is one, else queue it (R160, R162). -/
def enqueueReply (text : Bytes) (s : State) : State :=
  match s.waiter with
  | .await _ => ({ s with waiter := .idle } : State).emit (.awaitDone (some text))
  | .ping _ => completePing text s
  | .idle => if s.q.length < s.cfg.qcap then { s with q := s.q ++ [text] } else overflow text s

/-- AWAIT(t), its enabling condition met (R163, R164). -/
def awaitReply (t : Nat) (s : State) : State :=
  match s.q with
  | text :: rest => ({ s with q := rest } : State).emit (.awaitDone (some text))
  | [] =>
    if t = 0 then (s.raise .noReply).emit (.awaitDone none)
    else { s with waiter := .await t }

/-- TICK: the countdown of the outstanding wait, if any (R165, R230). -/
def tick (s : State) : State :=
  match s.waiter with
  | .idle => s
  | .await r => if r = 1 then timeoutAwait s else { s with waiter := .await (r - 1) }
  | .ping r => if r = 1 then timeoutPing s else { s with waiter := .ping (r - 1) }

/-- PORT_AWAIT (R163): enabled while no wait is outstanding. -/
def execPortAwait (t : Nat) (s : State) : Result := whenEnabled s.mayWait (.next (awaitReply t s))

/-- PORT_TICK (R165): always enabled. -/
def execPortTick (s : State) : Result := .next (tick s)

end Sys2Proof.Machine
end

