-- ==== Sys2Proof/Machine/Command.lean ====
section
/-! DEFINITION. The command encoder, SEND and the ping sequencer (43_command_encoder.md): the meanings
of CMD_LINE, CMD_PING, PORT_SEND and PORT_PING. -/

namespace Sys2Proof.Machine

/-- SEND: transmit the encoded line, or raise EncodeNonPrintable and transmit nothing (R193). -/
def sendCommand (name : Bytes) (params : List Bytes) (s : State) : State :=
  match encodeCommand name params with
  | .ok b => s.emit (.tx b)
  | .errNonPrintable => s.raise .encodeNonPrintable

/-- PING sending `line`: TX first, then a queued text is the reply, else a wait of 2·T_NOMINAL ticks, a
poll when that is 0 (R194, R195, R198). -/
def pingWith (line : Bytes) (s : State) : State :=
  let t := s.emit (.tx line)
  match s.q with
  | text :: rest => completePing text { t with q := rest }
  | [] =>
    if 2 * s.cfg.tNominal = 0 then timeoutPing t
    else { t with waiter := .ping (2 * s.cfg.tNominal) }

/-- CMD_LINE (R190): ENCODE is combinational; it returns its result and changes nothing else (log 12). -/
def execCmdLine (name : Bytes) (params : List Bytes) (s : State) : Result :=
  .next (s.answer (.encoded (encodeCommand name params)))

/-- CMD_PING (R195): the ping transaction, transmitting the row's own line `50 49 4E 47 0D` (log 11). -/
def execCmdPing (s : State) : Result := whenEnabled s.mayWait (.next (pingWith (lineBytes pingText []) s))

/-- PORT_SEND (R193): always enabled, also while a wait is outstanding. -/
def execPortSend (name : Bytes) (params : List Bytes) (s : State) : Result := .next (sendCommand name params s)

/-- PORT_PING (R195): transmits encodeCommand(PING_CMD, []), which never errs in a legal configuration. -/
def execPortPing (s : State) : Result := whenEnabled s.mayWait (.next (pingWith (lineBytes s.cfg.pingCmd []) s))

end Sys2Proof.Machine
end

