-- ==== Sys2Proof/Machine/Packet.lean ====
section
/-! DEFINITION. What each packet type does once extracted (40_frame_sync.md R110-R114), and the meanings
of the five packet rows: the DSTEP that finds the packet at the head of `buf` (log 5). -/

namespace Sys2Proof.Machine

/-- dispatchData(B) (R112). -/
def dispatchData (body : Bytes) (s : State) : State :=
  match decodeData s.cfg body with
  | .ok dp => (s.emit (.dataOut dp)).count .dataOk 1
  | .error e => s.raise (.malformedPacket e)

/-- dispatchString(B) (R113). -/
def dispatchString (body : Bytes) (s : State) : State :=
  match decodeString body with
  | some text => enqueueReply text (s.count .stringOk 1)
  | none => s.raise .invalidEncoding

/-- dispatchUnknown(t) (R114). -/
def dispatchUnknown (t : Byte) (s : State) : State := s.raise (.unknownType t)

/-- dispatch(t, p) on the body B = p[7..|p|) (R110). -/
def dispatch (t : Byte) (p : Bytes) (s : State) : State :=
  let body := slice p hdrSize p.length
  if t = 0 then dispatchData body s
  else if t = 1 then dispatchString body s
  else dispatchUnknown t s

/-- A declared length below 7: MalformedPacket(HeaderLength, L), and the 7 header bytes go (R106). -/
def discardShortHeader (declared : Nat) (s : State) : State :=
  (s.raise (.malformedPacket (.headerLength declared))).trim hdrSize

/-- The step of the packet `i`, which must stand complete at the head of `buf` while the Decoder runs. -/
def whenAtHead (i : Instr) (s : State) (t : State) : Result :=
  whenEnabled s.busy (if s.packetAtHead i then .next t else .fault .packetNotAtHead)

/-- PKT_DATA (R109, R112): its L = 7 + |body| bytes leave `buf`, then its body is dispatched. -/
def execPktData (body : Bytes) (s : State) : Result :=
  whenAtHead (.pktData body) s (dispatchData body (s.trim (hdrSize + body.length)))

/-- PKT_STRING (R109, R113). -/
def execPktString (body : Bytes) (s : State) : Result :=
  whenAtHead (.pktString body) s (dispatchString body (s.trim (hdrSize + body.length)))

/-- PKT_STRING_PONG (R113, R196): the packet of the text `PONG`. -/
def execPktStringPong (s : State) : Result :=
  whenAtHead .pktStringPong s (dispatchString pongText (s.trim (hdrSize + pongText.length)))

/-- PKT_UNKNOWN (R109, R114): its L bytes are consumed and discarded. -/
def execPktUnknown (t : Byte) (body : Bytes) (s : State) : Result :=
  whenAtHead (.pktUnknown t body) s (dispatchUnknown t (s.trim (hdrSize + body.length)))

/-- PKT_SHORT_LENGTH (R106). -/
def execPktShortLength (t : Byte) (lll : BitVec 3) (s : State) : Result :=
  whenAtHead (.pktShortLength t lll) s (discardShortHeader lll.toNat s)

end Sys2Proof.Machine
end

