-- ==== Sys2Proof/Machine/FrameSync.lean ====
section
/-! DEFINITION. The frame synchronizer and its completeness gate (40_frame_sync.md R100-R109): the
meanings of PORT_INGEST and PORT_DSTEP. -/

namespace Sys2Proof.Machine

/-- INGEST(c), its enabling condition met (R100, R40). -/
def ingest (c : Bytes) (s : State) : State :=
  if c.length > s.cfg.maxChunk then
    let t := s.raise (.transportOverload c.length)
    ({ t with buf := [], disc := true } : State).emit .disconnect
  else { s.append c with busy := true }

/-- No marker in `buf`: all but the last tailKeep bytes are noise, and the loop suspends (R103). -/
def noMarker (s : State) : State :=
  let n := s.buf.length - tailKeep s.buf
  let t := if n > 0 then s.raise (.noiseDiscarded n) else s
  (t.trim n).suspend

/-- The i bytes before the marker are noise (R104). -/
def discardNoise (i : Nat) (s : State) : State :=
  if i > 0 then (s.raise (.noiseDiscarded i)).trim i else s

/-- The packet is incomplete: resynchronize past the watermark (R107), else suspend (R108). -/
def incomplete (s : State) : State :=
  match s.cfg.watermark with
  | some w => if s.buf.length > w then (s.raise (.forcedResync s.buf.length)).trim 1 else s.suspend
  | none => s.suspend

/-- The header's length is known and at least 7: completeness gate, extraction, dispatch (R107-R110). -/
def gate (t : Byte) (len : Nat) (s : State) : Result :=
  if s.buf.length < len then .next (incomplete s)
  else
    match s.memRead 0 len with
    | some p => .next (dispatch t p (s.trim len))
    | none => .refused .outOfRangeRead

/-- `buf` begins with the marker: header complete (R105), its length at least 7 (R106), then the gate. -/
def decodeHead (s : State) : Result :=
  if s.buf.length < hdrSize then .next s.suspend
  else
    match s.memRead 0 hdrSize with
    | some h =>
      if hdrLength h < hdrSize then .next (discardShortHeader (hdrLength h) s)
      else gate (hdrType h) (hdrLength h) s
    | none => .refused .outOfRangeRead

/-- One iteration of the decode loop (R102). -/
def decodeIteration (s : State) : Result :=
  match findMarker s.buf with
  | none => .next (noMarker s)
  | some i => decodeHead (discardNoise i s)

/-- PORT_INGEST (R100). -/
def execPortIngest (c : Bytes) (s : State) : Result := whenEnabled s.mayIngest (.next (ingest c s))

/-- PORT_DSTEP (R102). -/
def execPortDstep (s : State) : Result := whenEnabled s.busy (decodeIteration s)

end Sys2Proof.Machine
end

