-- ==== Sys2Proof/Machine/HostPort.lean ====
section
/-! DEFINITION. The Host agent's transactions: the meanings of PORT_RESET (70_reset_and_hazards.md R250)
and PORT_DIAG_READ (10_state.md R29). -/

namespace Sys2Proof.Machine

/-- RESET: every element of the block's state gets its reset value (R35, R250). No event is emitted, a
wait is abandoned without completion (R251), and the configuration stays (R9). -/
def resetBlock (s : State) : State :=
  { s with buf := [], busy := false, disc := false, q := [], waiter := .idle, diag := Vector.replicate 13 0 }

/-- PORT_RESET (R250): always enabled. -/
def execPortReset (s : State) : Result := .next (resetBlock s)

/-- PORT_DIAG_READ (R29): returns the register, with no side effect. -/
def execPortDiagRead (i : Nat) (s : State) : Result := .next (s.answer (.diagWord (s.diagRead i)))

end Sys2Proof.Machine
end

