-- ==== Sys2Proof/Machine/Dispatch.lean ====
section
/-! DEFINITION. The arms of exec: one direct call of a meaning for each row of the opcode table. -/

namespace Sys2Proof.Machine

def exec (i : Instr) (s : State) : Host.Outcome State Fault Refusal :=
  match i with
  | .pktData body => Sys2Proof.Machine.execPktData body s
  | .pktString body => Sys2Proof.Machine.execPktString body s
  | .pktStringPong => Sys2Proof.Machine.execPktStringPong s
  | .pktUnknown t body => Sys2Proof.Machine.execPktUnknown t body s
  | .pktShortLength t lll => Sys2Proof.Machine.execPktShortLength t lll s
  | .cmdLine name params => Sys2Proof.Machine.execCmdLine name params s
  | .cmdPing => Sys2Proof.Machine.execCmdPing s
  | .portIngest chunk => Sys2Proof.Machine.execPortIngest chunk s
  | .portDstep => Sys2Proof.Machine.execPortDstep s
  | .portAwait t => Sys2Proof.Machine.execPortAwait t s
  | .portTick => Sys2Proof.Machine.execPortTick s
  | .portSend name params => Sys2Proof.Machine.execPortSend name params s
  | .portPing => Sys2Proof.Machine.execPortPing s
  | .portReset => Sys2Proof.Machine.execPortReset s
  | .portDiagRead idx => Sys2Proof.Machine.execPortDiagRead idx s

end Sys2Proof.Machine
end

