-- ==== Sys2Proof/Machine/Step.lean ====
section
/-! DEFINITION. One step of the machine: one atomic transition of one agent (00_scope.md R14,
10_state.md R22). -/

namespace Sys2Proof.Machine

/-- One step: refuse an illegal configuration (R252); else run the earliest enabled offer; else, while
`busy`, the Decoder's own DSTEP; else nothing is enabled and all state is retained (R235). -/
def step (s : State) : Host.Outcome State Fault Refusal :=
  if legalConfig s.cfg then
    match s.takeOffer with
    | some (i, t) => exec i t
    | none => if s.busy then exec .portDstep s else .next s
  else .refused .illegalConfiguration

/-- `s` with a table word placed so that the very next step runs it. -/
def State.withFetchWord (s : State) (nbits w : Nat) : State := placeTableWord s nbits w

end Sys2Proof.Machine
end

