-- ==== Sys2Proof/Safety.lean ====
section
/-! DEFINITION. What the claims speak of: the invariants of 10_state.md R34 and the states a run reaches,
the effect of an event on the diagnostic file (60_exceptions.md R221), a loop run to its end (R76, R115),
the reference serializer of 30_encoding.md R78, and the account of the texts of 42_reply_correlator.md R169. -/

namespace Sys2Proof.Machine

/-! ### Invariants (R34) -/

/-- Retained form, R34 (e1), (e2), (e3). -/
abbrev RetainedForm (c : Config) (b : Bytes) : Prop :=
  (b.length ≤ 3 ∧ b = marker.take b.length)
    ∨ (hdrMarker b = marker ∧ b.length < 7)
    ∨ (hdrMarker b = marker ∧ 7 ≤ b.length ∧ 7 ≤ hdrLength b ∧ b.length < hdrLength b
        ∧ c.watermark.all (fun w => decide (b.length ≤ w)) = true)

/-- R34 (a) to (f), in its order. -/
abbrev State.Inv (s : State) : Prop :=
  (s.waiter ≠ .idle → s.q = [])
    ∧ s.q.length ≤ s.cfg.qcap
    ∧ (s.waiter ≠ .await 0 ∧ s.waiter ≠ .ping 0)
    ∧ (s.disc = true → s.busy = false ∧ s.buf = [])
    ∧ (s.busy = false → RetainedForm s.cfg s.buf)
    ∧ (s.busy = false → s.buf.length ≤ 65534)
    ∧ s.buf.length ≤ 65534 + s.cfg.maxChunk
    ∧ 65534 + s.cfg.maxChunk ≤ bufCapacity s.cfg

/-- The states a run reaches: from RESET's state in a legal configuration (R252), by the machine's steps
and by the agents' offering any transactions at any time (R22). -/
inductive Reachable : State → Prop where
  | start (c : Config) (h : legalConfig c = true) : Reachable { State.reset with cfg := c }
  | offer (s : State) (offers : List Instr) (h : Reachable s) : Reachable { s with offers := offers }
  | step (s t : State) (h : Reachable s) (hs : Machine.step s = .next t) : Reachable t

/-! ### The diagnostic file -/

/-- What raising one event does to the file: register `k` grows by `n`, wrapping, LAST_EVENT (register
12) becomes `code`, every other register stays (R221). -/
def DiagAfter (d d' : Vector U32 13) (k : Fin 13) (n code : Nat) : Prop :=
  d'[k] = d[k] + BitVec.ofNat 32 n ∧ d'[(12 : Fin 13)] = BitVec.ofNat 32 code
    ∧ ∀ j : Fin 13, j ≠ k → j ≠ 12 → d'[j] = d[j]

/-- What an explicit count does: register `k` grows by 1, every other stays (R221: DATA_OK, STRING_OK). -/
def DiagCounted (d d' : Vector U32 13) (k : Fin 13) : Prop :=
  d'[k] = d[k] + 1 ∧ ∀ j : Fin 13, j ≠ k → d'[j] = d[j]

/-- The state without its diagnostic file and without the values read from it. -/
def State.eraseDiag (s : State) : State := { s with diag := Vector.replicate 13 0, results := [] }

/-- Two outcomes that agree but for the diagnostic file. -/
def SameButDiag : Result → Result → Prop
  | .next s, .next t => s.eraseDiag = t.eraseDiag
  | .fault a, .fault b => a = b
  | .refused a, .refused b => a = b
  | _, _ => False

/-- An event that depends on the byte stream alone: codes 1, 2 and 3 (R116). -/
def DiagEvent.ofStream : DiagEvent → Bool
  | .malformedPacket _ => true
  | .invalidEncoding => true
  | .unknownType _ => true
  | .noReply => false
  | .transportOverload _ => false
  | .encodeNonPrintable => false
  | .replyDropped => false
  | .noiseDiscarded _ => false
  | .forcedResync _ => false
  | .pingMismatch => false

/-! ### Loop runs -/

/-- DRAIN: DSTEP while `busy` (R76), at most `fuel` of them. -/
def drain : Nat → State → State
  | 0, s => s
  | fuel + 1, s =>
    if s.busy then
      match exec .portDstep s with
      | .next t => drain fuel t
      | .fault _ => s
      | .refused _ => s
    else s

/-- FEED c: INGEST c, then DRAIN (R76); |buf| + 1 DSTEPs are enough (R115). -/
def feed (s : State) (c : Bytes) : State :=
  match exec (.portIngest c) s with
  | .next t => drain (t.buf.length + 1) t
  | .fault _ => s
  | .refused _ => s

/-- Feed a stream chunk by chunk. -/
def feedAll (s : State) (cs : List Bytes) : State := cs.foldl feed s

/-- The packet the next DSTEP dispatches or discards for its length, if it does: the one that stands
complete at the earliest marker (R102, R106, R109). -/
def nextPacket (s : State) : List Instr :=
  match findMarker s.buf with
  | none => []
  | some i =>
    match decodePacket (s.buf.drop i) with
    | .ok (p, _) => [p]
    | .error _ => []

/-- The packets DRAIN dispatches, in order, with at most `fuel` DSTEPs. -/
def drainPackets : Nat → State → List Instr
  | 0, _ => []
  | fuel + 1, s =>
    if s.busy then
      match exec .portDstep s with
      | .next t => nextPacket s ++ drainPackets fuel t
      | .fault _ => []
      | .refused _ => []
    else []

/-- The packets FEED c dispatches, in order. -/
def feedPackets (s : State) (c : Bytes) : List Instr :=
  match exec (.portIngest c) s with
  | .next t => drainPackets (t.buf.length + 1) t
  | .fault _ => []
  | .refused _ => []

/-- The packets dispatched while a stream is fed chunk by chunk. -/
def feedAllPackets (s : State) : List Bytes → List Instr
  | [] => []
  | c :: cs => feedPackets s c ++ feedAllPackets (feed s c) cs

/-! ### The reference serializer (R78), a test oracle and no part of the hardware -/

/-- `[id] ++ be2⁻¹(w·|v|) ++ concat be_w⁻¹(v[k])`. -/
def serBlock (b : DataBlock) : Bytes :=
  [b.blockId] ++ beEnc 2 (b.width * b.values.length) ++ (b.values.map (beEnc b.width)).flatten

/-- A DataPacket's body. -/
def serDataBody (dp : DataPacket) : Bytes :=
  beEnc 4 dp.relativeStartTimestampMs.toNat ++ [BitVec.ofNat 8 dp.dataBlocks.length]
    ++ (dp.dataBlocks.map serBlock).flatten

/-- serData(dp). -/
def serData (dp : DataPacket) : Bytes := packetBytes 0 (serDataBody dp)

/-- serString(s). -/
def serString (text : Bytes) : Bytes := packetBytes 1 text

/-- A DataPacket the serializer is defined on: at most 255 blocks, each of its id's width with values
below 2^(8·width), and a total size of at most 65535 (R77, R78). -/
def Serializable (c : Config) (dp : DataPacket) : Prop :=
  dp.dataBlocks.length ≤ 255
    ∧ (∀ b ∈ dp.dataBlocks, b.width = widthOf c b.blockId ∧ ∀ v ∈ b.values, v < 2 ^ (8 * b.width))
    ∧ (serData dp).length ≤ 65535

/-! ### Accounts -/

/-- An output event that hands a text to an AWAIT. -/
def OutEvent.isAwaitText : OutEvent → Bool
  | .awaitDone (some _) => true
  | _ => false

/-- AWAIT_DONE of either kind. -/
def OutEvent.isAwaitDone : OutEvent → Bool
  | .awaitDone _ => true
  | _ => false

/-- PING_DONE of either kind. -/
def OutEvent.isPingDone : OutEvent → Bool
  | .pingDone _ => true
  | _ => false

/-- Where the texts that passed the STRING decoder are: delivered to an AWAIT, delivered to a PING (with
true, or with a recorded mismatch), still queued, or lost by the overflow policy (R169). -/
def State.textsAccounted (s : State) : Nat :=
  s.trace.countP OutEvent.isAwaitText + s.trace.count (.pingDone true) + s.events.count .pingMismatch
    + s.q.length + s.events.count .replyDropped

/-- The waits of each kind begun and not yet completed: 0 or 1. -/
def Waiter.awaitsOwed : Waiter → Nat
  | .await _ => 1
  | .idle => 0
  | .ping _ => 0

/-- The pings begun and not yet completed: 0 or 1 (SENT, R27). -/
def Waiter.pingsOwed : Waiter → Nat
  | .ping _ => 1
  | .idle => 0
  | .await _ => 0

end Sys2Proof.Machine
end

