-- ==== Sys2Proof/Certificates/Slice0/Obligations.lean ====
section
/-! DEFINITION. The statements about the model. Each cites the rules of spec/ it formalises; a statement
marked "model's choice" rests on the log entry it names. -/

open Sys2Proof Sys2Proof.Machine

/-! ### Reset, invariants, configuration -/

/-- R250, R35: RESET is always enabled, gives every element of the block's state its reset value and
emits no event. That the configuration stays is the model's reading (log 17), and that what was put out,
recorded and returned before stays is the model's choice (logs 12, 13, 14). -/
def Obligations.ResetSetsEveryElement : Prop :=
  ∀ s : State, exec .portReset s = .next
    { s with buf := [], busy := false, disc := false, q := [], waiter := .idle, diag := #v[0, 0, 0, 0, 0, 0, 0, 0, 0, 0, 0, 0, 0] }

/-- R34: every reachable state satisfies (a) to (f). -/
def Obligations.ReachableStatesSatisfyInvariants : Prop := ∀ s : State, Reachable s → s.Inv

/-- R34, as a property of every step from every state that meets the invariants, reachable or not. -/
def Obligations.StepKeepsInvariants : Prop := ∀ s t : State, s.Inv → step s = .next t → t.Inv

/-- R34 at RESET's state (R252) in the configuration of R9, whatever the two OPEN parameters are. -/
def Obligations.ResetStateSatisfiesInvariants : Prop := State.reset.Inv

/-- R252: a step is refused for its configuration exactly when one of R252's seven conditions fails. -/
def Obligations.IllegalConfigurationsAreRefused : Prop :=
  ∀ s : State, step s = .refused .illegalConfiguration ↔
    ¬ (1 ≤ s.cfg.qcap ∧ (∀ id : Byte, widthOf s.cfg id ∈ [1, 2, 4]) ∧ 1 ≤ s.cfg.maxChunk
        ∧ 65534 + s.cfg.maxChunk ≤ bufCapacity s.cfg ∧ (∀ w, s.cfg.watermark = some w → 7 ≤ w)
        ∧ (∀ x ∈ s.cfg.pingCmd, 0x20 ≤ x.toNat ∧ x.toNat ≤ 0x7E) ∧ s.cfg.marker = [0xA5, 0xA5, 0xA5, 0xA5])

/-- Log 17 (model's reading of R9, R252, which leave a change at a RESET open): no transaction, RESET
among them, and no step changes the configuration. Nor does an instruction's own effect touch what the
agents offer (log 1: model's choice). -/
def Obligations.ConfigurationNeverChanges : Prop :=
  (∀ (i : Instr) (s t : State), exec i s = .next t → t.cfg = s.cfg ∧ t.offers = s.offers)
    ∧ ∀ s t : State, step s = .next t → t.cfg = s.cfg

/-! ### Enabling and the step -/

/-- R22: each port transaction has a step exactly when its enabling condition holds; without it there is
no step, and the state is the fault `notEnabled` (U14). -/
def Obligations.TransactionsStepExactlyWhenEnabled : Prop :=
  ∀ s : State,
    (∀ c, if s.busy = false ∧ s.disc = false then ∃ t, exec (.portIngest c) s = .next t
      else exec (.portIngest c) s = .fault .notEnabled)
    ∧ (if s.busy = true then ∃ t, exec .portDstep s = .next t else exec .portDstep s = .fault .notEnabled)
    ∧ (∀ n, if s.waiter = .idle then ∃ t, exec (.portAwait n) s = .next t
      else exec (.portAwait n) s = .fault .notEnabled)
    ∧ (if s.waiter = .idle then ∃ t, exec .portPing s = .next t else exec .portPing s = .fault .notEnabled)
    ∧ (∀ name params, ∃ t, exec (.portSend name params) s = .next t)
    ∧ (∃ t, exec .portTick s = .next t) ∧ (∃ t, exec .portReset s = .next t)
    ∧ ∀ i, ∃ t, exec (.portDiagRead i) s = .next t

/-- Logs 5, 11 (model's choice), from R22: the condition the step tests for every instruction, packet
rows and command lines among them, is exactly the condition under which its meaning has a step. -/
def Obligations.EnabledExactlyWhenExecSteps : Prop :=
  ∀ (i : Instr) (s : State), enabled i s = true ↔ ∃ t, exec i s = .next t

/-- Log 5 (model's choice), from R109: every packet row completes when its packet stands at the head of
the buffer of a running Decoder; exactly its bytes leave the buffer, and the Decoder goes on. -/
def Obligations.PacketRowsConsumeTheirBytes : Prop :=
  ∀ (i : Instr) (w rest : Bytes) (s : State), i.wellFormed = true → i.canonical = true →
    encode i = some w → hdrMarker w = [0xA5, 0xA5, 0xA5, 0xA5] → s.busy = true → s.buf = w ++ rest →
    ∃ t, exec i s = .next t ∧ t.buf = rest ∧ t.busy = true ∧ t.disc = s.disc ∧ t.cfg = s.cfg
      ∧ t.results = s.results ∧ t.offers = s.offers

/-- Log 1 (model's choice), from R22: the step takes the earliest enabled offer, leaves the offers of
waiting agents as they are, and runs it. -/
def Obligations.StepRunsTheEarliestEnabledOffer : Prop :=
  ∀ (s : State) (held rest : List Instr) (i : Instr), legalConfig s.cfg = true →
    s.offers = held ++ i :: rest → (∀ j ∈ held, enabled j s = false) → enabled i s = true →
    step s = exec i { s with offers := held ++ rest }

/-- From R102, R110 and R235: with nothing enabled on offer, the step is the packet row the decoder reads
at the head of the buffer while `busy`, and retains all state otherwise (logs 1, 2: model's choice). -/
def Obligations.StepRunsTheDecodedPacket : Prop :=
  ∀ s : State, legalConfig s.cfg = true → (∀ j ∈ s.offers, enabled j s = false) →
    (s.busy = true → ∀ i rest, decodePacket s.buf = .ok (i, rest) → step s = exec i s)
    ∧ (s.busy = false → step s = .next s)

/-- Log 3 (model's choice): placing a table word makes the very next step run the instruction the
decoder reads from it. How the word's number is laid out as bytes (log 6), which of two matching rows is
read (log 7) and the reading of a command line (log 18) are the model's. -/
def Obligations.PlacedTableWordRunsNext : Prop :=
  ∀ (s : State) (nbits w : Nat) (i : Instr), legalConfig s.cfg = true → s.waiter = .idle →
    decodeTableWord nbits w = some i →
    step (s.withFetchWord nbits w)
      = exec i (if hdrMarker (tableBytes nbits w) = [0xA5, 0xA5, 0xA5, 0xA5]
          then { s with buf := tableBytes nbits w, busy := true } else s)

/-! ### Encodings -/

/-- R60-R63, R68, R70 and R72 on packets written out by hand from the layouts (30_encoding.md,
95_test_vectors.md). Model's choice: the two command-line clauses are about the model's own line decoder,
which is no hardware and splits at each space (log 18): R69 and R70 give only the format of the line, and
`41 20 20 42 0D` also encodes `A` with the one parameter ` B`. That the PONG packet and the PING line decode
to their special rows is the model's priority between rows (log 7). -/
def Obligations.SpecWordsDecode : Prop :=
  decode [0xA5, 0xA5, 0xA5, 0xA5, 0x00, 0x00, 0x0C, 0x00, 0x00, 0x00, 0x2A, 0x00] = .ok (.pktData [0, 0, 0, 0x2A, 0], [])
    ∧ decode [0xA5, 0xA5, 0xA5, 0xA5, 0x01, 0x00, 0x09, 0x4F, 0x4B, 0xFF] = .ok (.pktString [0x4F, 0x4B], [0xFF])
    ∧ decode [0xA5, 0xA5, 0xA5, 0xA5, 0x01, 0x00, 0x0B, 0x50, 0x4F, 0x4E, 0x47] = .ok (.pktStringPong, [])
    ∧ decode [0xA5, 0xA5, 0xA5, 0xA5, 0x02, 0x00, 0x08, 0xFF] = .ok (.pktUnknown 2 [0xFF], [])
    ∧ decode [0xA5, 0xA5, 0xA5, 0xA5, 0x01, 0x00, 0x03, 0x41] = .ok (.pktShortLength 1 3, [0x41])
    ∧ decode [0x41, 0x20, 0x20, 0x42, 0x0D] = .ok (.cmdLine [0x41] [[], [0x42]], [])
    ∧ decode [0x50, 0x49, 0x4E, 0x47, 0x0D] = .ok (.cmdPing, [])

/-- R60-R70, R78: for every row and every operand the row admits, decoding the encoded instruction gives
it back, with the bytes after it. The decoding of command lines (log 18) and which of two matching rows is
taken (log 7), and so `canonical`, are the model's. -/
def Obligations.DecodeInvertsEncode : Prop :=
  ∀ (i : Instr) (w rest : Bytes), i.wellFormed = true → i.canonical = true → encode i = some w →
    decode (w ++ rest) = .ok (i, rest)

/-- The other direction: whatever bytes decode are the encoding of the well-formed term they decode to,
so no two rows share a word and no reserved encoding falls through to a neighbour. For packets this rests
on R60-R63, R70 and R72. For command lines it rests on the format of R69 and R70 and on the model's line
decoder, which is no hardware and splits at each space (log 18: model's choice). The conclusion
`canonical` is the model's priority between rows (log 7) and that split. -/
def Obligations.DecodedBytesAreTheEncoding : Prop :=
  ∀ (b rest : Bytes) (i : Instr), decode b = .ok (i, rest) →
    i.wellFormed = true ∧ i.canonical = true ∧ ∃ w, encode i = some w ∧ b = w ++ rest

/-! ### INGEST -/

/-- R100, R40: an enabled INGEST of at most MAX_CHUNK bytes appends the chunk and starts a loop run; a
longer one raises TransportOverload, drops the chunk and the buffer, disconnects, and appends nothing;
while the Decoder runs or the transport is disconnected there is no INGEST. -/
def Obligations.IngestAppendsOrOverloads : Prop :=
  ∀ (c : Bytes) (s : State),
    (s.busy = true ∨ s.disc = true → exec (.portIngest c) s = .fault .notEnabled)
    ∧ (s.busy = false → s.disc = false → c.length ≤ s.cfg.maxChunk →
        exec (.portIngest c) s = .next { s with buf := s.buf ++ c, busy := true })
    ∧ (s.busy = false → s.disc = false → s.cfg.maxChunk < c.length → ∃ d, DiagAfter s.diag d 8 1 5 ∧ exec (.portIngest c) s = .next
        { s with buf := [], disc := true, diag := d, events := s.events ++ [.transportOverload c.length],
                 trace := s.trace ++ [.disconnect] })

/-! ### DSTEP -/

/-- R101: findMarker is the least offset of the marker, none when there is none; tailKeep is the greatest
k in 0..3 such that the last k bytes are the marker's first k, and with no marker it is the number of
trailing `A5` bytes. -/
def Obligations.MarkerSearchFindsLeastAndTail : Prop :=
  ∀ b : Bytes,
    (tailKeep b ≤ 3 ∧ tailKeep b ≤ b.length
      ∧ b.drop (b.length - tailKeep b) = [0xA5, 0xA5, 0xA5, 0xA5].take (tailKeep b)
      ∧ ∀ k, k ≤ 3 → k ≤ b.length → b.drop (b.length - k) = [0xA5, 0xA5, 0xA5, 0xA5].take k → k ≤ tailKeep b)
    ∧
    (∀ i, findMarker b = some i ↔
      (∃ post, b = b.take i ++ [0xA5, 0xA5, 0xA5, 0xA5] ++ post ∧ i ≤ b.length)
        ∧ ∀ j < i, ¬ ∃ post, b = b.take j ++ [0xA5, 0xA5, 0xA5, 0xA5] ++ post)
    ∧ (findMarker b = none ↔ ∀ pre post, b ≠ pre ++ [0xA5, 0xA5, 0xA5, 0xA5] ++ post)
    ∧ (findMarker b = none →
        ∃ pre, b = pre ++ List.replicate (tailKeep b) 0xA5 ∧ pre.getLast? ≠ some 0xA5)

/-- R103, R101: with no marker in the buffer all but its trailing `A5` bytes (at most 3) is discarded as
noise and the loop suspends. -/
def Obligations.DstepWithoutMarkerKeepsTail : Prop :=
  ∀ s : State, s.busy = true → findMarker s.buf = none →
    ∃ noise d, s.buf = noise ++ List.replicate (tailKeep s.buf) 0xA5 ∧ tailKeep s.buf ≤ 3
      ∧ noise.getLast? ≠ some 0xA5
      ∧ (if noise = [] then d = s.diag else DiagAfter s.diag d 0 noise.length 8)
      ∧ exec .portDstep s = .next
          { s with buf := List.replicate (tailKeep s.buf) 0xA5, busy := false, diag := d,
                   events := s.events ++ (if noise = [] then [] else [.noiseDiscarded noise.length]) }

/-- R105: a marker with fewer than 7 bytes in the buffer suspends the loop with the buffer unchanged. -/
def Obligations.DstepSuspendsOnIncompleteHeader : Prop :=
  ∀ (s : State) (x : Bytes), s.busy = true → s.buf = [0xA5, 0xA5, 0xA5, 0xA5] ++ x → x.length < 3 →
    exec .portDstep s = .next { s with busy := false }

/-- R106, R72 (b): a declared length below 7 raises MalformedPacket(HeaderLength, L) whatever the type and
however few bytes follow, and removes exactly the 7 header bytes. -/
def Obligations.DstepDiscardsShortHeader : Prop :=
  ∀ (s : State) (ty l1 l0 : Byte) (rest : Bytes), s.busy = true →
    s.buf = [0xA5, 0xA5, 0xA5, 0xA5, ty, l1, l0] ++ rest → l1.toNat * 256 + l0.toNat < 7 →
    ∃ d, DiagAfter s.diag d 1 1 1 ∧ exec .portDstep s = .next
      { s with buf := rest, diag := d,
               events := s.events ++ [.malformedPacket (.headerLength (l1.toNat * 256 + l0.toNat))] }

/-- R107, R108: an incomplete packet suspends the loop with the buffer unchanged, unless a watermark is
set and exceeded; then ForcedResync is raised and the first byte of the buffer goes. -/
def Obligations.DstepHoldsIncompletePacket : Prop :=
  ∀ (s : State) (ty l1 l0 : Byte) (body : Bytes), s.busy = true →
    s.buf = [0xA5, 0xA5, 0xA5, 0xA5, ty, l1, l0] ++ body → 7 ≤ l1.toNat * 256 + l0.toNat →
    s.buf.length < l1.toNat * 256 + l0.toNat →
    ((∀ w, s.cfg.watermark = some w → s.buf.length ≤ w) → exec .portDstep s = .next { s with busy := false })
    ∧ ∀ w, s.cfg.watermark = some w → w < s.buf.length →
        ∃ d, DiagAfter s.diag d 10 1 9 ∧ exec .portDstep s = .next
          { s with buf := [0xA5, 0xA5, 0xA5, ty, l1, l0] ++ body, diag := d,
                   events := s.events ++ [.forcedResync s.buf.length] }

/-- R104: noise before the earliest marker is counted and removed, and the same DSTEP goes on as it would
with the marker at offset 0. -/
def Obligations.DstepDiscardsNoiseThenGoesOn : Prop :=
  ∀ (s : State) (noise post : Bytes), s.busy = true → noise ≠ [] → s.buf = noise ++ [0xA5, 0xA5, 0xA5, 0xA5] ++ post →
    findMarker s.buf = some noise.length →
    ∃ d, DiagAfter s.diag d 0 noise.length 8 ∧ exec .portDstep s = exec .portDstep
      { s with buf := [0xA5, 0xA5, 0xA5, 0xA5] ++ post, diag := d,
               events := s.events ++ [.noiseDiscarded noise.length] }

/-- R109, R110, R111: a complete packet leaves the buffer whole and DSTEP is the step of the row its type
selects, whatever stands inside its body or after it (R71). -/
def Obligations.DstepExtractsAndDispatches : Prop :=
  ∀ (s : State) (i : Instr) (rest : Bytes), s.busy = true → decodePacket s.buf = .ok (i, rest) →
    ∃ t, exec .portDstep s = .next t ∧ exec i s = .next t ∧ t.buf = rest ∧ t.busy = true

/-- R115: a DSTEP that does not end the run removes at least one byte; and so a run ends within |buf| + 1
DSTEPs. -/
def Obligations.DecodeLoopTerminates : Prop :=
  (∀ s t : State, exec .portDstep s = .next t → t.busy = false ∨ t.buf.length < s.buf.length)
    ∧ ∀ s : State, (drain (s.buf.length + 1) s).busy = false

/-- R223: a DSTEP from a running Decoder raises at most two decode events: a NoiseDiscarded, then at most
one of codes 1, 2, 3 and 9; beside them only the correlator's ReplyDropped (7) or PingMismatch (10). -/
def Obligations.DstepRaisesInPriorityOrder : Prop :=
  ∀ s t : State, exec .portDstep s = .next t →
    ∃ noise rest, t.events = s.events ++ noise ++ rest
      ∧ (noise = [] ∨ ∃ n, 0 < n ∧ noise = [.noiseDiscarded n])
      ∧ (rest = [] ∨ ∃ e, rest = [e] ∧ e.code ∈ [1, 2, 3, 7, 9, 10])

/-- R116: with no watermark, the packets decoded from a stream do not depend on how it is split into
chunks: the same sequence of dispatches, equal outputs, queue and wait, equal events of the stream, equal
final buffer, equal diag[0..5]. -/
def Obligations.ChunkBoundariesDoNotMatter : Prop :=
  ∀ (s : State) (cs ds : List Bytes), s.Inv → s.busy = false → s.disc = false → s.cfg.watermark = none →
    (∀ c ∈ cs, c.length ≤ s.cfg.maxChunk) → (∀ c ∈ ds, c.length ≤ s.cfg.maxChunk) → cs.flatten = ds.flatten →
    feedAllPackets s cs = feedAllPackets s ds
      ∧ (feedAll s cs).trace = (feedAll s ds).trace ∧ (feedAll s cs).q = (feedAll s ds).q
      ∧ (feedAll s cs).waiter = (feedAll s ds).waiter
      ∧ (feedAll s cs).events.filter DiagEvent.ofStream = (feedAll s ds).events.filter DiagEvent.ofStream
      ∧ (feedAll s cs).buf = (feedAll s ds).buf
      ∧ ∀ k : Fin 13, k.val ≤ 5 → (feedAll s cs).diag[k] = (feedAll s ds).diag[k]

/-- R79: a DataPacket the serializer is defined on, fed in any chunking to an idle connected block, is put
out once and unchanged, and nothing else happens. -/
def Obligations.DataPacketRoundTrip : Prop :=
  ∀ (s : State) (dp : DataPacket) (cs : List Bytes), legalConfig s.cfg = true → s.busy = false → s.disc = false →
    s.buf = [] → s.cfg.watermark = none → (∀ c ∈ cs, c.length ≤ s.cfg.maxChunk) → Serializable s.cfg dp →
    cs.flatten = serData dp →
    ∃ d, DiagCounted s.diag d 4 ∧ feedAll s cs = { s with diag := d, trace := s.trace ++ [.dataOut dp] }

/-- R79: a valid text of at most 65528 bytes, fed in any chunking, is delivered to the correlator. -/
def Obligations.StringPacketRoundTrip : Prop :=
  ∀ (s : State) (text : Bytes) (cs : List Bytes), s.busy = false → s.disc = false → s.buf = [] →
    s.cfg.watermark = none → (∀ c ∈ cs, c.length ≤ s.cfg.maxChunk) → validUtf8 text = true → text.length ≤ 65528 →
    cs.flatten = serString text →
    ∃ d, DiagCounted s.diag d 5 ∧ feedAll s cs = enqueueReply text { s with diag := d }

/-! ### Body decoders -/

/-- R135: decodeArray on DataBlock payloads: |P|/w values in stream order, each below 2^(8w), which are
the big-endian readings of the payload's consecutive w-byte pieces. -/
def Obligations.ArrayElementsAreBigEndian : Prop :=
  ∀ (p : Bytes) (w : Nat), 1 ≤ w → p.length % w = 0 →
    (decodeArray p w).length = p.length / w
      ∧ (∀ v ∈ decodeArray p w, v < 2 ^ (8 * w))
      ∧ ((decodeArray p w).map (beEnc w)).flatten = p

/-- R134: decodeBlock's checks in their order, and its result. -/
def Obligations.BlockDecodingChecksInOrder : Prop :=
  ∀ (c : Config) (pre post : Bytes),
    (post.length < 3 → decodeBlock c (pre ++ post) pre.length = .error .blockHeaderShort)
    ∧ ∀ id l1 l0 tail, post = [id, l1, l0] ++ tail →
        (tail.length < l1.toNat * 256 + l0.toNat → decodeBlock c (pre ++ post) pre.length = .error .blockOverrun)
        ∧ ∀ payload rest, tail = payload ++ rest → payload.length = l1.toNat * 256 + l0.toNat →
            decodeBlock c (pre ++ post) pre.length =
              if payload.length % widthOf c id = 0 then
                .ok ({ blockId := id, width := widthOf c id, values := decodeArray payload (widthOf c id) },
                      pre.length + 3 + payload.length)
              else .error .widthMismatch

/-- R130, R131, R132, R136, R79: a DATA body is accepted exactly when it is what the reference serializer
produces, and decodes to what was serialized; a body shorter than 5 bytes, and no other, is BodyShort; and
any bytes after an accepted body make it TrailingBytes. -/
def Obligations.DataBodiesAreSerializedPackets : Prop :=
  ∀ (c : Config) (b : Bytes), legalConfig c = true → b.length ≤ 65528 →
    (∀ dp, decodeData c b = .ok dp ↔ Serializable c dp ∧ serDataBody dp = b)
    ∧ (b.length < 5 ↔ decodeData c b = .error .bodyShort)
    ∧ ∀ dp extra, decodeData c b = .ok dp → extra ≠ [] → decodeData c (b ++ extra) = .error .trailingBytes

/-- R138: validUtf8 holds exactly when the body splits into sequences of the nine forms of its table,
written out here: for each byte of the sequence, its least and its greatest value. -/
def Obligations.Utf8ValidityIsSplitting : Prop :=
  ∀ b : Bytes, validUtf8 b = true ↔
    ∃ parts : List Bytes, b = parts.flatten
      ∧ ∀ p ∈ parts, ∃ row ∈ ([ [(0x00, 0x7F)],
                                [(0xC2, 0xDF), (0x80, 0xBF)],
                                [(0xE0, 0xE0), (0xA0, 0xBF), (0x80, 0xBF)],
                                [(0xE1, 0xEC), (0x80, 0xBF), (0x80, 0xBF)],
                                [(0xED, 0xED), (0x80, 0x9F), (0x80, 0xBF)],
                                [(0xEE, 0xEF), (0x80, 0xBF), (0x80, 0xBF)],
                                [(0xF0, 0xF0), (0x90, 0xBF), (0x80, 0xBF), (0x80, 0xBF)],
                                [(0xF1, 0xF3), (0x80, 0xBF), (0x80, 0xBF), (0x80, 0xBF)],
                                [(0xF4, 0xF4), (0x80, 0x8F), (0x80, 0xBF), (0x80, 0xBF)] ] : List (List (Nat × Nat))),
          List.Forall₂ (fun (x : Byte) (r : Nat × Nat) => r.1 ≤ x.toNat ∧ x.toNat ≤ r.2) p row

/-! ### Packet rows -/

/-- R112: PKT_DATA puts out the decoded packet and counts DATA_OK, or raises MalformedPacket with the
sub-cause; its bytes leave the buffer either way (R111), and nothing else changes. -/
def Obligations.DataPacketIsPutOut : Prop :=
  ∀ (s : State) (body rest : Bytes), s.busy = true → body.length ≤ 65528 → s.buf = packetBytes 0 body ++ rest →
    (∀ dp, decodeData s.cfg body = .ok dp → ∃ d, DiagCounted s.diag d 4 ∧ exec (.pktData body) s = .next
      { s with buf := rest, diag := d, trace := s.trace ++ [.dataOut dp] })
    ∧ ∀ e, decodeData s.cfg body = .error e → ∃ d, DiagAfter s.diag d 1 1 1 ∧ exec (.pktData body) s = .next
      { s with buf := rest, diag := d, events := s.events ++ [.malformedPacket e] }

/-- R113, R137: PKT_STRING with valid UTF-8 counts STRING_OK and passes the body unchanged to the
correlator; otherwise it raises InvalidEncoding. -/
def Obligations.StringPacketGoesToCorrelator : Prop :=
  ∀ (s : State) (body rest : Bytes), s.busy = true → body.length ≤ 65528 → body ≠ [0x50, 0x4F, 0x4E, 0x47] →
    s.buf = packetBytes 1 body ++ rest →
    (validUtf8 body = true → ∃ d, DiagCounted s.diag d 5 ∧
      exec (.pktString body) s = .next (enqueueReply body { s with buf := rest, diag := d }))
    ∧ (validUtf8 body = false → ∃ d, DiagAfter s.diag d 2 1 2 ∧ exec (.pktString body) s = .next
      { s with buf := rest, diag := d, events := s.events ++ [.invalidEncoding] })

/-- R196, R70 (the row PKT_STRING_PONG): the packet `PONG` completes an outstanding PING with true when
the token is `PONG`, and with false and PingMismatch when it is another; with no PING outstanding it is a
text like any other. -/
def Obligations.PongPacketCompletesPing : Prop :=
  ∀ (s : State) (rest : Bytes), s.busy = true →
    s.buf = [0xA5, 0xA5, 0xA5, 0xA5, 0x01, 0x00, 0x0B, 0x50, 0x4F, 0x4E, 0x47] ++ rest →
    (∀ r, s.waiter = .ping r → s.cfg.pongToken = [0x50, 0x4F, 0x4E, 0x47] → ∃ d, DiagCounted s.diag d 5 ∧
      exec .pktStringPong s = .next
        { s with buf := rest, diag := d, waiter := .idle, trace := s.trace ++ [.pingDone true] })
    ∧ (∀ r, s.waiter = .ping r → s.cfg.pongToken ≠ [0x50, 0x4F, 0x4E, 0x47] →
      ∃ d d', DiagCounted s.diag d 5 ∧ DiagAfter d d' 11 1 10 ∧ exec .pktStringPong s = .next
        { s with buf := rest, diag := d', waiter := .idle, events := s.events ++ [.pingMismatch],
                 trace := s.trace ++ [.pingDone false] })
    ∧ ((∀ r, s.waiter ≠ .ping r) → ∃ d, DiagCounted s.diag d 5 ∧
      exec .pktStringPong s = .next (enqueueReply [0x50, 0x4F, 0x4E, 0x47] { s with buf := rest, diag := d }))

/-- R114, R63: a packet of type 2..255 is consumed whole and discarded, with UnknownType. -/
def Obligations.UnknownPacketIsDiscarded : Prop :=
  ∀ (s : State) (ty : Byte) (body rest : Bytes), s.busy = true → 2 ≤ ty.toNat → body.length ≤ 65528 →
    s.buf = packetBytes ty body ++ rest →
    ∃ d, DiagAfter s.diag d 3 1 3 ∧ exec (.pktUnknown ty body) s = .next
      { s with buf := rest, diag := d, events := s.events ++ [.unknownType ty] }

/-- R106 (the row PKT_SHORT_LENGTH): MalformedPacket(HeaderLength, L), and the 7 header bytes go. -/
def Obligations.ShortLengthRowDiscardsHeader : Prop :=
  ∀ (s : State) (ty : Byte) (lll : BitVec 3) (rest : Bytes), s.busy = true → lll.toNat ≤ 6 →
    s.buf = [0xA5, 0xA5, 0xA5, 0xA5, ty, 0x00, lll.setWidth 8] ++ rest →
    ∃ d, DiagAfter s.diag d 1 1 1 ∧ exec (.pktShortLength ty lll) s = .next
      { s with buf := rest, diag := d, events := s.events ++ [.malformedPacket (.headerLength lll.toNat)] }

/-! ### Correlator -/

/-- R160, R161: a text goes to the waiter if there is one, else to the tail of the queue, and at capacity
exactly one text is lost by the policy, with ReplyDropped. -/
def Obligations.EnqueueHandsOffQueuesOrDrops : Prop :=
  ∀ (text : Bytes) (s : State),
    (∀ r, s.waiter = .await r → enqueueReply text s =
      { s with waiter := .idle, trace := s.trace ++ [.awaitDone (some text)] })
    ∧ (∀ r, s.waiter = .ping r → enqueueReply text s = completePing text s)
    ∧ (s.waiter = .idle → s.q.length < s.cfg.qcap → enqueueReply text s = { s with q := s.q ++ [text] })
    ∧ (s.waiter = .idle → s.cfg.qcap ≤ s.q.length → ∃ d, DiagAfter s.diag d 6 1 7 ∧ enqueueReply text s =
        { s with diag := d, events := s.events ++ [.replyDropped],
                 q := match s.cfg.overflow with
                   | .dropOldest => s.q.tail ++ [text]
                   | .dropNewest => s.q })

/-- R196: a reply ends the ping; it is consumed whether it matches or not, the comparison is exact, and a
mismatch is recorded. -/
def Obligations.PingReplyIsComparedExactly : Prop :=
  ∀ (text : Bytes) (s : State),
    (text = s.cfg.pongToken → completePing text s = { s with waiter := .idle, trace := s.trace ++ [.pingDone true] })
    ∧ (text ≠ s.cfg.pongToken → ∃ d, DiagAfter s.diag d 11 1 10 ∧ completePing text s =
        { s with waiter := .idle, diag := d, events := s.events ++ [.pingMismatch],
                 trace := s.trace ++ [.pingDone false] })

/-- R163, R164: AWAIT takes the head of a non-empty queue at once; on an empty queue it is a poll that
fails when t = 0, and otherwise waits t ticks; while a wait is outstanding it has no step. -/
def Obligations.AwaitTakesHeadOrWaits : Prop :=
  ∀ (n : Nat) (s : State), if s.waiter ≠ .idle then exec (.portAwait n) s = .fault .notEnabled else
    (∀ x rest, s.q = x :: rest → exec (.portAwait n) s = .next
      { s with q := rest, trace := s.trace ++ [.awaitDone (some x)] })
    ∧ (s.q = [] → n = 0 → ∃ d, DiagAfter s.diag d 7 1 4 ∧ exec (.portAwait n) s = .next
      { s with diag := d, events := s.events ++ [.noReply], trace := s.trace ++ [.awaitDone none] })
    ∧ (s.q = [] → n ≠ 0 → exec (.portAwait n) s = .next { s with waiter := .await n })

/-- R165, R197: TICK counts the outstanding wait down and ends it at its last tick with no reply; with no
wait it changes nothing. -/
def Obligations.TickCountsDown : Prop :=
  ∀ s : State,
    (s.waiter = .idle → exec .portTick s = .next s)
    ∧ (∀ r, s.waiter = .await r → r ≠ 1 → exec .portTick s = .next { s with waiter := .await (r - 1) })
    ∧ (∀ r, s.waiter = .ping r → r ≠ 1 → exec .portTick s = .next { s with waiter := .ping (r - 1) })
    ∧ (s.waiter = .await 1 → ∃ d, DiagAfter s.diag d 7 1 4 ∧ exec .portTick s = .next
      { s with waiter := .idle, diag := d, events := s.events ++ [.noReply], trace := s.trace ++ [.awaitDone none] })
    ∧ (s.waiter = .ping 1 → ∃ d, DiagAfter s.diag d 7 1 4 ∧ exec .portTick s = .next
      { s with waiter := .idle, diag := d, events := s.events ++ [.noReply], trace := s.trace ++ [.pingDone false] })

/-- R165, R166, R168 with no reply: a wait begun on an empty queue, be it an AWAIT of n ≥ 1 ticks or a
PING of 2·T_NOMINAL ≥ 1, ends at its last TICK and not before, and the queue is empty throughout. The row
CMD_PING begins the same wait after its own line (log 11: model's choice). -/
def Obligations.WaitEndsAtItsLastTick : Prop :=
  ∀ s : State, s.waiter = .idle → s.q = [] →
    (∀ n, 1 ≤ n →
      ∃ f : Nat → State, exec (.portAwait n) s = .next (f 0) ∧ (∀ k, exec .portTick (f k) = .next (f (k + 1)))
        ∧ (∀ k, (f k).q = []) ∧ (∀ k < n, (f k).waiter = .await (n - k) ∧ (f k).trace = s.trace)
        ∧ (f n).waiter = .idle ∧ (f n).trace = s.trace ++ [.awaitDone none])
    ∧ (1 ≤ s.cfg.tNominal → ∀ i line,
        (i = .portPing ∧ line = s.cfg.pingCmd ++ [0x0D]) ∨ (i = .cmdPing ∧ line = [0x50, 0x49, 0x4E, 0x47, 0x0D]) →
        ∃ f : Nat → State, exec i s = .next (f 0) ∧ (∀ k, exec .portTick (f k) = .next (f (k + 1)))
          ∧ (∀ k, (f k).q = [])
          ∧ (∀ k < 2 * s.cfg.tNominal, (f k).waiter = .ping (2 * s.cfg.tNominal - k) ∧ (f k).trace = s.trace ++ [.tx line])
          ∧ (f (2 * s.cfg.tNominal)).waiter = .idle
          ∧ (f (2 * s.cfg.tNominal)).trace = s.trace ++ [.tx line, .pingDone false])

/-- R162, R26: texts enter the queue at its tail and leave it at its head; the one exception is the
oldest text lost at capacity, and RESET. -/
def Obligations.QueueIsFirstInFirstOut : Prop :=
  ∀ (i : Instr) (s t : State), exec i s = .next t → i ≠ .portReset →
    t.q = s.q ∨ (∃ x, t.q = s.q ++ [x]) ∨ (∃ x, s.q = x :: t.q)
      ∨ (∃ x, s.cfg.qcap ≤ s.q.length ∧ s.cfg.overflow = .dropOldest ∧ t.q = s.q.tail ++ [x])

/-- R169, as a count: across every step but RESET, STRING_OK grows by exactly as much as the texts
delivered, queued and dropped together. -/
def Obligations.TextsAreConserved : Prop :=
  ∀ (i : Instr) (s t : State), legalConfig s.cfg = true → exec i s = .next t → i ≠ .portReset →
    t.diagReg .stringOk - s.diagReg .stringOk
      = BitVec.ofNat 32 t.textsAccounted - BitVec.ofNat 32 s.textsAccounted

/-- R198, R166, R167: each PING puts out exactly one PING_DONE and each AWAIT exactly one AWAIT_DONE, at
once or when its wait ends, unless a RESET intervenes; nothing else puts one out. -/
def Obligations.EachWaitCompletesOnce : Prop :=
  ∀ (i : Instr) (s t : State), exec i s = .next t → i ≠ .portReset →
    t.trace.countP OutEvent.isPingDone + t.waiter.pingsOwed
        = s.trace.countP OutEvent.isPingDone + s.waiter.pingsOwed
          + (if i = .portPing ∨ i = .cmdPing then 1 else 0)
    ∧ t.trace.countP OutEvent.isAwaitDone + t.waiter.awaitsOwed
        = s.trace.countP OutEvent.isAwaitDone + s.waiter.awaitsOwed
          + (match i with
              | .portAwait _ => 1
              | _ => 0)

/-! ### Commands -/

/-- R190, R191: ENCODE gives `name`, then a space and each parameter, then CR, when every byte is in
20..7E, and EncodeNonPrintable otherwise; it changes no state. Where the result stands is the model's
choice (log 12). -/
def Obligations.EncodeBuildsOneLine : Prop :=
  ∀ (name : Bytes) (params : List Bytes) (s : State),
    ((∀ x ∈ name ++ params.flatten, 0x20 ≤ x.toNat ∧ x.toNat ≤ 0x7E) → exec (.cmdLine name params) s = .next
      { s with results := s.results ++ [.encoded (.ok (params.foldl (fun acc p => acc ++ [0x20] ++ p) name ++ [0x0D]))] })
    ∧ (¬ (∀ x ∈ name ++ params.flatten, 0x20 ≤ x.toNat ∧ x.toNat ≤ 0x7E) → exec (.cmdLine name params) s = .next
      { s with results := s.results ++ [.encoded .errNonPrintable] })

/-- R193: SEND transmits the encoded line whatever wait is outstanding, and touches nothing else; on a
non-printable byte it transmits nothing and raises EncodeNonPrintable. -/
def Obligations.SendTransmitsOrRefusesTheCommand : Prop :=
  ∀ (name : Bytes) (params : List Bytes) (s : State),
    ((∀ x ∈ name ++ params.flatten, 0x20 ≤ x.toNat ∧ x.toNat ≤ 0x7E) → exec (.portSend name params) s = .next
      { s with trace := s.trace ++ [.tx (params.foldl (fun acc p => acc ++ [0x20] ++ p) name ++ [0x0D])] })
    ∧ (¬ (∀ x ∈ name ++ params.flatten, 0x20 ≤ x.toNat ∧ x.toNat ≤ 0x7E) → ∃ d, DiagAfter s.diag d 9 1 6 ∧
      exec (.portSend name params) s = .next { s with diag := d, events := s.events ++ [.encodeNonPrintable] })

/-- R195, R194, R197: PING transmits its line first; then a queued text is the reply, else a zero timeout
fails at once, else it waits 2·T_NOMINAL ticks; while a wait is outstanding it has no step. -/
def Obligations.PingSendsThenWaits : Prop :=
  ∀ s : State, if s.waiter ≠ .idle then exec .portPing s = .fault .notEnabled else
    (∀ x rest, s.q = x :: rest → exec .portPing s = .next
      (completePing x { s with q := rest, trace := s.trace ++ [.tx (s.cfg.pingCmd ++ [0x0D])] }))
    ∧ (s.q = [] → s.cfg.tNominal = 0 → ∃ d, DiagAfter s.diag d 7 1 4 ∧ exec .portPing s = .next
      { s with diag := d, events := s.events ++ [.noReply],
               trace := s.trace ++ [.tx (s.cfg.pingCmd ++ [0x0D]), .pingDone false] })
    ∧ (s.q = [] → s.cfg.tNominal ≠ 0 → exec .portPing s = .next
      { s with waiter := .ping (2 * s.cfg.tNominal), trace := s.trace ++ [.tx (s.cfg.pingCmd ++ [0x0D])] })

/-- R70, R194, R195, log 11 (model's choice): the row CMD_PING is, whatever PING_CMD is, the ping
transaction that transmits the row's own line `50 49 4E 47 0D` first, with the effect PORT_PING has after
its line; and it is PORT_PING when PING_CMD is `PING`. -/
def Obligations.PingLineIsThePingTransaction : Prop :=
  ∀ s : State,
    (s.cfg.pingCmd = [0x50, 0x49, 0x4E, 0x47] → exec .cmdPing s = exec .portPing s)
    ∧ if s.waiter ≠ .idle then exec .cmdPing s = .fault .notEnabled else
      (∀ x rest, s.q = x :: rest → exec .cmdPing s = .next
        (completePing x { s with q := rest, trace := s.trace ++ [.tx [0x50, 0x49, 0x4E, 0x47, 0x0D]] }))
      ∧ (s.q = [] → s.cfg.tNominal = 0 → ∃ d, DiagAfter s.diag d 7 1 4 ∧ exec .cmdPing s = .next
        { s with diag := d, events := s.events ++ [.noReply],
                 trace := s.trace ++ [.tx [0x50, 0x49, 0x4E, 0x47, 0x0D], .pingDone false] })
      ∧ (s.q = [] → s.cfg.tNominal ≠ 0 → exec .cmdPing s = .next
        { s with waiter := .ping (2 * s.cfg.tNominal), trace := s.trace ++ [.tx [0x50, 0x49, 0x4E, 0x47, 0x0D]] })

/-! ### Events, diagnostics, outputs -/

/-- R220, R221, R225: what raising each event records, its counter's index (R29) and its code, and that
nothing else changes. The diagnostic trace is the model's (log 14). -/
def Obligations.RaisingRecordsCodeAndCounter : Prop :=
  ∀ (e : DiagEvent) (s : State), ∃ d, s.raise e = { s with diag := d, events := s.events ++ [e] } ∧
    match e with
    | .malformedPacket _ => DiagAfter s.diag d 1 1 1
    | .invalidEncoding => DiagAfter s.diag d 2 1 2
    | .unknownType _ => DiagAfter s.diag d 3 1 3
    | .noReply => DiagAfter s.diag d 7 1 4
    | .transportOverload _ => DiagAfter s.diag d 8 1 5
    | .encodeNonPrintable => DiagAfter s.diag d 9 1 6
    | .replyDropped => DiagAfter s.diag d 6 1 7
    | .noiseDiscarded n => DiagAfter s.diag d 0 n 8
    | .forcedResync _ => DiagAfter s.diag d 10 1 9
    | .pingMismatch => DiagAfter s.diag d 11 1 10

/-- R29: DIAG_READ(i) returns diag[i], 0 for i > 12, and has no side effect. Where the returned word
stands is the model's choice (log 13). -/
def Obligations.DiagReadReturnsRegister : Prop :=
  ∀ (s : State),
    (∀ k : Fin 13, exec (.portDiagRead k.val) s = .next { s with results := s.results ++ [.diagWord s.diag[k]] })
    ∧ ∀ i, 12 < i → exec (.portDiagRead i) s = .next { s with results := s.results ++ [.diagWord 0] }

/-- R29: the diagnostic file never influences any other rule. -/
def Obligations.DiagnosticsInfluenceNothing : Prop :=
  ∀ s t : State, s.eraseDiag = t.eraseDiag → SameButDiag (step s) (step t)

/-- R21, R14: outputs, diagnostic events and returned values are only ever appended. -/
def Obligations.OutputsAreOnlyAppended : Prop :=
  ∀ s t : State, step s = .next t →
    (∃ post, t.trace = s.trace ++ post) ∧ (∃ post, t.events = s.events ++ post) ∧ ∃ post, t.results = s.results ++ post

/-- R23, R40, R41: the buffer changes only by appending a chunk, by trimming a prefix in a DSTEP, or by
being emptied by RESET or an overload. -/
def Obligations.BufferChangesOnlyAtItsEnds : Prop :=
  ∀ (i : Instr) (s t : State), exec i s = .next t →
    t.buf = s.buf
      ∨ (∃ c, i = .portIngest c ∧ (t.buf = s.buf ++ c ∨ (t.buf = [] ∧ s.cfg.maxChunk < c.length)))
      ∨ (i = .portReset ∧ t.buf = [])
      ∨ (s.busy = true ∧ ∃ pre, s.buf = pre ++ t.buf ∧ (i = .portDstep ∨ ∃ rest, decodePacket s.buf = .ok (i, rest)))

/-- R24, R25: `busy` is set only by an accepted INGEST and cleared only by a DSTEP or RESET; `disc` is set
only by an INGEST longer than MAX_CHUNK and cleared only by RESET. -/
def Obligations.FlagsChangeOnlyByTheirRules : Prop :=
  ∀ (i : Instr) (s t : State), exec i s = .next t →
    (s.busy = false → t.busy = true → ∃ c, i = .portIngest c ∧ c.length ≤ s.cfg.maxChunk)
    ∧ (s.busy = true → t.busy = false → i = .portDstep ∨ i = .portReset)
    ∧ (s.disc = false → t.disc = true → ∃ c, i = .portIngest c ∧ s.cfg.maxChunk < c.length)
    ∧ (s.disc = true → t.disc = false → i = .portReset)

/-- R266: once disconnected, and until RESET, the transport's bytes cannot enter: nothing is decoded and no
text reaches the correlator, while every other port goes on. -/
def Obligations.DisconnectedBlockReceivesNothing : Prop :=
  ∀ (i : Instr) (s t : State), s.Inv → s.disc = true → exec i s = .next t → i ≠ .portReset →
    t.disc = true ∧ t.busy = false ∧ t.buf = [] ∧ (t.q = s.q ∨ ∃ x, s.q = x :: t.q)
      ∧ t.diagReg .dataOk = s.diagReg .dataOk ∧ t.diagReg .stringOk = s.diagReg .stringOk
      ∧ ∀ dp, t.trace.count (.dataOut dp) = s.trace.count (.dataOut dp)
end

