-- ==== Sys2Proof/Laws/Bytes.lean ====
section
/-! SUPPORT. Byte strings: big-endian numbers, the fields of a header, and the marker search. -/

namespace Sys2Proof

theorem beEnc_length (n x : Nat) : (beEnc n x).length = n := by
  induction n with
  | zero => rfl
  | succ n ih => simp [beEnc, ih]

theorem slice_length_le (b : Bytes) (i j : Nat) (h : j ≤ b.length) : (slice b i j).length = j - i := by
  simp [slice, Nat.min_eq_left h]

theorem be_foldl (acc : Nat) (b : Bytes) :
    b.foldl (fun a x => a * 256 + x.toNat) acc = acc * 256 ^ b.length + be b := by
  induction b generalizing acc with
  | nil => simp [be]
  | cons x b ih =>
    rw [List.foldl_cons, ih, show be (x :: b) = _ from by rw [be, List.foldl_cons, ih]]
    simp only [List.length_cons, pow_succ]; ring

theorem be_cons (x : Byte) (b : Bytes) : be (x :: b) = x.toNat * 256 ^ b.length + be b := by
  rw [be, List.foldl_cons, be_foldl]; simp

theorem be_append (a b : Bytes) : be (a ++ b) = be a * 256 ^ b.length + be b := by
  rw [be, List.foldl_append, ← be, be_foldl]

/-- A big-endian number is below 256 to the number of its bytes. -/
theorem be_lt (b : Bytes) : be b < 256 ^ b.length := by
  induction b with
  | nil => simp [be]
  | cons x b ih =>
    rw [be_cons, List.length_cons, pow_succ]
    have hx : x.toNat + 1 ≤ 256 := x.isLt
    calc x.toNat * 256 ^ b.length + be b < x.toNat * 256 ^ b.length + 256 ^ b.length := by omega
      _ = (x.toNat + 1) * 256 ^ b.length := by ring
      _ ≤ 256 * 256 ^ b.length := Nat.mul_le_mul_right _ hx
      _ = 256 ^ b.length * 256 := by ring

/-- Big-endian encoding reads back. -/
theorem be_beEnc (n x : Nat) : be (beEnc n x) = x % 256 ^ n := by
  induction n with
  | zero => simp [beEnc, be, Nat.mod_one]
  | succ n ih =>
    rw [beEnc, be_cons, beEnc_length, ih, BitVec.toNat_ofNat, show (2 : Nat) ^ 8 = 256 from rfl, pow_succ, Nat.mod_mul]
    generalize x / 256 ^ n % 256 = y
    ring

theorem beEnc_mod (n m x : Nat) (h : n ≤ m) : beEnc n (x % 256 ^ m) = beEnc n x := by
  induction n with
  | zero => rfl
  | succ n ih =>
    rw [beEnc, beEnc, ih (by omega)]
    congr 1
    apply BitVec.eq_of_toNat_eq
    simp only [BitVec.toNat_ofNat]
    obtain ⟨k, rfl⟩ : ∃ k, m = n + (k + 1) := ⟨m - n - 1, by omega⟩
    rw [pow_add, Nat.mod_mul_right_div_self, pow_succ, show (2 : Nat) ^ 8 = 256 from rfl, Nat.mul_comm (256 ^ k),
      Nat.mod_mul_right_mod]

/-- Big-endian reading encodes back. -/
theorem beEnc_be (b : Bytes) : beEnc b.length (be b) = b := by
  induction b with
  | nil => rfl
  | cons x b ih =>
    have hlt := be_lt b
    rw [List.length_cons, beEnc, be_cons]
    congr 1
    · apply BitVec.eq_of_toNat_eq
      rw [BitVec.toNat_ofNat, Nat.mul_comm, Nat.mul_add_div (by positivity), Nat.div_eq_of_lt hlt, Nat.add_zero,
        Nat.mod_eq_of_lt x.isLt]
    · have h : (x.toNat * 256 ^ b.length + be b) % 256 ^ b.length = be b := by
        rw [Nat.mul_comm, Nat.mul_add_mod, Nat.mod_eq_of_lt hlt]
      conv_rhs => rw [← ih]
      rw [← beEnc_mod b.length b.length _ le_rfl, h]

/-! ### Headers -/

/-- A string with a whole header is its marker field, type, two length bytes, and the bytes after it. -/
theorem header_split (b : Bytes) (h : 7 ≤ b.length) :
    ∃ m0 m1 m2 m3 t l1 l0 r, b = [m0, m1, m2, m3, t, l1, l0] ++ r := by
  match b, h with
  | m0 :: m1 :: m2 :: m3 :: t :: l1 :: l0 :: r, _ => exact ⟨m0, m1, m2, m3, t, l1, l0, r, rfl⟩

theorem hdrMarker_append (x : Bytes) : hdrMarker (marker ++ x) = marker := rfl

theorem hdrType_cons (m0 m1 m2 m3 t : Byte) (x : Bytes) : hdrType (m0 :: m1 :: m2 :: m3 :: t :: x) = t := rfl

theorem hdrLength_cons (m0 m1 m2 m3 t l1 l0 : Byte) (x : Bytes) :
    hdrLength (m0 :: m1 :: m2 :: m3 :: t :: l1 :: l0 :: x) = l1.toNat * 256 + l0.toNat := by
  simp [hdrLength, slice, be]

/-- The marker field is the marker exactly when the string begins with it. -/
theorem hdrMarker_eq_iff (b : Bytes) : hdrMarker b = marker ↔ ∃ x, b = marker ++ x := by
  constructor
  · intro h
    refine ⟨b.drop 4, ?_⟩
    have : b.take 4 = marker := by simpa [hdrMarker, slice] using h
    rw [← this, List.take_append_drop]
  · rintro ⟨x, rfl⟩; rfl

/-- A header read through its first seven bytes is the header. -/
theorem hdr_slice (b : Bytes) (h : 7 ≤ b.length) :
    hdrType (slice b 0 7) = hdrType b ∧ hdrLength (slice b 0 7) = hdrLength b := by
  obtain ⟨m0, m1, m2, m3, t, l1, l0, r, rfl⟩ := header_split b h
  simp [slice, hdrType, hdrLength]

namespace Machine

/-! ### Marker search (R101) -/

/-- findMarker finds the marker at its offset. -/
theorem findMarker_some_at {b : Bytes} {i : Nat} (h : findMarker b = some i) :
    i ≤ b.length ∧ hdrMarker (b.drop i) = marker := by
  induction b generalizing i with
  | nil => simp [findMarker] at h
  | cons x r ih =>
    rw [findMarker] at h
    split at h
    · obtain rfl : 0 = i := by simpa using h
      exact ⟨by simp, by simpa⟩
    · obtain ⟨j, hj, rfl⟩ : ∃ j, findMarker r = some j ∧ j + 1 = i := by simpa using h
      have := ih hj
      exact ⟨by simp; omega, by simpa using this.2⟩

/-- There is no marker before that offset. -/
theorem findMarker_some_least {b : Bytes} {i : Nat} (h : findMarker b = some i) :
    ∀ j < i, hdrMarker (b.drop j) ≠ marker := by
  induction b generalizing i with
  | nil => simp [findMarker] at h
  | cons x r ih =>
    rw [findMarker] at h
    split at h
    · obtain rfl : 0 = i := by simpa using h
      intro j hj; omega
    · rename_i hx
      obtain ⟨k, hk, rfl⟩ : ∃ k, findMarker r = some k ∧ k + 1 = i := by simpa using h
      intro j hj
      cases j with
      | zero => simpa using hx
      | succ j => simpa using ih hk j (by omega)

/-- findMarker finds nothing only where there is no marker. -/
theorem findMarker_none {b : Bytes} (h : findMarker b = none) : ∀ j, hdrMarker (b.drop j) ≠ marker := by
  induction b with
  | nil => intro j; simp [hdrMarker, slice, marker]
  | cons x r ih =>
    rw [findMarker] at h
    split at h
    · simp at h
    · rename_i hx
      have hr : findMarker r = none := by simpa using h
      intro j
      cases j with
      | zero => simpa using hx
      | succ j => simpa using ih hr j

/-- A string that begins with the marker has it at offset 0. -/
theorem findMarker_of_head {b : Bytes} (h : hdrMarker b = marker) : findMarker b = some 0 := by
  cases b with
  | nil => simp [hdrMarker, slice, marker] at h
  | cons x r => simp [findMarker, h]

/-- tailKeep is at most 3 and at most the length. -/
theorem tailKeep_le (b : Bytes) : tailKeep b ≤ 3 ∧ tailKeep b ≤ b.length := by
  unfold tailKeep
  split_ifs with h3 h2 h1 <;> simp [tailIsMarkerPrefix] at * <;> omega

/-- The bytes tailKeep keeps are a prefix of the marker. -/
theorem tailKeep_isPrefix (b : Bytes) : b.drop (b.length - tailKeep b) = marker.take (tailKeep b) := by
  unfold tailKeep
  split_ifs with h3 h2 h1
  · exact (by simpa [tailIsMarkerPrefix] using h3 : _ ∧ _).2
  · exact (by simpa [tailIsMarkerPrefix] using h2 : _ ∧ _).2
  · exact (by simpa [tailIsMarkerPrefix] using h1 : _ ∧ _).2
  · simp

/-- No longer marker prefix ends the string. -/
theorem tailKeep_greatest (b : Bytes) (j : Nat) (hj : j ≤ 3) (h : tailIsMarkerPrefix b j = true) : j ≤ tailKeep b := by
  unfold tailKeep
  split_ifs with h3 h2 h1
  · exact hj
  · rcases Nat.lt_or_ge j 3 with h' | h'
    · omega
    · exact absurd (by rwa [show j = 3 by omega] at h) h3
  · by_contra hc
    obtain rfl | rfl : j = 2 ∨ j = 3 := by omega
    · exact h2 h
    · exact h3 h
  · by_contra hc
    obtain rfl | rfl | rfl : j = 1 ∨ j = 2 ∨ j = 3 := by omega
    · exact h1 h
    · exact h2 h
    · exact h3 h

end Machine

end Sys2Proof
end

