-- ==== Sys2Proof/Laws/Config.lean ====
section
/-! SUPPORT. The legality of a configuration, check by check (70_reset_and_hazards.md R252). -/

namespace Sys2Proof.Machine

theorem legalWidth_iff (w : Nat) : legalWidth w = true ↔ w ∈ [1, 2, 4] := by
  simp [legalWidth, or_assoc]

theorem legalWidths_iff (c : Config) : legalWidths c = true ↔ ∀ id : Byte, widthOf c id ∈ [1, 2, 4] := by
  simp only [← legalWidth_iff]
  constructor
  · intro h id
    simp only [legalWidths, Bool.and_eq_true, List.all_eq_true, Bool.or_eq_true, List.mem_range] at h
    obtain ⟨hl, hd⟩ := h
    cases hk : c.widthExceptions.lookup id with
    | some w =>
      obtain ⟨l1, l2, he, -⟩ := List.lookup_eq_some_iff.mp hk
      exact hl (id, w) (by simp [he])
    | none =>
      rcases hd with hd | hd
      · simpa [widthOf, hk] using hd
      · have := hd id.toNat (by omega)
        simp [hk] at this
  · intro h
    simp only [legalWidths, Bool.and_eq_true, List.all_eq_true, Bool.or_eq_true, List.mem_range]
    refine ⟨fun x _ => h x.1, ?_⟩
    by_cases hd : ∃ id, c.widthExceptions.lookup id = none
    · obtain ⟨id, hid⟩ := hd
      left; simpa [widthOf, hid] using h id
    · right; intro n _
      rw [Option.isSome_iff_ne_none]; exact fun hn => hd ⟨_, hn⟩

theorem positive_iff (n : Nat) : positive n = true ↔ 1 ≤ n := by
  cases n <;> simp [positive]

theorem legalBufCap_iff (c : Config) : legalBufCap c = true ↔ 65534 + c.maxChunk ≤ bufCapacity c := by
  cases h : c.bufCap <;> simp [legalBufCap, bufCapacity, h]

theorem legalWatermark_iff (m : Option Nat) : legalWatermark m = true ↔ ∀ w, m = some w → 7 ≤ w := by
  cases m <;> simp [legalWatermark]

end Sys2Proof.Machine
end

