-- ==== Sys2Proof/Laws/State.lean ====
section
/-! SUPPORT. What each record update of State leaves in each field: one lemma a field, true by rfl, so that
no later proof unfolds an update. -/

namespace Sys2Proof.Machine

variable (s : State)

/-! ### append -/

@[simp] theorem State.append_cfg (c : Bytes) : (s.append c).cfg = s.cfg := rfl
@[simp] theorem State.append_buf (c : Bytes) : (s.append c).buf = s.buf ++ c := rfl
@[simp] theorem State.append_busy (c : Bytes) : (s.append c).busy = s.busy := rfl
@[simp] theorem State.append_disc (c : Bytes) : (s.append c).disc = s.disc := rfl
@[simp] theorem State.append_q (c : Bytes) : (s.append c).q = s.q := rfl
@[simp] theorem State.append_waiter (c : Bytes) : (s.append c).waiter = s.waiter := rfl
@[simp] theorem State.append_diag (c : Bytes) : (s.append c).diag = s.diag := rfl
@[simp] theorem State.append_trace (c : Bytes) : (s.append c).trace = s.trace := rfl
@[simp] theorem State.append_events (c : Bytes) : (s.append c).events = s.events := rfl
@[simp] theorem State.append_results (c : Bytes) : (s.append c).results = s.results := rfl
@[simp] theorem State.append_offers (c : Bytes) : (s.append c).offers = s.offers := rfl

/-! ### trim -/

@[simp] theorem State.trim_cfg (n : Nat) : (s.trim n).cfg = s.cfg := rfl
@[simp] theorem State.trim_buf (n : Nat) : (s.trim n).buf = s.buf.drop n := rfl
@[simp] theorem State.trim_busy (n : Nat) : (s.trim n).busy = s.busy := rfl
@[simp] theorem State.trim_disc (n : Nat) : (s.trim n).disc = s.disc := rfl
@[simp] theorem State.trim_q (n : Nat) : (s.trim n).q = s.q := rfl
@[simp] theorem State.trim_waiter (n : Nat) : (s.trim n).waiter = s.waiter := rfl
@[simp] theorem State.trim_diag (n : Nat) : (s.trim n).diag = s.diag := rfl
@[simp] theorem State.trim_trace (n : Nat) : (s.trim n).trace = s.trace := rfl
@[simp] theorem State.trim_events (n : Nat) : (s.trim n).events = s.events := rfl
@[simp] theorem State.trim_results (n : Nat) : (s.trim n).results = s.results := rfl
@[simp] theorem State.trim_offers (n : Nat) : (s.trim n).offers = s.offers := rfl

/-! ### suspend -/

@[simp] theorem State.suspend_cfg : s.suspend.cfg = s.cfg := rfl
@[simp] theorem State.suspend_buf : s.suspend.buf = s.buf := rfl
@[simp] theorem State.suspend_busy : s.suspend.busy = false := rfl
@[simp] theorem State.suspend_disc : s.suspend.disc = s.disc := rfl
@[simp] theorem State.suspend_q : s.suspend.q = s.q := rfl
@[simp] theorem State.suspend_waiter : s.suspend.waiter = s.waiter := rfl
@[simp] theorem State.suspend_diag : s.suspend.diag = s.diag := rfl
@[simp] theorem State.suspend_trace : s.suspend.trace = s.trace := rfl
@[simp] theorem State.suspend_events : s.suspend.events = s.events := rfl
@[simp] theorem State.suspend_results : s.suspend.results = s.results := rfl
@[simp] theorem State.suspend_offers : s.suspend.offers = s.offers := rfl

/-! ### emit -/

@[simp] theorem State.emit_cfg (e : OutEvent) : (s.emit e).cfg = s.cfg := rfl
@[simp] theorem State.emit_buf (e : OutEvent) : (s.emit e).buf = s.buf := rfl
@[simp] theorem State.emit_busy (e : OutEvent) : (s.emit e).busy = s.busy := rfl
@[simp] theorem State.emit_disc (e : OutEvent) : (s.emit e).disc = s.disc := rfl
@[simp] theorem State.emit_q (e : OutEvent) : (s.emit e).q = s.q := rfl
@[simp] theorem State.emit_waiter (e : OutEvent) : (s.emit e).waiter = s.waiter := rfl
@[simp] theorem State.emit_diag (e : OutEvent) : (s.emit e).diag = s.diag := rfl
@[simp] theorem State.emit_trace (e : OutEvent) : (s.emit e).trace = s.trace ++ [e] := rfl
@[simp] theorem State.emit_events (e : OutEvent) : (s.emit e).events = s.events := rfl
@[simp] theorem State.emit_results (e : OutEvent) : (s.emit e).results = s.results := rfl
@[simp] theorem State.emit_offers (e : OutEvent) : (s.emit e).offers = s.offers := rfl

/-! ### answer -/

@[simp] theorem State.answer_cfg (r : PortResult) : (s.answer r).cfg = s.cfg := rfl
@[simp] theorem State.answer_buf (r : PortResult) : (s.answer r).buf = s.buf := rfl
@[simp] theorem State.answer_busy (r : PortResult) : (s.answer r).busy = s.busy := rfl
@[simp] theorem State.answer_disc (r : PortResult) : (s.answer r).disc = s.disc := rfl
@[simp] theorem State.answer_q (r : PortResult) : (s.answer r).q = s.q := rfl
@[simp] theorem State.answer_waiter (r : PortResult) : (s.answer r).waiter = s.waiter := rfl
@[simp] theorem State.answer_diag (r : PortResult) : (s.answer r).diag = s.diag := rfl
@[simp] theorem State.answer_trace (r : PortResult) : (s.answer r).trace = s.trace := rfl
@[simp] theorem State.answer_events (r : PortResult) : (s.answer r).events = s.events := rfl
@[simp] theorem State.answer_results (r : PortResult) : (s.answer r).results = s.results ++ [r] := rfl
@[simp] theorem State.answer_offers (r : PortResult) : (s.answer r).offers = s.offers := rfl

/-! ### setDiag -/

@[simp] theorem State.setDiag_cfg (r : DiagReg) (v : U32) : (s.setDiag r v).cfg = s.cfg := rfl
@[simp] theorem State.setDiag_buf (r : DiagReg) (v : U32) : (s.setDiag r v).buf = s.buf := rfl
@[simp] theorem State.setDiag_busy (r : DiagReg) (v : U32) : (s.setDiag r v).busy = s.busy := rfl
@[simp] theorem State.setDiag_disc (r : DiagReg) (v : U32) : (s.setDiag r v).disc = s.disc := rfl
@[simp] theorem State.setDiag_q (r : DiagReg) (v : U32) : (s.setDiag r v).q = s.q := rfl
@[simp] theorem State.setDiag_waiter (r : DiagReg) (v : U32) : (s.setDiag r v).waiter = s.waiter := rfl
@[simp] theorem State.setDiag_diag (r : DiagReg) (v : U32) : (s.setDiag r v).diag = s.diag.set r.index v := rfl
@[simp] theorem State.setDiag_trace (r : DiagReg) (v : U32) : (s.setDiag r v).trace = s.trace := rfl
@[simp] theorem State.setDiag_events (r : DiagReg) (v : U32) : (s.setDiag r v).events = s.events := rfl
@[simp] theorem State.setDiag_results (r : DiagReg) (v : U32) : (s.setDiag r v).results = s.results := rfl
@[simp] theorem State.setDiag_offers (r : DiagReg) (v : U32) : (s.setDiag r v).offers = s.offers := rfl

/-! ### count -/

@[simp] theorem State.count_cfg (r : DiagReg) (n : Nat) : (s.count r n).cfg = s.cfg := rfl
@[simp] theorem State.count_buf (r : DiagReg) (n : Nat) : (s.count r n).buf = s.buf := rfl
@[simp] theorem State.count_busy (r : DiagReg) (n : Nat) : (s.count r n).busy = s.busy := rfl
@[simp] theorem State.count_disc (r : DiagReg) (n : Nat) : (s.count r n).disc = s.disc := rfl
@[simp] theorem State.count_q (r : DiagReg) (n : Nat) : (s.count r n).q = s.q := rfl
@[simp] theorem State.count_waiter (r : DiagReg) (n : Nat) : (s.count r n).waiter = s.waiter := rfl
@[simp] theorem State.count_diag (r : DiagReg) (n : Nat) : (s.count r n).diag = s.diag.set r.index (s.diagReg r + BitVec.ofNat 32 n) := rfl
@[simp] theorem State.count_trace (r : DiagReg) (n : Nat) : (s.count r n).trace = s.trace := rfl
@[simp] theorem State.count_events (r : DiagReg) (n : Nat) : (s.count r n).events = s.events := rfl
@[simp] theorem State.count_results (r : DiagReg) (n : Nat) : (s.count r n).results = s.results := rfl
@[simp] theorem State.count_offers (r : DiagReg) (n : Nat) : (s.count r n).offers = s.offers := rfl

/-! ### raise -/

@[simp] theorem State.raise_cfg (e : DiagEvent) : (s.raise e).cfg = s.cfg := rfl
@[simp] theorem State.raise_buf (e : DiagEvent) : (s.raise e).buf = s.buf := rfl
@[simp] theorem State.raise_busy (e : DiagEvent) : (s.raise e).busy = s.busy := rfl
@[simp] theorem State.raise_disc (e : DiagEvent) : (s.raise e).disc = s.disc := rfl
@[simp] theorem State.raise_q (e : DiagEvent) : (s.raise e).q = s.q := rfl
@[simp] theorem State.raise_waiter (e : DiagEvent) : (s.raise e).waiter = s.waiter := rfl
@[simp] theorem State.raise_trace (e : DiagEvent) : (s.raise e).trace = s.trace := rfl
@[simp] theorem State.raise_events (e : DiagEvent) : (s.raise e).events = s.events ++ [e] := rfl
@[simp] theorem State.raise_results (e : DiagEvent) : (s.raise e).results = s.results := rfl
@[simp] theorem State.raise_offers (e : DiagEvent) : (s.raise e).offers = s.offers := rfl

/-! ### offerFirst -/

@[simp] theorem State.offerFirst_cfg (i : Instr) : (s.offerFirst i).cfg = s.cfg := rfl
@[simp] theorem State.offerFirst_buf (i : Instr) : (s.offerFirst i).buf = s.buf := rfl
@[simp] theorem State.offerFirst_busy (i : Instr) : (s.offerFirst i).busy = s.busy := rfl
@[simp] theorem State.offerFirst_disc (i : Instr) : (s.offerFirst i).disc = s.disc := rfl
@[simp] theorem State.offerFirst_q (i : Instr) : (s.offerFirst i).q = s.q := rfl
@[simp] theorem State.offerFirst_waiter (i : Instr) : (s.offerFirst i).waiter = s.waiter := rfl
@[simp] theorem State.offerFirst_diag (i : Instr) : (s.offerFirst i).diag = s.diag := rfl
@[simp] theorem State.offerFirst_trace (i : Instr) : (s.offerFirst i).trace = s.trace := rfl
@[simp] theorem State.offerFirst_events (i : Instr) : (s.offerFirst i).events = s.events := rfl
@[simp] theorem State.offerFirst_results (i : Instr) : (s.offerFirst i).results = s.results := rfl
@[simp] theorem State.offerFirst_offers (i : Instr) : (s.offerFirst i).offers = i :: s.offers := rfl

/-! ### RESET (R250) -/

@[simp] theorem resetBlock_cfg : (resetBlock s).cfg = s.cfg := rfl
@[simp] theorem resetBlock_buf : (resetBlock s).buf = [] := rfl
@[simp] theorem resetBlock_busy : (resetBlock s).busy = false := rfl
@[simp] theorem resetBlock_disc : (resetBlock s).disc = false := rfl
@[simp] theorem resetBlock_q : (resetBlock s).q = [] := rfl
@[simp] theorem resetBlock_waiter : (resetBlock s).waiter = .idle := rfl
@[simp] theorem resetBlock_diag : (resetBlock s).diag = Vector.replicate 13 0 := rfl
@[simp] theorem resetBlock_trace : (resetBlock s).trace = s.trace := rfl
@[simp] theorem resetBlock_events : (resetBlock s).events = s.events := rfl
@[simp] theorem resetBlock_results : (resetBlock s).results = s.results := rfl
@[simp] theorem resetBlock_offers : (resetBlock s).offers = s.offers := rfl

end Sys2Proof.Machine
end

