-- ==== Sys2Proof/Laws/Ops.lean ====
section
/-! SUPPORT. What the shared operations do to the diagnostic file and what a buffer read gives. -/

namespace Sys2Proof.Machine

variable (s : State)

theorem DiagReg.index_inj {r r' : DiagReg} : r.index = r'.index ↔ r = r' := by
  cases r <;> cases r' <;> decide

/-- Reading a register after writing one. -/
theorem State.setDiag_diagReg (r r' : DiagReg) (v : U32) :
    (s.setDiag r v).diagReg r' = if r = r' then v else s.diagReg r' := by
  by_cases h : r = r'
  · subst h; simp [State.diagReg]
  · have h' : (r.index : Nat) ≠ r'.index := fun e => h (DiagReg.index_inj.mp (Fin.ext e))
    simp [State.diagReg, h, Vector.getElem_set_ne, h']

/-- Reading a register after an explicit count. -/
theorem State.count_diagReg (r r' : DiagReg) (n : Nat) :
    (s.count r n).diagReg r' = if r = r' then s.diagReg r + BitVec.ofNat 32 n else s.diagReg r' :=
  s.setDiag_diagReg r r' _

/-- No event counts in LAST_EVENT. -/
theorem DiagEvent.counter_ne_lastEvent (e : DiagEvent) : e.counter ≠ .lastEvent := by
  cases e <;> simp [DiagEvent.counter]

/-- Reading a register after an event was raised (R221). -/
theorem State.raise_diagReg (e : DiagEvent) (r : DiagReg) :
    (s.raise e).diagReg r =
      if r = .lastEvent then BitVec.ofNat 32 e.code
      else if r = e.counter then s.diagReg r + BitVec.ofNat 32 e.amount
      else s.diagReg r := by
  have h : (s.raise e).diagReg r
      = ((s.count e.counter e.amount).setDiag .lastEvent (BitVec.ofNat 32 e.code)).diagReg r := rfl
  rw [h, State.setDiag_diagReg, State.count_diagReg]
  by_cases h1 : r = .lastEvent
  · simp [h1]
  · have h1' : ¬ DiagReg.lastEvent = r := fun e => h1 e.symm
    by_cases h2 : r = e.counter
    · subst h2; simp [h1, h1']
    · have h2' : ¬ e.counter = r := fun e => h2 e.symm
      simp [h1, h1', h2, h2']

/-- A read inside the buffer gives the bytes there. -/
theorem State.memRead_of_le (off n : Nat) (h : off + n ≤ s.buf.length) :
    s.memRead off n = some (slice s.buf off (off + n)) := by
  simp [State.memRead, h]

/-- A read past the buffer gives nothing (R42). -/
theorem State.memRead_of_lt (off n : Nat) (h : s.buf.length < off + n) : s.memRead off n = none := by
  simp [State.memRead, Nat.not_le.mpr h]

/-- What a meaning guarded by an enabling condition can answer. -/
theorem whenEnabled_next {ok : Bool} {r : Result} {t : State} :
    whenEnabled ok r = .next t ↔ ok = true ∧ r = .next t := by
  cases ok <;> simp [whenEnabled]

end Sys2Proof.Machine
end

