-- ==== Sys2Proof/Laws/Correlator.lean ====
section
/-! SUPPORT. Everything the correlator's operations can do, one case analysis each. -/

namespace Sys2Proof.Machine

/-- completePing ends the wait; the reply matched, or a mismatch was raised. -/
theorem completePing_cases (text : Bytes) (s : State) :
    (text = s.cfg.pongToken ∧ completePing text s = ({ s with waiter := .idle } : State).emit (.pingDone true))
      ∨ (text ≠ s.cfg.pongToken ∧ completePing text s
          = (({ s with waiter := .idle } : State).raise .pingMismatch).emit (.pingDone false)) := by
  by_cases h : text = s.cfg.pongToken
  · exact .inl ⟨h, by simp [completePing, h]⟩
  · exact .inr ⟨h, by simp [completePing, h]⟩

/-- overflow raises ReplyDropped and loses the oldest text or the new one. -/
theorem overflow_cases (text : Bytes) (s : State) :
    (s.cfg.overflow = .dropOldest ∧ overflow text s = { s.raise .replyDropped with q := s.q.tail ++ [text] })
      ∨ (s.cfg.overflow = .dropNewest ∧ overflow text s = s.raise .replyDropped) := by
  cases h : s.cfg.overflow
  · exact .inl ⟨rfl, by simp [overflow, h]⟩
  · exact .inr ⟨rfl, by simp [overflow, h]⟩

/-- enqueueReply hands the text to the waiter, queues it, or overflows. -/
theorem enqueueReply_cases (text : Bytes) (s : State) :
    (∃ r, s.waiter = .await r
        ∧ enqueueReply text s = ({ s with waiter := .idle } : State).emit (.awaitDone (some text)))
      ∨ (∃ r, s.waiter = .ping r ∧ enqueueReply text s = completePing text s)
      ∨ (s.waiter = .idle ∧ s.q.length < s.cfg.qcap ∧ enqueueReply text s = { s with q := s.q ++ [text] })
      ∨ (s.waiter = .idle ∧ s.cfg.qcap ≤ s.q.length ∧ enqueueReply text s = overflow text s) := by
  cases h : s.waiter with
  | await r => exact .inl ⟨r, rfl, by simp [enqueueReply, h]⟩
  | ping r => exact .inr (.inl ⟨r, rfl, by simp [enqueueReply, h]⟩)
  | idle =>
    by_cases hq : s.q.length < s.cfg.qcap
    · exact .inr (.inr (.inl ⟨rfl, hq, by simp [enqueueReply, h, hq]⟩))
    · exact .inr (.inr (.inr ⟨rfl, Nat.le_of_not_lt hq, by simp [enqueueReply, h, hq]⟩))

/-- awaitReply takes the head, fails a poll, or begins a wait. -/
theorem awaitReply_cases (n : Nat) (s : State) :
    (∃ x rest, s.q = x :: rest ∧ awaitReply n s = ({ s with q := rest } : State).emit (.awaitDone (some x)))
      ∨ (s.q = [] ∧ n = 0 ∧ awaitReply n s = (s.raise .noReply).emit (.awaitDone none))
      ∨ (s.q = [] ∧ n ≠ 0 ∧ awaitReply n s = { s with waiter := .await n }) := by
  cases h : s.q with
  | cons x rest => exact .inl ⟨x, rest, rfl, by simp [awaitReply, h]⟩
  | nil =>
    by_cases hn : n = 0
    · exact .inr (.inl ⟨rfl, hn, by simp [awaitReply, h, hn]⟩)
    · exact .inr (.inr ⟨rfl, hn, by simp [awaitReply, h, hn]⟩)

/-- tick leaves the state, ends the wait, or counts it down. -/
theorem tick_cases (s : State) :
    (s.waiter = .idle ∧ tick s = s)
      ∨ (s.waiter = .await 1 ∧ tick s = timeoutAwait s)
      ∨ (s.waiter = .ping 1 ∧ tick s = timeoutPing s)
      ∨ (∃ r, s.waiter = .await r ∧ r ≠ 1 ∧ tick s = { s with waiter := .await (r - 1) })
      ∨ (∃ r, s.waiter = .ping r ∧ r ≠ 1 ∧ tick s = { s with waiter := .ping (r - 1) }) := by
  cases h : s.waiter with
  | idle => exact .inl ⟨rfl, by simp [tick, h]⟩
  | await r =>
    by_cases hr : r = 1
    · exact .inr (.inl ⟨by rw [hr], by simp [tick, h, hr]⟩)
    · exact .inr (.inr (.inr (.inl ⟨r, rfl, hr, by simp [tick, h, hr]⟩)))
  | ping r =>
    by_cases hr : r = 1
    · exact .inr (.inr (.inl ⟨by rw [hr], by simp [tick, h, hr]⟩))
    · exact .inr (.inr (.inr (.inr ⟨r, rfl, hr, by simp [tick, h, hr]⟩)))

/-- A ping transmits its line, then takes the head as its reply, fails a poll, or begins its wait. -/
theorem pingWith_cases (line : Bytes) (s : State) :
    (∃ x rest, s.q = x :: rest ∧ pingWith line s = completePing x { s.emit (.tx line) with q := rest })
      ∨ (s.q = [] ∧ s.cfg.tNominal = 0 ∧ pingWith line s = timeoutPing (s.emit (.tx line)))
      ∨ (s.q = [] ∧ s.cfg.tNominal ≠ 0
          ∧ pingWith line s = { s.emit (.tx line) with waiter := .ping (2 * s.cfg.tNominal) }) := by
  cases h : s.q with
  | cons x rest => exact .inl ⟨x, rest, rfl, by simp [pingWith, h]⟩
  | nil =>
    by_cases hn : s.cfg.tNominal = 0
    · exact .inr (.inl ⟨rfl, hn, by simp [pingWith, h, hn]⟩)
    · exact .inr (.inr ⟨rfl, hn, by simp [pingWith, h, hn]⟩)

/-- SEND transmits a line or raises EncodeNonPrintable. -/
theorem sendCommand_cases (name : Bytes) (params : List Bytes) (s : State) :
    (∃ b, encodeCommand name params = .ok b ∧ sendCommand name params s = s.emit (.tx b))
      ∨ (encodeCommand name params = .errNonPrintable ∧ sendCommand name params s = s.raise .encodeNonPrintable) := by
  cases h : encodeCommand name params with
  | ok b => exact .inl ⟨b, rfl, by simp [sendCommand, h]⟩
  | errNonPrintable => exact .inr ⟨rfl, by simp [sendCommand, h]⟩

end Sys2Proof.Machine
end

