-- ==== Sys2Proof/Laws/Diag.lean ====
section
/-! SUPPORT. Raising and counting, in the terms of Safety.lean: which registers change and how. -/

namespace Sys2Proof.Machine

/-- Every index of the file is a register's. -/
theorem DiagReg.index_surjective (j : Fin 13) : ∃ r : DiagReg, r.index = j := by
  fin_cases j
  · exact ⟨.noiseBytes, rfl⟩
  · exact ⟨.malformed, rfl⟩
  · exact ⟨.invalidEnc, rfl⟩
  · exact ⟨.unknownType, rfl⟩
  · exact ⟨.dataOk, rfl⟩
  · exact ⟨.stringOk, rfl⟩
  · exact ⟨.replyDropped, rfl⟩
  · exact ⟨.noReply, rfl⟩
  · exact ⟨.overload, rfl⟩
  · exact ⟨.encErr, rfl⟩
  · exact ⟨.resync, rfl⟩
  · exact ⟨.pingMismatch, rfl⟩
  · exact ⟨.lastEvent, rfl⟩

/-- The registers named, against the file indexed. -/
theorem State.diagReg_eq (s : State) (r : DiagReg) : s.diag[r.index] = s.diagReg r := rfl

/-- Raising an event: its counter and LAST_EVENT change as R221 says, and no other register. -/
theorem State.raise_diagAfter (e : DiagEvent) (s : State) :
    DiagAfter s.diag (s.raise e).diag e.counter.index e.amount e.code := by
  refine ⟨?_, ?_, fun j h1 h2 => ?_⟩
  · rw [State.diagReg_eq, State.diagReg_eq, State.raise_diagReg, if_neg e.counter_ne_lastEvent, if_pos rfl]
  · exact (s.raise_diagReg e .lastEvent).trans (if_pos rfl)
  · obtain ⟨r, rfl⟩ := DiagReg.index_surjective j
    rw [State.diagReg_eq, State.diagReg_eq, State.raise_diagReg, if_neg (fun h => h2 (by rw [h]; rfl)),
      if_neg (fun h => h1 (by rw [h]))]

/-- Raising an event, as a record update. -/
theorem State.raise_eq (e : DiagEvent) (s : State) :
    ∃ d, DiagAfter s.diag d e.counter.index e.amount e.code
      ∧ s.raise e = { s with diag := d, events := s.events ++ [e] } :=
  ⟨(s.raise e).diag, s.raise_diagAfter e, rfl⟩

/-- Counting without an event, as a record update. -/
theorem State.count_eq (r : DiagReg) (s : State) :
    ∃ d, DiagCounted s.diag d r.index ∧ s.count r 1 = { s with diag := d } := by
  refine ⟨(s.count r 1).diag, ⟨?_, fun j hj => ?_⟩, rfl⟩
  · rw [State.diagReg_eq, State.diagReg_eq, State.count_diagReg, if_pos rfl]; rfl
  · obtain ⟨r', rfl⟩ := DiagReg.index_surjective j
    rw [State.diagReg_eq, State.diagReg_eq, State.count_diagReg, if_neg (fun h => hj (by rw [h]))]

end Sys2Proof.Machine
end

