-- ==== Sys2Proof/Laws/FrameSync.lean ====
section
/-! SUPPORT. Everything one iteration of the decode loop can do, and what the dispatch of a packet leaves
alone. -/

namespace Sys2Proof.Machine

/-- The four ends of an iteration from a buffer that begins with the marker (R105 to R110); it never
refuses, since it reads only what it has tested (R42). -/
theorem decodeHead_cases (s : State) :
    (s.buf.length < 7 ∧ decodeHead s = .next s.suspend)
      ∨ (7 ≤ s.buf.length ∧ hdrLength s.buf < 7 ∧ decodeHead s = .next (discardShortHeader (hdrLength s.buf) s))
      ∨ (7 ≤ s.buf.length ∧ 7 ≤ hdrLength s.buf ∧ s.buf.length < hdrLength s.buf
          ∧ decodeHead s = .next (incomplete s))
      ∨ (7 ≤ hdrLength s.buf ∧ hdrLength s.buf ≤ s.buf.length
          ∧ decodeHead s = .next (dispatch (hdrType s.buf) (slice s.buf 0 (hdrLength s.buf)) (s.trim (hdrLength s.buf)))) := by
  by_cases h7 : s.buf.length < 7
  · exact .inl ⟨h7, by simp [decodeHead, hdrSize, h7]⟩
  have h7' : 7 ≤ s.buf.length := Nat.le_of_not_lt h7
  have hh : decodeHead s
      = if hdrLength s.buf < 7 then .next (discardShortHeader (hdrLength s.buf) s)
        else gate (hdrType s.buf) (hdrLength s.buf) s := by
    obtain ⟨ht, hl⟩ := hdr_slice s.buf h7'
    simp [decodeHead, hdrSize, h7, s.memRead_of_le 0 7 (by omega), ht, hl]
  by_cases hl : hdrLength s.buf < 7
  · exact .inr (.inl ⟨h7', hl, by rw [hh, if_pos hl]⟩)
  rw [hh, if_neg hl]
  by_cases hc : s.buf.length < hdrLength s.buf
  · exact .inr (.inr (.inl ⟨h7', by omega, hc, by simp [gate, hc]⟩))
  · exact .inr (.inr (.inr ⟨by omega, by omega, by
      simp [gate, hc, s.memRead_of_le 0 (hdrLength s.buf) (by omega)]⟩))

/-- One iteration: no marker, or the noise before the earliest marker goes and the head is decoded. -/
theorem decodeIteration_cases (s : State) :
    (findMarker s.buf = none ∧ decodeIteration s = .next (noMarker s))
      ∨ (∃ i, findMarker s.buf = some i ∧ decodeIteration s = decodeHead (discardNoise i s)) := by
  cases h : findMarker s.buf with
  | none => exact .inl ⟨rfl, by simp [decodeIteration, h]⟩
  | some i => exact .inr ⟨i, rfl, by simp [decodeIteration, h]⟩

/-- An incomplete packet suspends the loop, or is resynchronized past the watermark. -/
theorem incomplete_cases (s : State) :
    ((∀ w, s.cfg.watermark = some w → s.buf.length ≤ w) ∧ incomplete s = s.suspend)
      ∨ (∃ w, s.cfg.watermark = some w ∧ w < s.buf.length
          ∧ incomplete s = (s.raise (.forcedResync s.buf.length)).trim 1) := by
  cases h : s.cfg.watermark with
  | none => exact .inl ⟨by simp, by simp [incomplete, h]⟩
  | some w =>
    by_cases hw : w < s.buf.length
    · exact .inr ⟨w, rfl, hw, by simp [incomplete, h, hw]⟩
    · exact .inl ⟨by rintro _ ⟨⟩; omega, by simp [incomplete, h, hw]⟩

/-- discardNoise removes the noise and, of the block's other state, changes only the diagnostic file. -/
theorem discardNoise_eq (i : Nat) (s : State) :
    (i = 0 ∧ discardNoise i s = s)
      ∨ (0 < i ∧ discardNoise i s = (s.raise (.noiseDiscarded i)).trim i) := by
  by_cases h : 0 < i
  · exact .inr ⟨h, by simp [discardNoise, h]⟩
  · exact .inl ⟨by omega, by simp [discardNoise, h]⟩

@[simp] theorem discardNoise_buf (i : Nat) (s : State) : (discardNoise i s).buf = s.buf.drop i := by
  obtain ⟨rfl, h⟩ | ⟨-, h⟩ := discardNoise_eq i s <;> simp [h]

@[simp] theorem discardNoise_busy (i : Nat) (s : State) : (discardNoise i s).busy = s.busy := by
  obtain ⟨-, h⟩ | ⟨-, h⟩ := discardNoise_eq i s <;> simp [h]

@[simp] theorem discardNoise_cfg (i : Nat) (s : State) : (discardNoise i s).cfg = s.cfg := by
  obtain ⟨-, h⟩ | ⟨-, h⟩ := discardNoise_eq i s <;> simp [h]

/-- DSTEP never refuses and never faults once begun (R42, R117). -/
theorem decodeIteration_next (s : State) : ∃ t, decodeIteration s = .next t := by
  obtain ⟨-, h⟩ | ⟨i, -, h⟩ := decodeIteration_cases s
  · exact ⟨_, h⟩
  · rw [h]
    obtain ⟨-, h⟩ | ⟨-, -, h⟩ | ⟨-, -, -, h⟩ | ⟨-, -, h⟩ := decodeHead_cases (discardNoise i s) <;> exact ⟨_, h⟩

/-! ### What the correlator and dispatch leave alone -/

/-- The parts of the state that no reply and no dispatch touches. -/
def SameStream (s t : State) : Prop :=
  t.cfg = s.cfg ∧ t.buf = s.buf ∧ t.busy = s.busy ∧ t.disc = s.disc ∧ t.results = s.results ∧ t.offers = s.offers

theorem completePing_sameStream (text : Bytes) (s : State) : SameStream s (completePing text s) := by
  obtain ⟨-, h⟩ | ⟨-, h⟩ := completePing_cases text s <;> simp [h, SameStream]

theorem enqueueReply_sameStream (text : Bytes) (s : State) : SameStream s (enqueueReply text s) := by
  obtain ⟨r, -, h⟩ | ⟨r, -, h⟩ | ⟨-, -, h⟩ | ⟨-, -, h⟩ := enqueueReply_cases text s
  · simp [h, SameStream]
  · rw [h]; exact completePing_sameStream text s
  · simp [h, SameStream]
  · obtain ⟨-, h'⟩ | ⟨-, h'⟩ := overflow_cases text s <;> simp [h, h', SameStream]

theorem dispatchData_sameStream (body : Bytes) (s : State) : SameStream s (dispatchData body s) := by
  unfold dispatchData
  split <;> simp [SameStream]

theorem dispatchString_sameStream (body : Bytes) (s : State) : SameStream s (dispatchString body s) := by
  unfold dispatchString
  split
  · simpa [SameStream] using enqueueReply_sameStream _ (s.count .stringOk 1)
  · simp [SameStream]

theorem dispatch_sameStream (ty : Byte) (p : Bytes) (s : State) : SameStream s (dispatch ty p s) := by
  unfold dispatch
  simp only []
  split_ifs
  · exact dispatchData_sameStream _ s
  · exact dispatchString_sameStream _ s
  · simp [dispatchUnknown, SameStream]

theorem timeoutAwait_sameStream (s : State) : SameStream s (timeoutAwait s) := by simp [timeoutAwait, SameStream]
theorem timeoutPing_sameStream (s : State) : SameStream s (timeoutPing s) := by simp [timeoutPing, SameStream]

theorem awaitReply_sameStream (n : Nat) (s : State) : SameStream s (awaitReply n s) := by
  obtain ⟨x, r, -, h⟩ | ⟨-, -, h⟩ | ⟨-, -, h⟩ := awaitReply_cases n s <;> simp [h, SameStream]

theorem tick_sameStream (s : State) : SameStream s (tick s) := by
  obtain ⟨-, h⟩ | ⟨-, h⟩ | ⟨-, h⟩ | ⟨r, -, -, h⟩ | ⟨r, -, -, h⟩ := tick_cases s
  · simp [h, SameStream]
  · rw [h]; exact timeoutAwait_sameStream s
  · rw [h]; exact timeoutPing_sameStream s
  · simp [h, SameStream]
  · simp [h, SameStream]

theorem pingWith_sameStream (line : Bytes) (s : State) : SameStream s (pingWith line s) := by
  obtain ⟨x, r, -, h⟩ | ⟨-, -, h⟩ | ⟨-, -, h⟩ := pingWith_cases line s
  · rw [h]; simpa [SameStream] using completePing_sameStream x { s.emit (.tx line) with q := r }
  · rw [h]; simpa [SameStream] using timeoutPing_sameStream (s.emit (.tx line))
  · simp [h, SameStream]

theorem sendCommand_sameStream (name : Bytes) (ps : List Bytes) (s : State) :
    SameStream s (sendCommand name ps s) := by
  obtain ⟨b, -, h⟩ | ⟨-, h⟩ := sendCommand_cases name ps s <;> simp [h, SameStream]

/-! ### What an iteration does to the buffer -/

/-- From a buffer that begins with the marker: the run ends with the buffer as it is, or at least one byte
goes; the rest of the stream state stays. -/
theorem decodeHead_stream {s t : State} (h : decodeHead s = .next t) :
    t.cfg = s.cfg ∧ t.disc = s.disc ∧ t.results = s.results ∧ t.offers = s.offers
      ∧ ((t.busy = false ∧ t.buf = s.buf) 
        ∨ (t.busy = s.busy ∧ ∃ n, 0 < n ∧ n ≤ s.buf.length ∧ t.buf = s.buf.drop n)) := by
  obtain ⟨-, h'⟩ | ⟨h7, -, h'⟩ | ⟨h7, hl, hc, h'⟩ | ⟨hl, hc, h'⟩ := decodeHead_cases s <;> rw [h'] at h <;>
    injection h with h <;> subst h
  · simp
  · refine ⟨rfl, rfl, rfl, rfl, .inr ⟨rfl, 7, by omega, h7, rfl⟩⟩
  · obtain ⟨-, hi⟩ | ⟨w, -, hw, hi⟩ := incomplete_cases s <;> rw [hi]
    · simp
    · exact ⟨rfl, rfl, rfl, rfl, .inr ⟨rfl, 1, by omega, by omega, rfl⟩⟩
  · obtain ⟨h1, h2, h3, h4, h5, h6⟩ :=
      dispatch_sameStream (hdrType s.buf) (slice s.buf 0 (hdrLength s.buf)) (s.trim (hdrLength s.buf))
    exact ⟨h1, h4, h5, h6, .inr ⟨h3, _, by omega, hc, h2⟩⟩

/-- With no marker the run ends on the kept tail. -/
theorem noMarker_stream (s : State) :
    (noMarker s).cfg = s.cfg ∧ (noMarker s).disc = s.disc ∧ (noMarker s).results = s.results
      ∧ (noMarker s).offers = s.offers ∧ (noMarker s).busy = false
      ∧ (noMarker s).buf = s.buf.drop (s.buf.length - tailKeep s.buf) := by
  unfold noMarker
  simp only []
  split_ifs <;> simp

/-- An iteration trims a prefix, and ends the run or removes at least one byte (R41, R115). -/
theorem decodeIteration_stream {s t : State} (h : decodeIteration s = .next t) :
    t.cfg = s.cfg ∧ t.disc = s.disc ∧ t.results = s.results ∧ t.offers = s.offers
      ∧ ∃ n, n ≤ s.buf.length ∧ t.buf = s.buf.drop n ∧ (t.busy = false ∨ (t.busy = s.busy ∧ 0 < n)) := by
  obtain ⟨-, h'⟩ | ⟨i, hf, h'⟩ := decodeIteration_cases s
  · rw [h'] at h; injection h with h; subst h
    obtain ⟨h1, h2, h3, h4, h5, h6⟩ := noMarker_stream s
    exact ⟨h1, h2, h3, h4, _, by omega, h6, .inl h5⟩
  · rw [h'] at h
    have hn := (findMarker_some_at hf).1
    obtain ⟨h1, h2, h3, h4, h5⟩ := decodeHead_stream h
    have hd : (discardNoise i s).disc = s.disc ∧ (discardNoise i s).results = s.results
        ∧ (discardNoise i s).offers = s.offers := by
      obtain ⟨-, h⟩ | ⟨-, h⟩ := discardNoise_eq i s <;> simp [h]
    refine ⟨by simpa using h1, by rw [h2, hd.1], by rw [h3, hd.2.1], by rw [h4, hd.2.2], ?_⟩
    obtain ⟨hb, hbuf⟩ | ⟨hb, n, hn0, hnl, hbuf⟩ := h5
    · exact ⟨i, hn, by simpa using hbuf, .inl hb⟩
    · refine ⟨i + n, ?_, ?_, .inr ⟨by simpa using hb, by omega⟩⟩
      · simp at hnl; omega
      · rw [hbuf, discardNoise_buf, List.drop_drop]

end Sys2Proof.Machine
end

