-- ==== Sys2Proof/Laws/PerInstr.lean ====
section
/-! SUPPORT. Statements made of every instruction, one lemma per constructor. Family EncodingSize: the
sizes of the encodings, 30_encoding.md R62, R73, R77, R80. -/

namespace Sys2Proof.Laws.EncodingSize

/-- A packet has 7 to 65535 bytes, a command line |name| + Σ(1 + |p|) + 1, a port transaction no
encoding. -/
def Statement (i : Instr) : Prop :=
  i.wellFormed = true →
    match i with
    | .pktData _ | .pktString _ | .pktStringPong | .pktUnknown _ _ | .pktShortLength _ _ =>
        ∃ w, encode i = some w ∧ 7 ≤ w.length ∧ w.length ≤ 65535
    | .cmdLine name params =>
        ∃ w, encode i = some w ∧ w.length = name.length + (params.map (fun p => 1 + p.length)).sum + 1
    | .cmdPing => ∃ w, encode i = some w ∧ w.length = 5
    | .portIngest _ | .portDstep | .portAwait _ | .portTick | .portSend _ _ | .portPing | .portReset
    | .portDiagRead _ => encode i = none

theorem packetBytes_length (t : Byte) (body : Bytes) : (packetBytes t body).length = 7 + body.length := by
  simp [packetBytes, marker, beEnc_length]; omega

theorem lineBytes_length (name : Bytes) (params : List Bytes) :
    (lineBytes name params).length = name.length + (params.map (fun p => 1 + p.length)).sum + 1 := by
  have h : ((params.map (fun p => (0x20 : Byte) :: p)).flatten).length = (params.map (fun p => 1 + p.length)).sum := by
    induction params with
    | nil => rfl
    | cons p ps ih =>
      rw [List.map_cons, List.flatten_cons, List.length_append, ih, List.map_cons, List.sum_cons, List.length_cons]; omega
  simp only [lineBytes, List.length_append, h]; rfl

theorem pktData (body : Bytes) : Statement (.pktData body) := fun h =>
  ⟨_, rfl, by rw [packetBytes_length]; omega, by
    rw [packetBytes_length]; simp only [Instr.wellFormed, decide_eq_true_eq, maxBody] at h; omega⟩

theorem pktString (body : Bytes) : Statement (.pktString body) := fun h =>
  ⟨_, rfl, by rw [packetBytes_length]; omega, by
    rw [packetBytes_length]; simp only [Instr.wellFormed, decide_eq_true_eq, maxBody] at h; omega⟩

theorem pktStringPong : Statement .pktStringPong := fun _ => ⟨_, rfl, by decide, by decide⟩

theorem pktUnknown (t : Byte) (body : Bytes) : Statement (.pktUnknown t body) := fun h =>
  ⟨_, rfl, by rw [packetBytes_length]; omega, by
    rw [packetBytes_length]; simp only [Instr.wellFormed, Bool.and_eq_true, decide_eq_true_eq, maxBody] at h; omega⟩

theorem pktShortLength (t : Byte) (lll : BitVec 3) : Statement (.pktShortLength t lll) := fun _ =>
  ⟨_, rfl, by simp [marker, beEnc_length], by simp [marker, beEnc_length]⟩

theorem cmdLine (name : Bytes) (params : List Bytes) : Statement (.cmdLine name params) := fun _ =>
  ⟨_, rfl, lineBytes_length name params⟩

theorem cmdPing : Statement .cmdPing := fun _ => ⟨_, rfl, rfl⟩

theorem portIngest (c : Bytes) : Statement (.portIngest c) := fun _ => rfl

theorem portDstep : Statement .portDstep := fun _ => rfl

theorem portAwait (t : Nat) : Statement (.portAwait t) := fun _ => rfl

theorem portTick : Statement .portTick := fun _ => rfl

theorem portSend (name : Bytes) (params : List Bytes) : Statement (.portSend name params) := fun _ => rfl

theorem portPing : Statement .portPing := fun _ => rfl

theorem portReset : Statement .portReset := fun _ => rfl

theorem portDiagRead (i : Nat) : Statement (.portDiagRead i) := fun _ => rfl

end Sys2Proof.Laws.EncodingSize
end

