-- ==== Sys2Proof/Laws/Step.lean ====
section
/-! SUPPORT. Which transaction a step takes, and when a packet row's meaning answers. -/

namespace Sys2Proof.Machine

/-- The offer taken is the earliest enabled one, and the others stay in their order. -/
theorem firstEnabled_some {s : State} {l : List Instr} {i : Instr} {r : List Instr}
    (h : firstEnabled s l = some (i, r)) :
    ∃ held rest, l = held ++ i :: rest ∧ r = held ++ rest ∧ (∀ j ∈ held, enabled j s = false)
      ∧ enabled i s = true := by
  induction l generalizing r with
  | nil => simp [firstEnabled] at h
  | cons x l ih =>
    rw [firstEnabled] at h
    split at h
    · rename_i hx
      obtain ⟨rfl, rfl⟩ : x = i ∧ l = r := by simpa using h
      exact ⟨[], l, rfl, rfl, by simp, hx⟩
    · rename_i hx
      obtain ⟨⟨i', r'⟩, hf, he⟩ : ∃ y, firstEnabled s l = some y ∧ (y.1, x :: y.2) = (i, r) := by simpa using h
      obtain ⟨rfl, rfl⟩ : i' = i ∧ x :: r' = r := by simpa using he
      obtain ⟨held, rest, rfl, rfl, hd, hi⟩ := ih hf
      exact ⟨x :: held, rest, rfl, rfl, by simpa [hx] using hd, hi⟩

/-- No offer is taken only when none is enabled. -/
theorem firstEnabled_none {s : State} {l : List Instr} :
    firstEnabled s l = none ↔ ∀ j ∈ l, enabled j s = false := by
  induction l with
  | nil => simp [firstEnabled]
  | cons x l ih =>
    rw [firstEnabled]
    cases hx : enabled x s <;> simp [hx, ih]

/-- Waiting offers before an enabled one are passed over. -/
theorem firstEnabled_append {s : State} {held rest : List Instr} {i : Instr}
    (hd : ∀ j ∈ held, enabled j s = false) (hi : enabled i s = true) :
    firstEnabled s (held ++ i :: rest) = some (i, held ++ rest) := by
  induction held with
  | nil => simp [firstEnabled, hi]
  | cons x l ih =>
    have hx : enabled x s = false := hd x (by simp)
    simp [firstEnabled, hx, ih fun j hj => hd j (by simp [hj])]

/-- Everything a step that answers can be. -/
theorem step_cases {s t : State} (h : step s = .next t) :
    legalConfig s.cfg = true ∧
      ((∃ held i rest, s.offers = held ++ i :: rest ∧ (∀ j ∈ held, enabled j s = false) ∧ enabled i s = true
          ∧ exec i { s with offers := held ++ rest } = .next t)
        ∨ ((∀ j ∈ s.offers, enabled j s = false) ∧ s.busy = true ∧ exec .portDstep s = .next t)
        ∨ ((∀ j ∈ s.offers, enabled j s = false) ∧ s.busy = false ∧ t = s)) := by
  unfold step at h
  by_cases hc : legalConfig s.cfg = true
  · refine ⟨hc, ?_⟩
    rw [if_pos hc] at h
    cases hf : firstEnabled s s.offers with
    | some x =>
      obtain ⟨held, rest, ho, hr, hd, hi⟩ := firstEnabled_some (i := x.1) (r := x.2) hf
      simp only [State.takeOffer, hf, Option.map_some] at h
      exact .inl ⟨held, x.1, rest, ho, hd, hi, by rw [← hr]; exact h⟩
    | none =>
      simp only [State.takeOffer, hf, Option.map_none] at h
      by_cases hb : s.busy = true
      · rw [if_pos hb] at h
        exact .inr (.inl ⟨firstEnabled_none.mp hf, hb, h⟩)
      · rw [if_neg hb] at h
        exact .inr (.inr ⟨firstEnabled_none.mp hf, by simpa using hb, by injection h with h; exact h.symm⟩)
  · rw [if_neg hc] at h; exact absurd h (by simp)

/-- The decoder reads exactly `i` at the head of the buffer. -/
theorem packetAtHead_iff {s : State} {i : Instr} :
    s.packetAtHead i = true ↔ ∃ rest, decodePacket s.buf = .ok (i, rest) := by
  unfold State.packetAtHead
  cases h : decodePacket s.buf with
  | error e => simp
  | ok x => rcases x with ⟨j, r⟩; simp

/-- When a packet row's meaning answers, and with what. -/
theorem whenAtHead_next {i : Instr} {s t u : State} :
    whenAtHead i s t = .next u ↔ s.busy = true ∧ (∃ rest, decodePacket s.buf = .ok (i, rest)) ∧ t = u := by
  rw [← packetAtHead_iff, whenAtHead, whenEnabled_next]
  cases h : s.packetAtHead i <;> simp

end Sys2Proof.Machine
end

