-- ==== Sys2Proof/Tests/Slice0.lean ====
section
/-! SUPPORT. The model's own tests: words written out from the layouts of 30_encoding.md, one-step tests
whose expected results are the vectors of 95_test_vectors.md, and a witness of the hypotheses of each
statement. -/

namespace Sys2Proof.Machine.Tests

open Sys2Proof Sys2Proof.Machine

-- One theorem at a time: each `decide +kernel` waits for the kernel, and many waiting threads exhaust memory.
set_option Elab.async false

/-- The vectors' configuration with MAX_CHUNK = 8, QCAP = 2, T_NOMINAL = 1, and WIDTH_OF 2 on id 9, 4 on
id 7, 1 elsewhere. -/
def cfgT : Config := { Config.hardware with qcap := 2, tNominal := 1, maxChunk := 8, widthExceptions := [(9, 2), (7, 4)] }

/-- Reset in that configuration. -/
def idleT : State := { State.reset with cfg := cfgT }

/-- A running Decoder with the given buffer. -/
def busyT (b : Bytes) : State := { idleT with buf := b, busy := true }

/-- The answer is a next state with property p. -/
def nextSat (r : Result) (p : State → Bool) : Bool :=
  match r with
  | .next t => p t
  | .fault _ => false
  | .refused _ => false

/-! ### WellFormed: each check refuses an ill-formed term -/

theorem test_wf_unknown_type_0 : (Instr.pktUnknown 1 []).wellFormed = false := by decide
theorem test_wf_short_length_7 : (Instr.pktShortLength 0 7).wellFormed = false := by decide
theorem test_wf_line_control_name : (Instr.cmdLine [0x0D] []).wellFormed = false := by decide
theorem test_wf_line_control_param : (Instr.cmdLine [0x41] [[0x7F]]).wellFormed = false := by decide
theorem test_wf_body_too_long (b : Bytes) (h : b.length = 65529) : (Instr.pktData b).wellFormed = false
    ∧ (Instr.pktString b).wellFormed = false ∧ (Instr.pktUnknown 2 b).wellFormed = false := by
  simp [Instr.wellFormed, h]
theorem test_canonical_refuses : (Instr.pktString pongText).canonical = false
    ∧ (Instr.cmdLine pingText []).canonical = false ∧ (Instr.cmdLine [0x20] []).canonical = false
    ∧ (Instr.cmdLine [0x41] [[0x20]]).canonical = false := by decide

/-! ### Decoding: words written out from R60, R64, R68, R69, R70 -/

theorem test_decode_data : decode [0xA5, 0xA5, 0xA5, 0xA5, 0x00, 0x00, 0x0C, 0x00, 0x00, 0x00, 0x2A, 0x00]
    = .ok (.pktData [0, 0, 0, 0x2A, 0], []) := by decide +kernel
theorem test_decode_string : decode [0xA5, 0xA5, 0xA5, 0xA5, 0x01, 0x00, 0x09, 0x4F, 0x4B, 0xFF]
    = .ok (.pktString [0x4F, 0x4B], [0xFF]) := by decide +kernel
theorem test_decode_pong : decodeTableWord 88 0xA5A5A5A501000B504F4E47 = some .pktStringPong := by decide +kernel
theorem test_decode_unknown : decodeTableWord 56 0xA5A5A5A5020008 = some (.pktUnknown 2 [0]) := by decide +kernel
theorem test_decode_short : decodeTableWord 56 0xA5A5A5A5FF0006 = some (.pktShortLength 0xFF 6) := by decide +kernel
theorem test_decode_length_7 : decodeTableWord 56 0xA5A5A5A5000007 = some (.pktData []) := by decide +kernel
theorem test_decode_ping : decodeTableWord 40 0x50494E470D = some .cmdPing := by decide +kernel
theorem test_decode_line : decode [0x41, 0x20, 0x20, 0x42, 0x0D] = .ok (.cmdLine [0x41] [[], [0x42]], []) := by decide +kernel
theorem test_decode_rejects :
    decode [0xA5, 0xA5, 0xA5, 0x00] = .error .noMarker
      ∧ decode [0xA5, 0xA5, 0xA5, 0xA5, 0x01, 0x00] = .error .headerIncomplete
      ∧ decode [0xA5, 0xA5, 0xA5, 0xA5, 0x00, 0x00, 0x10, 0x00] = .error (.packetIncomplete 16)
      ∧ decode [0x50, 0x49] = .error .lineUnterminated
      ∧ decode [0x50, 0x07, 0x0D] = .error .lineNotPrintable := by decide +kernel

/-! ### One step of each instruction (95_test_vectors.md) -/

-- W1c: the worked example, length corrected to 16.
theorem test_pktData_w1c : nextSat (exec (.pktData [0, 0, 0, 0, 1, 5, 0, 1, 7])
    (busyT [0xA5, 0xA5, 0xA5, 0xA5, 0, 0, 0x10, 0, 0, 0, 0, 1, 5, 0, 1, 7]))
    (fun t => t.buf == [] && t.trace == [.dataOut ⟨0, [⟨5, 1, [7]⟩]⟩] && t.diagReg .dataOk == 1) = true := by decide +kernel
-- D7: WidthMismatch at width 2.
theorem test_pktData_d7 : nextSat (exec (.pktData [0, 0, 0, 0, 1, 9, 0, 3, 1, 2, 3])
    (busyT [0xA5, 0xA5, 0xA5, 0xA5, 0, 0, 0x12, 0, 0, 0, 0, 1, 9, 0, 3, 1, 2, 3]))
    (fun t => t.trace == [] && t.events == [.malformedPacket .widthMismatch] && t.diagReg .malformed == 1) = true := by
  decide +kernel
-- S3: a bad continuation byte.
theorem test_pktString_s3 : nextSat (exec (.pktString [0xC3, 0x28]) (busyT [0xA5, 0xA5, 0xA5, 0xA5, 1, 0, 9, 0xC3, 0x28]))
    (fun t => t.q == [] && t.diagReg .invalidEnc == 1 && t.diagReg .lastEvent == 2) = true := by decide +kernel
-- S8: the euro sign is queued.
theorem test_pktString_s8 : nextSat (exec (.pktString [0xE2, 0x82, 0xAC])
    (busyT [0xA5, 0xA5, 0xA5, 0xA5, 1, 0, 0x0A, 0xE2, 0x82, 0xAC]))
    (fun t => t.q == [[0xE2, 0x82, 0xAC]] && t.diagReg .stringOk == 1) = true := by decide +kernel
-- W4 (a): PONG completes the ping with true.
theorem test_pktStringPong_w4a : nextSat (exec .pktStringPong
    { busyT [0xA5, 0xA5, 0xA5, 0xA5, 1, 0, 0x0B, 0x50, 0x4F, 0x4E, 0x47] with waiter := .ping 2 })
    (fun t => t.trace == [.pingDone true] && t.waiter == .idle && t.q == []) = true := by decide +kernel
-- W4 (b): PONX completes it with false.
theorem test_dstep_w4b : nextSat (exec .portDstep
    { busyT [0xA5, 0xA5, 0xA5, 0xA5, 1, 0, 0x0B, 0x50, 0x4F, 0x4E, 0x58] with waiter := .ping 2 })
    (fun t => t.trace == [.pingDone false] && t.diagReg .pingMismatch == 1 && t.diagReg .lastEvent == 10) = true := by
  decide +kernel
-- F11: type 2 is consumed whole and discarded.
theorem test_pktUnknown_f11 : nextSat (exec (.pktUnknown 2 [0xFF]) (busyT [0xA5, 0xA5, 0xA5, 0xA5, 2, 0, 8, 0xFF]))
    (fun t => t.buf == [] && t.diagReg .unknownType == 1) = true := by decide +kernel
-- F8: L = 3, the header goes.
theorem test_pktShortLength_f8 : nextSat (exec (.pktShortLength 1 3) (busyT [0xA5, 0xA5, 0xA5, 0xA5, 1, 0, 3, 0x41]))
    (fun t => t.buf == [0x41] && t.busy && t.diagReg .malformed == 1 && t.diagReg .lastEvent == 1) = true := by decide +kernel
-- A packet row where another packet stands.
theorem test_pktData_elsewhere : exec (.pktData []) (busyT [0xA5, 0xA5, 0xA5, 0xA5, 2, 0, 8, 0xFF]) = .fault .packetNotAtHead := by
  rfl
-- E4 and E7: ENCODE.
theorem test_cmdLine_e4 : nextSat (exec (.cmdLine [0x41] [[], [0x42]]) idleT)
    (fun t => t.results == [.encoded (.ok [0x41, 0x20, 0x20, 0x42, 0x0D])]) = true := by decide +kernel
theorem test_cmdLine_e7 : nextSat (exec (.cmdLine [0x41] [[0x7F]]) idleT)
    (fun t => t.results == [.encoded .errNonPrintable] && t.diagReg .encErr == 0) = true := by decide +kernel
-- W3's first transaction, by the row and by the port.
theorem test_cmdPing_w3 : nextSat (exec .cmdPing idleT)
    (fun t => t.trace == [.tx [0x50, 0x49, 0x4E, 0x47, 0x0D]] && t.waiter == .ping 2) = true := by decide +kernel
theorem test_portPing_w3 : nextSat (exec .portPing idleT)
    (fun t => t.trace == [.tx [0x50, 0x49, 0x4E, 0x47, 0x0D]] && t.waiter == .ping 2) = true := by decide +kernel
-- P-c: a queued HELLO is taken as the reply.
theorem test_portPing_pc : nextSat (exec .portPing { idleT with q := [[0x48], pongText] })
    (fun t => t.q == [pongText] && t.trace == [.tx [0x50, 0x49, 0x4E, 0x47, 0x0D], .pingDone false]) = true := by decide +kernel
-- F14 and F15: 9 bytes overload MAX_CHUNK = 8, 8 bytes do not.
theorem test_portIngest_f14 : nextSat (exec (.portIngest [0, 1, 2, 3, 4, 5, 6, 7, 8]) { idleT with buf := [0xA5] })
    (fun t => t.buf == [] && t.disc && t.trace == [.disconnect] && t.diagReg .overload == 1 && t.diagReg .lastEvent == 5)
      = true := by decide +kernel
theorem test_portIngest_f15 : nextSat (exec (.portIngest [0, 1, 2, 3, 4, 5, 6, 7]) { idleT with buf := [0xA5] })
    (fun t => t.buf == [0xA5, 0, 1, 2, 3, 4, 5, 6, 7] && t.busy) = true := by decide +kernel
-- F4: A5 00 A5 keeps one byte.
theorem test_portDstep_f4 : nextSat (exec .portDstep (busyT [0xA5, 0x00, 0xA5]))
    (fun t => t.buf == [0xA5] && !t.busy && t.diagReg .noiseBytes == 2) = true := by decide +kernel
-- F16: the watermark.
theorem test_portDstep_f16 : nextSat (exec .portDstep { busyT [0xA5, 0xA5, 0xA5, 0xA5, 0, 0, 0xFF, 0, 0, 0, 0] with
      cfg := { cfgT with watermark := some 10 } })
    (fun t => t.buf == [0xA5, 0xA5, 0xA5, 0, 0, 0xFF, 0, 0, 0, 0] && t.busy && t.diagReg .resync == 1) = true := by decide +kernel
-- Q1 and Q6.
theorem test_portAwait_q1 : nextSat (exec (.portAwait 0) idleT)
    (fun t => t.trace == [.awaitDone none] && t.diagReg .noReply == 1 && t.diagReg .lastEvent == 4) = true := by decide +kernel
theorem test_portAwait_q6 : nextSat (exec (.portAwait 5) { idleT with q := [[0x41], [0x42]] })
    (fun t => t.trace == [.awaitDone (some [0x41])] && t.q == [[0x42]]) = true := by decide +kernel
-- Q7: AWAIT while a wait is outstanding.
theorem test_portAwait_q7 : exec (.portAwait 1) { idleT with waiter := .await 4 } = .fault .notEnabled := by rfl
-- Q3's TICK, and a countdown.
theorem test_portTick_q3 : nextSat (exec .portTick { idleT with waiter := .await 1 })
    (fun t => t.waiter == .idle && t.trace == [.awaitDone none]) = true := by decide +kernel
theorem test_portTick_counts : nextSat (exec .portTick { idleT with waiter := .ping 2 })
    (fun t => t.waiter == .ping 1 && t.trace == []) = true := by decide +kernel
-- P-f and E8: SEND during a wait, and a carriage return in a parameter.
theorem test_portSend_pf : nextSat (exec (.portSend [0x41] [[0x7E]]) { idleT with waiter := .ping 2 })
    (fun t => t.waiter == .ping 2 && t.trace == [.tx [0x41, 0x20, 0x7E, 0x0D]]) = true := by decide +kernel
theorem test_portSend_e8 : nextSat (exec (.portSend [0x41] [[0x31, 0x0D]]) idleT)
    (fun t => t.trace == [] && t.diagReg .encErr == 1 && t.diagReg .lastEvent == 6) = true := by decide +kernel
-- X1.
theorem test_portReset_x1 : nextSat (exec .portReset { busyT [0xA5, 0xA5] with waiter := .ping 3, disc := true })
    (fun t => t.waiter == .idle && t.buf == [] && !t.busy && !t.disc && t.trace == []) = true := by decide +kernel
-- R29: index 13 reads 0.
theorem test_portDiagRead : nextSat (exec (.portDiagRead 12) (idleT.raise .pingMismatch))
    (fun t => t.results == [.diagWord 10]) = true
      ∧ nextSat (exec (.portDiagRead 13) (idleT.raise .pingMismatch)) (fun t => t.results == [.diagWord 0]) = true := by
  decide +kernel
-- Q4 and Q5: overflow.
theorem test_overflow : (enqueueReply [0x43] { idleT with q := [[0x41], [0x42]] }).q = [[0x42], [0x43]]
    ∧ (enqueueReply [0x43] { idleT with q := [[0x41], [0x42]], cfg := { cfgT with overflow := .dropNewest } }).q
        = [[0x41], [0x42]] := by decide +kernel
-- U17 and X3: QCAP = 0 is refused.
theorem test_illegal_configuration : step { idleT with cfg := { cfgT with qcap := 0 } } = .refused .illegalConfiguration := by rfl
-- A table word runs as the first step after reset.
theorem test_first_word : nextSat (step (State.reset.withFetchWord 88 0xA5A5A5A501000B504F4E47))
    (fun t => t.q == [pongText] && t.buf == []) = true := by decide +kernel

/-! ### Witnesses of the statements' hypotheses -/

theorem witness_invariants : idleT.Inv ∧ nextSat (step idleT) (fun _ => true) = true := by decide +kernel
theorem witness_reachable : Reachable { State.reset with cfg := cfgT } := .start cfgT (by decide +kernel)
theorem witness_legal_and_illegal : legalConfig cfgT = true
    ∧ legalConfig { cfgT with qcap := 0 } = false ∧ legalConfig { cfgT with widthDefault := 3 } = false
    ∧ legalConfig { cfgT with widthExceptions := [(0, 0)] } = false
    ∧ legalConfig { cfgT with widthExceptions := [(0, 1), (0, 3)] } = true ∧ legalConfig { cfgT with maxChunk := 0 } = false
    ∧ legalConfig { cfgT with bufCap := some 65541 } = false ∧ legalConfig { cfgT with bufCap := some 65542 } = true
    ∧ legalConfig { cfgT with watermark := some 6 } = false ∧ legalConfig { cfgT with watermark := some 7 } = true
    ∧ legalConfig { cfgT with pingCmd := [0x7F] } = false ∧ legalConfig { cfgT with marker := [0xA5] } = false := by decide +kernel
theorem witness_packet_rows : ∀ i ∈ [Instr.pktData [1], .pktString [2], .pktStringPong, .pktUnknown 2 [], .pktShortLength 0 6],
    i.wellFormed = true ∧ i.canonical = true ∧ ∃ w, encode i = some w ∧ hdrMarker w = [0xA5, 0xA5, 0xA5, 0xA5] := by
  intro i hi
  fin_cases hi <;> exact ⟨rfl, rfl, _, rfl, rfl⟩
theorem witness_lines : (Instr.cmdLine [0x41] [[0x42]]).wellFormed = true ∧ (Instr.cmdLine [0x41] [[0x42]]).canonical = true
    ∧ encode (.cmdLine [0x41] [[0x42]]) = some [0x41, 0x20, 0x42, 0x0D] := by decide +kernel
theorem witness_earliest_offer : legalConfig idleT.cfg = true ∧ enabled .portDstep idleT = false ∧ enabled .portTick idleT = true
    ∧ step { idleT with offers := [.portDstep, .portTick] } = exec .portTick { idleT with offers := [.portDstep] } :=
  ⟨by decide +kernel, rfl, rfl, rfl⟩
theorem witness_decoded_packet : (busyT [0xA5, 0xA5, 0xA5, 0xA5, 2, 0, 7]).busy = true
    ∧ decodePacket (busyT [0xA5, 0xA5, 0xA5, 0xA5, 2, 0, 7]).buf = .ok (.pktUnknown 2 [], []) := by decide +kernel
theorem witness_placed_word : idleT.waiter = .idle ∧ decodeTableWord 40 0x50494E470D = some .cmdPing
    ∧ decodeTableWord 56 0xA5A5A5A5010007 = some (.pktString []) := by decide +kernel
theorem witness_ingest : idleT.busy = false ∧ idleT.disc = false
    ∧ ([0, 1, 2, 3, 4, 5, 6, 7] : Bytes).length ≤ idleT.cfg.maxChunk
    ∧ idleT.cfg.maxChunk < ([0, 1, 2, 3, 4, 5, 6, 7, 8] : Bytes).length ∧ (busyT []).busy = true := by decide +kernel
theorem witness_no_marker : (busyT [0x00, 0xA5, 0xA5, 0xA5]).busy = true ∧ findMarker (busyT [0x00, 0xA5, 0xA5, 0xA5]).buf = none
    ∧ tailKeep [0x00, 0xA5, 0xA5, 0xA5] = 3 ∧ findMarker [0xA5, 0xA5] = none := by decide +kernel
theorem witness_header : (busyT ([0xA5, 0xA5, 0xA5, 0xA5] ++ [1, 0])).buf = [0xA5, 0xA5, 0xA5, 0xA5] ++ [1, 0]
    ∧ ([1, 0] : Bytes).length < 3 ∧ (0x00 : Byte).toNat * 256 + (0x06 : Byte).toNat < 7
    ∧ 7 ≤ (0x00 : Byte).toNat * 256 + (0x08 : Byte).toNat
    ∧ (busyT [0xA5, 0xA5, 0xA5, 0xA5, 0, 0, 8]).buf.length < 8 := by decide +kernel
theorem witness_watermark : ({ cfgT with watermark := some 7 }).watermark = some 7
    ∧ (busyT [0xA5, 0xA5, 0xA5, 0xA5, 0, 0, 0xFF]).buf.length ≤ 7
    ∧ 7 < (busyT [0xA5, 0xA5, 0xA5, 0xA5, 0, 0, 0xFF, 0]).buf.length := by decide +kernel
theorem witness_noise : (busyT ([0xFF] ++ [0xA5, 0xA5, 0xA5, 0xA5] ++ [1])).buf = [0xFF] ++ [0xA5, 0xA5, 0xA5, 0xA5] ++ [1]
    ∧ findMarker (busyT ([0xFF] ++ [0xA5, 0xA5, 0xA5, 0xA5] ++ [1])).buf = some ([0xFF] : Bytes).length := by decide +kernel
theorem witness_dstep : nextSat (exec .portDstep (busyT [])) (fun t => !t.busy) = true := by decide +kernel
theorem witness_chunks : idleT.Inv ∧ idleT.busy = false ∧ idleT.disc = false ∧ idleT.cfg.watermark = none
    ∧ (∀ c ∈ ([[0xA5, 0xA5], [0xA5, 0xA5, 1, 0, 7]] : List Bytes), c.length ≤ idleT.cfg.maxChunk)
    ∧ (∀ c ∈ ([[0xA5, 0xA5, 0xA5, 0xA5, 1, 0, 7]] : List Bytes), c.length ≤ idleT.cfg.maxChunk)
    ∧ ([[0xA5, 0xA5], [0xA5, 0xA5, 1, 0, 7]] : List Bytes).flatten = ([[0xA5, 0xA5, 0xA5, 0xA5, 1, 0, 7]] : List Bytes).flatten := by
  decide +kernel
theorem witness_data_round_trip : Serializable cfgT ⟨0x2A, []⟩
    ∧ ([[0xA5, 0xA5, 0xA5, 0xA5], [0, 0, 0x0C, 0, 0, 0, 0x2A, 0]] : List Bytes).flatten = serData ⟨0x2A, []⟩ :=
  ⟨⟨by decide, by simp, by decide +kernel⟩, by decide +kernel⟩
theorem witness_string_round_trip : validUtf8 [] = true ∧ ([[0xA5, 0xA5, 0xA5, 0xA5, 1, 0, 7]] : List Bytes).flatten = serString [] := by
  decide +kernel
theorem witness_array : 1 ≤ 4 ∧ ([0xDE, 0xAD, 0xBE, 0xEF] : Bytes).length % 4 = 0
    ∧ decodeArray [0xDE, 0xAD, 0xBE, 0xEF] 4 = [3735928559] ∧ decodeArray [0xDE, 0xAD, 0xBE, 0xEF] 2 = [57005, 48879] := by
  decide +kernel
theorem witness_block : ([5, 0] : Bytes).length < 3 ∧ ([1] : Bytes).length < (0 : Byte).toNat * 256 + (2 : Byte).toNat
    ∧ ([1, 2] : Bytes).length = (0 : Byte).toNat * 256 + (2 : Byte).toNat := by decide
theorem witness_data_bodies : legalConfig cfgT = true ∧ ([0, 0, 0, 0] : Bytes).length < 5
    ∧ decodeData cfgT [0, 0, 0, 0x2A, 0] = .ok ⟨0x2A, []⟩ ∧ decodeData cfgT [0, 0, 0, 0x2A, 0, 0xFF] = .error .trailingBytes := by
  decide +kernel
theorem witness_data_packet : (busyT (packetBytes 0 [0, 0, 0, 0x2A, 0] ++ [7])).buf = packetBytes 0 [0, 0, 0, 0x2A, 0] ++ [7]
    ∧ decodeData cfgT [] = .error .bodyShort := by decide +kernel
theorem witness_string_packet : (busyT (packetBytes 1 [0xC3] ++ [])).buf = packetBytes 1 [0xC3] ++ [] ∧ validUtf8 [0xC3] = false
    ∧ validUtf8 [0xC3, 0xA9] = true ∧ ([0xC3] : Bytes) ≠ [0x50, 0x4F, 0x4E, 0x47] := by decide +kernel
theorem witness_pong : cfgT.pongToken = [0x50, 0x4F, 0x4E, 0x47] ∧ ({ cfgT with pongToken := [0x41] }).pongToken ≠ [0x50, 0x4F, 0x4E, 0x47]
    ∧ ({ idleT with waiter := .ping 1 }).waiter = .ping 1 ∧ ∀ r, idleT.waiter ≠ .ping r :=
  ⟨rfl, by decide, rfl, fun _ => by simp [idleT, State.reset]⟩
theorem witness_unknown_packet : 2 ≤ (2 : Byte).toNat ∧ 2 ≤ (0xFF : Byte).toNat
    ∧ (busyT (packetBytes 0xFF [] ++ [])).buf = packetBytes 0xFF [] ++ [] := by decide +kernel
theorem witness_short_row : (6 : BitVec 3).toNat ≤ 6
    ∧ (busyT ([0xA5, 0xA5, 0xA5, 0xA5, 9, 0x00, (6 : BitVec 3).setWidth 8] ++ [1])).buf
        = [0xA5, 0xA5, 0xA5, 0xA5, 9, 0x00, (6 : BitVec 3).setWidth 8] ++ [1] := by decide +kernel
theorem witness_correlator : idleT.waiter = .idle ∧ idleT.q.length < idleT.cfg.qcap
    ∧ idleT.cfg.qcap ≤ ({ idleT with q := [[], []] }).q.length ∧ ({ idleT with waiter := .await 1 }).waiter = .await 1
    ∧ idleT.q = [] ∧ ({ idleT with q := [[0x41]] }).q = [0x41] :: [] := by decide +kernel
theorem witness_timeouts : cfgT.tNominal ≠ 0 ∧ 1 ≤ cfgT.tNominal ∧ cfgT.pingCmd = [0x50, 0x49, 0x4E, 0x47] ∧ ({ cfgT with tNominal := 0 }).tNominal = 0 ∧ (2 : Nat) ≠ 1 ∧ 1 ≤ 1 := by decide
theorem witness_printable : (∀ x ∈ ([0x20, 0x7E] : Bytes), 0x20 ≤ x.toNat ∧ x.toNat ≤ 0x7E)
    ∧ ¬ (∀ x ∈ ([0x7F] : Bytes), 0x20 ≤ x.toNat ∧ x.toNat ≤ 0x7E) ∧ ¬ (∀ x ∈ ([0x1F] : Bytes), 0x20 ≤ x.toNat ∧ x.toNat ≤ 0x7E) := by
  decide
theorem witness_erase_diag : (idleT.raise .noReply).diag ≠ idleT.diag
    ∧ ({ idleT with diag := (idleT.raise .noReply).diag } : State).eraseDiag = idleT.eraseDiag := by decide +kernel
theorem witness_steps_not_reset : exec .portTick idleT = .next idleT ∧ Instr.portTick ≠ .portReset := ⟨rfl, by decide⟩
theorem witness_disconnected : ({ idleT with disc := true } : State).Inv
    ∧ exec .portTick { idleT with disc := true } = .next { idleT with disc := true } := ⟨by decide +kernel, rfl⟩

end Sys2Proof.Machine.Tests
end

/-! ## O6: the configuration, and what the agents offer, stay (R9, R252) -/

namespace Sys2Proof.Machine

/-- The parts of the state that no transaction sets: the configuration (R9) and the agents' offers (R22). -/
def SameSetting (s t : State) : Prop := t.cfg = s.cfg ∧ t.offers = s.offers

theorem SameStream.sameSetting {s t : State} (h : SameStream s t) : SameSetting s t := by
  obtain ⟨hcfg, -, -, -, -, hoffers⟩ := h
  exact ⟨hcfg, hoffers⟩

/-- A packet leaves `buf` and is dispatched; neither touches the setting (R109, R110). -/
theorem whenAtHead_sameSetting {i : Instr} {n : Nat} {s t u : State} (hd : SameStream (s.trim n) t)
    (h : whenAtHead i s t = .next u) : SameSetting s u := by
  obtain ⟨-, -, rfl⟩ := whenAtHead_next.mp h
  exact hd.sameSetting

/-- A transaction that waits for its enabling condition and then keeps the stream state (R22). -/
theorem whenEnabled_sameSetting {ok : Bool} {s t u : State} (hd : SameStream s t)
    (h : whenEnabled ok (.next t) = .next u) : SameSetting s u := by
  obtain ⟨-, ⟨⟩⟩ := whenEnabled_next.mp h
  exact hd.sameSetting

theorem ingest_sameSetting (c : Bytes) (s : State) : SameSetting s (ingest c s) := by
  unfold ingest
  split_ifs <;> exact ⟨rfl, rfl⟩

theorem decodeIteration_sameSetting {s t : State} (h : decodeIteration s = .next t) : SameSetting s t := by
  obtain ⟨hcfg, -, -, hoffers, -⟩ := decodeIteration_stream h
  exact ⟨hcfg, hoffers⟩

/-- No instruction sets the configuration or the offers, RESET included (logs 1, 17). -/
theorem exec_sameSetting {i : Instr} {s t : State} (h : exec i s = .next t) : SameSetting s t := by
  cases i with
  | pktData body => exact whenAtHead_sameSetting (dispatchData_sameStream body _) h
  | pktString body => exact whenAtHead_sameSetting (dispatchString_sameStream body _) h
  | pktStringPong => exact whenAtHead_sameSetting (dispatchString_sameStream pongText _) h
  | pktUnknown ty body =>
    obtain ⟨-, -, rfl⟩ := whenAtHead_next.mp h
    exact ⟨rfl, rfl⟩
  | pktShortLength ty lll =>
    obtain ⟨-, -, rfl⟩ := whenAtHead_next.mp h
    exact ⟨rfl, rfl⟩
  | cmdLine name params =>
    cases h
    exact ⟨rfl, rfl⟩
  | cmdPing => exact whenEnabled_sameSetting (pingWith_sameStream _ s) h
  | portIngest chunk =>
    obtain ⟨-, ⟨⟩⟩ := whenEnabled_next.mp h
    exact ingest_sameSetting chunk s
  | portDstep => exact decodeIteration_sameSetting (whenEnabled_next.mp h).2
  | portAwait n => exact whenEnabled_sameSetting (awaitReply_sameStream n s) h
  | portTick =>
    cases h
    exact (tick_sameStream s).sameSetting
  | portSend name params =>
    cases h
    exact (sendCommand_sameStream name params s).sameSetting
  | portPing => exact whenEnabled_sameSetting (pingWith_sameStream _ s) h
  | portReset =>
    cases h
    exact ⟨rfl, rfl⟩
  | portDiagRead idx =>
    cases h
    exact ⟨rfl, rfl⟩

/-- A step keeps the configuration: taking an offer does, and so does the transaction it runs. -/
theorem step_cfg {s t : State} (h : step s = .next t) : t.cfg = s.cfg := by
  obtain ⟨-, ⟨held, i, rest, -, -, -, hi⟩ | ⟨-, -, hd⟩ | ⟨-, -, rfl⟩⟩ := step_cases h
  · exact (exec_sameSetting hi).1
  · exact (exec_sameSetting hd).1
  · rfl

/-- Settles O6, one instruction at a time, then through the cases of a step. -/
theorem configurationNeverChanges : Obligations.ConfigurationNeverChanges := by
  unfold Obligations.ConfigurationNeverChanges
  exact ⟨fun _ _ _ => exec_sameSetting, fun _ _ => step_cfg⟩

end Sys2Proof.Machine

/-! ## What INGEST, a scan without marker and a dispatch can do (R100, R103, R110 to R114) -/

namespace Sys2Proof.Machine

/-- The two ends of an INGEST: an overload, or the chunk appended (R100). -/
theorem ingest_cases (c : Bytes) (s : State) :
    (s.cfg.maxChunk < c.length
        ∧ ingest c s
          = ({ s.raise (.transportOverload c.length) with buf := [], disc := true } : State).emit .disconnect)
      ∨ (c.length ≤ s.cfg.maxChunk ∧ ingest c s = { s.append c with busy := true }) := by
  by_cases h : s.cfg.maxChunk < c.length
  · exact .inl ⟨h, if_pos h⟩
  · exact .inr ⟨Nat.le_of_not_lt h, if_neg h⟩

/-- Without a marker all but the kept tail is noise, if there is any (R103). -/
theorem noMarker_cases (s : State) :
    (0 < s.buf.length - tailKeep s.buf
        ∧ noMarker s = ((s.raise (.noiseDiscarded (s.buf.length - tailKeep s.buf))).trim
            (s.buf.length - tailKeep s.buf)).suspend)
      ∨ (s.buf.length - tailKeep s.buf = 0 ∧ noMarker s = (s.trim (s.buf.length - tailKeep s.buf)).suspend) := by
  by_cases h : 0 < s.buf.length - tailKeep s.buf
  · exact .inl ⟨h, by simp only [noMarker, gt_iff_lt, if_pos h]⟩
  · exact .inr ⟨Nat.eq_zero_of_not_pos h, by simp only [noMarker, gt_iff_lt, if_neg h]⟩

/-- Everything a dispatch can do: a DataPacket put out, a text for the correlator, or one event raised. -/
theorem dispatch_cases (ty : Byte) (p : Bytes) (s : State) :
    (∃ dp, ty = 0 ∧ decodeData s.cfg (slice p hdrSize p.length) = .ok dp
        ∧ dispatch ty p s = (s.emit (.dataOut dp)).count .dataOk 1)
      ∨ (∃ e, ty = 0 ∧ decodeData s.cfg (slice p hdrSize p.length) = .error e
        ∧ dispatch ty p s = s.raise (.malformedPacket e))
      ∨ (∃ text, ty = 1 ∧ decodeString (slice p hdrSize p.length) = some text
        ∧ dispatch ty p s = enqueueReply text (s.count .stringOk 1))
      ∨ (ty = 1 ∧ decodeString (slice p hdrSize p.length) = none ∧ dispatch ty p s = s.raise .invalidEncoding)
      ∨ (ty ≠ 0 ∧ ty ≠ 1 ∧ dispatch ty p s = s.raise (.unknownType ty)) := by
  by_cases h0 : ty = 0
  · cases hd : decodeData s.cfg (slice p hdrSize p.length) with
    | ok dp => exact .inl ⟨dp, h0, rfl, by simp [dispatch, h0, dispatchData, hd]⟩
    | error e => exact .inr (.inl ⟨e, h0, rfl, by simp [dispatch, h0, dispatchData, hd]⟩)
  by_cases h1 : ty = 1
  · cases hd : decodeString (slice p hdrSize p.length) with
    | some text => exact .inr (.inr (.inl ⟨text, h1, rfl, by simp [dispatch, h1, dispatchString, hd]⟩))
    | none => exact .inr (.inr (.inr (.inl ⟨h1, rfl, by simp [dispatch, h1, dispatchString, hd]⟩)))
  · exact .inr (.inr (.inr (.inr ⟨h0, h1, (if_neg h0).trans (if_neg h1)⟩)))

theorem SameStream.buf_eq {s t : State} (h : SameStream s t) : t.buf = s.buf := h.2.1

end Sys2Proof.Machine

/-! ## What an instruction that answers can have done (R22; logs 5, 11, 12, 13) -/

namespace Sys2Proof.Machine

theorem State.mayIngest_iff (s : State) : s.mayIngest = true ↔ s.busy = false ∧ s.disc = false := by
  simp [State.mayIngest]

theorem State.mayWait_iff (s : State) : s.mayWait = true ↔ s.waiter = .idle := by
  simp [State.mayWait]

/-- What the decoder has read when it accepts: the marker and a whole header, and either a length below 7
(R106) or a complete packet (R109). -/
theorem decodePacket_ok {b rest : Bytes} {i : Instr} (h : decodePacket b = .ok (i, rest)) :
    hdrMarker b = marker ∧ 7 ≤ b.length ∧
      ((hdrLength b < 7 ∧ i = .pktShortLength (hdrType b) (BitVec.ofNat 3 (hdrLength b)))
        ∨ (7 ≤ hdrLength b ∧ hdrLength b ≤ b.length
            ∧ i = packetOfType (hdrType b) (slice b 7 (hdrLength b)))) := by
  unfold decodePacket at h
  split_ifs at h with hm h7 hl hc
  · obtain ⟨rfl, -⟩ : _ = i ∧ _ = rest := by simpa using h
    exact ⟨not_not.mp hm, Nat.le_of_not_lt h7, .inl ⟨hl, rfl⟩⟩
  · obtain ⟨rfl, -⟩ : _ = i ∧ _ = rest := by simpa using h
    exact ⟨not_not.mp hm, Nat.le_of_not_lt h7, .inr ⟨Nat.le_of_not_lt hl, Nat.le_of_not_lt hc, rfl⟩⟩

/-- With its packet at the head of `buf`, a packet row's meaning lacks only `busy`. -/
theorem whenAtHead_of_decodePacket {i : Instr} {s t : State} {rest : Bytes}
    (hd : decodePacket s.buf = .ok (i, rest)) : whenAtHead i s t = whenEnabled s.busy (.next t) := by
  rw [whenAtHead, if_pos (packetAtHead_iff.mpr ⟨rest, hd⟩)]

/-- The body of a packet cut out of the buffer is the buffer's own slice. -/
theorem slice_body (b : Bytes) (n : Nat) (h : n ≤ b.length) :
    slice (slice b 0 n) hdrSize (slice b 0 n).length = slice b 7 n := by
  rw [slice_length_le b 0 n h]
  simp [slice, List.take_take]

/-- The row of a complete packet is its extraction and dispatch (R109, R110). -/
theorem exec_packetOfType {s : State} {ty : Byte} {n : Nat} {rest : Bytes} (h7 : 7 ≤ n) (hn : n ≤ s.buf.length)
    (hd : decodePacket s.buf = .ok (packetOfType ty (slice s.buf 7 n), rest)) :
    exec (packetOfType ty (slice s.buf 7 n)) s
      = whenEnabled s.busy (.next (dispatch ty (slice s.buf 0 n) (s.trim n))) := by
  have hlen : hdrSize + (slice s.buf 7 n).length = n := by
    rw [slice_length_le _ _ _ hn]; exact Nat.add_sub_cancel' h7
  have hdisp : dispatch ty (slice s.buf 0 n) (s.trim n)
      = if ty = 0 then dispatchData (slice s.buf 7 n) (s.trim n)
        else if ty = 1 then dispatchString (slice s.buf 7 n) (s.trim n) else dispatchUnknown ty (s.trim n) := by
    simp only [dispatch, slice_body _ _ hn]
  rw [hdisp]
  generalize slice s.buf 7 n = body at hd hlen
  subst hlen
  unfold packetOfType at hd ⊢
  split_ifs at hd ⊢ with h0 h1 hp
  · exact whenAtHead_of_decodePacket hd
  · subst hp; exact whenAtHead_of_decodePacket hd
  · exact whenAtHead_of_decodePacket hd
  · exact whenAtHead_of_decodePacket hd

/-- What a decode iteration does with the packet the decoder reads at the head of `buf`: it discards the
header (R106), or extracts and dispatches the packet (R109, R110). -/
theorem decodeIteration_of_decodePacket {i : Instr} {s : State} {rest : Bytes}
    (hd : decodePacket s.buf = .ok (i, rest)) :
    (hdrLength s.buf < 7 ∧ i = .pktShortLength (hdrType s.buf) (BitVec.ofNat 3 (hdrLength s.buf))
        ∧ decodeIteration s = .next (discardShortHeader (hdrLength s.buf) s))
      ∨ (7 ≤ hdrLength s.buf ∧ hdrLength s.buf ≤ s.buf.length
        ∧ i = packetOfType (hdrType s.buf) (slice s.buf 7 (hdrLength s.buf))
        ∧ decodeIteration s
            = .next (dispatch (hdrType s.buf) (slice s.buf 0 (hdrLength s.buf)) (s.trim (hdrLength s.buf)))) := by
  obtain ⟨hm, h7, hi⟩ := decodePacket_ok hd
  have hhead : decodeIteration s = decodeHead s := by
    simp [decodeIteration, findMarker_of_head hm, discardNoise]
  rw [hhead]
  obtain ⟨hlt, -⟩ | ⟨-, hl, h⟩ | ⟨-, hl, hc, -⟩ | ⟨hl, hc, h⟩ := decodeHead_cases s
  · omega
  · obtain ⟨-, hi⟩ | ⟨hge, -, -⟩ := hi
    · exact .inl ⟨hl, hi, h⟩
    · omega
  · obtain ⟨hlt, -⟩ | ⟨-, hle, -⟩ := hi <;> omega
  · obtain ⟨hlt, -⟩ | ⟨-, -, hi⟩ := hi
    · omega
    · exact .inr ⟨hl, hc, hi, h⟩

/-- A packet row is the DSTEP that finds it at the head of `buf` (log 5). -/
theorem exec_of_decodePacket {i : Instr} {s : State} {rest : Bytes} (hd : decodePacket s.buf = .ok (i, rest)) :
    exec i s = exec .portDstep s := by
  change exec i s = whenEnabled s.busy (decodeIteration s)
  obtain ⟨hl, rfl, h⟩ | ⟨hl, hc, rfl, h⟩ := decodeIteration_of_decodePacket hd <;> rw [h]
  · have hrow : exec (.pktShortLength (hdrType s.buf) (BitVec.ofNat 3 (hdrLength s.buf))) s
        = whenEnabled s.busy (.next (discardShortHeader (BitVec.ofNat 3 (hdrLength s.buf)).toNat s)) :=
      whenAtHead_of_decodePacket hd
    have hlll : (BitVec.ofNat 3 (hdrLength s.buf)).toNat = hdrLength s.buf := by
      rw [BitVec.toNat_ofNat]; omega
    rw [hrow, hlll]
  · exact exec_packetOfType hl hc hd

/-- A whole packet at the head of `buf` does not suspend the loop. -/
theorem decodeIteration_busy_of_decodePacket {i : Instr} {s t : State} {rest : Bytes}
    (hd : decodePacket s.buf = .ok (i, rest)) (h : decodeIteration s = .next t) : t.busy = s.busy := by
  obtain ⟨-, -, he⟩ | ⟨-, -, -, he⟩ := decodeIteration_of_decodePacket hd <;> (rw [he] at h; cases h)
  · rfl
  · obtain ⟨-, -, hbusy, -⟩ := dispatch_sameStream (hdrType s.buf) (slice s.buf 0 (hdrLength s.buf))
      (s.trim (hdrLength s.buf))
    exact hbusy

/-- Everything an instruction that answers a next state can have done, with the condition under which it
may (R22). A packet row is a decode iteration (log 5) and CMD_PING a ping (log 11). -/
inductive Transaction : Instr → State → State → Prop
  | dstep {s t : State} (hb : s.busy = true) (h : decodeIteration s = .next t) : Transaction .portDstep s t
  | packet {i : Instr} {s t : State} {rest : Bytes} (hb : s.busy = true)
      (hd : decodePacket s.buf = .ok (i, rest)) (h : decodeIteration s = .next t) : Transaction i s t
  | ingest {s : State} (c : Bytes) (hb : s.busy = false) (hd : s.disc = false) :
      Transaction (.portIngest c) s (ingest c s)
  | reset (s : State) : Transaction .portReset s (resetBlock s)
  | encode (name : Bytes) (params : List Bytes) (s : State) :
      Transaction (.cmdLine name params) s (s.answer (.encoded (encodeCommand name params)))
  | diagRead (n : Nat) (s : State) : Transaction (.portDiagRead n) s (s.answer (.diagWord (s.diagRead n)))
  | await {s : State} (n : Nat) (hw : s.waiter = .idle) : Transaction (.portAwait n) s (awaitReply n s)
  | tick (s : State) : Transaction .portTick s (tick s)
  | ping {i : Instr} {line : Bytes} {s : State} (hw : s.waiter = .idle)
      (hi : (i = .cmdPing ∧ line = lineBytes pingText []) ∨ (i = .portPing ∧ line = lineBytes s.cfg.pingCmd [])) :
      Transaction i s (pingWith line s)
  | send (name : Bytes) (params : List Bytes) (s : State) :
      Transaction (.portSend name params) s (sendCommand name params s)

/-- A packet row that answers is a decode iteration. -/
theorem whenAtHead_transaction {i : Instr} {s t u : State} (hi : exec i s = whenAtHead i s t)
    (h : exec i s = .next u) : Transaction i s u := by
  obtain ⟨hb, ⟨rest, hd⟩, -⟩ := whenAtHead_next.mp (hi.symm.trans h)
  rw [exec_of_decodePacket hd] at h
  exact .packet hb hd (whenEnabled_next.mp h).2

theorem exec_transaction {i : Instr} {s t : State} (h : exec i s = .next t) : Transaction i s t := by
  cases i with
  | pktData body => exact whenAtHead_transaction rfl h
  | pktString body => exact whenAtHead_transaction rfl h
  | pktStringPong => exact whenAtHead_transaction rfl h
  | pktUnknown ty body => exact whenAtHead_transaction rfl h
  | pktShortLength ty lll => exact whenAtHead_transaction rfl h
  | cmdLine name params => cases h; exact .encode ..
  | cmdPing =>
    obtain ⟨hok, ⟨⟩⟩ := whenEnabled_next.mp h
    exact .ping (s.mayWait_iff.mp hok) (.inl ⟨rfl, rfl⟩)
  | portIngest chunk =>
    obtain ⟨hok, ⟨⟩⟩ := whenEnabled_next.mp h
    obtain ⟨hb, hd⟩ := s.mayIngest_iff.mp hok
    exact .ingest chunk hb hd
  | portDstep =>
    obtain ⟨hb, hi⟩ := whenEnabled_next.mp h
    exact .dstep hb hi
  | portAwait n =>
    obtain ⟨hok, ⟨⟩⟩ := whenEnabled_next.mp h
    exact .await n (s.mayWait_iff.mp hok)
  | portTick => cases h; exact .tick ..
  | portSend name params => cases h; exact .send ..
  | portPing =>
    obtain ⟨hok, ⟨⟩⟩ := whenEnabled_next.mp h
    exact .ping (s.mayWait_iff.mp hok) (.inr ⟨rfl, rfl⟩)
  | portReset => cases h; exact .reset ..
  | portDiagRead idx => cases h; exact .diagRead ..

/-- A step that answers runs one transaction, in a legal configuration and whatever is left on offer, or
retains all state (R235, R252). -/
theorem step_transaction {s t : State} (h : step s = .next t) :
    legalConfig s.cfg = true ∧ (t = s ∨ ∃ i offers, Transaction i { s with offers := offers } t) := by
  obtain ⟨hc, ⟨held, i, rest, -, -, -, hi⟩ | ⟨-, -, hd⟩ | ⟨-, -, ht⟩⟩ := step_cases h
  · exact ⟨hc, .inr ⟨i, held ++ rest, exec_transaction hi⟩⟩
  · exact ⟨hc, .inr ⟨.portDstep, s.offers, exec_transaction hd⟩⟩
  · exact ⟨hc, .inl ht⟩

end Sys2Proof.Machine

/-! ## O3, O2, O4: R34's invariants -/

namespace Sys2Proof.Machine

/-- R34 (a), (b), (c), and the bound on QCAP they need: the queue and the outstanding wait. -/
structure RepliesOk (c : Config) (q : List Bytes) (w : Waiter) : Prop where
  qcap_pos : 1 ≤ c.qcap
  waiting : w ≠ .idle → q = []
  bounded : q.length ≤ c.qcap
  ticking : w ≠ .await 0 ∧ w ≠ .ping 0

/-- R34 (d), (e), (f): the buffer and its flags. The bound on a suspended buffer follows from (e). -/
structure StreamOk (c : Config) (buf : Bytes) (busy disc : Bool) : Prop where
  disconnected : disc = true → busy = false ∧ buf = []
  retained : busy = false → RetainedForm c buf
  bounded : buf.length ≤ 65534 + c.maxChunk
  capacity : 65534 + c.maxChunk ≤ bufCapacity c

abbrev State.RepliesOk (s : State) : Prop := Machine.RepliesOk s.cfg s.q s.waiter
abbrev State.StreamOk (s : State) : Prop := Machine.StreamOk s.cfg s.buf s.busy s.disc

/-- A declared length has two bytes (R62). -/
theorem hdrLength_le (b : Bytes) : hdrLength b ≤ 65535 := by
  have hlt := be_lt (slice b 5 7)
  have hle : (slice b 5 7).length ≤ 2 := by simp [slice]
  have hpow : 256 ^ (slice b 5 7).length ≤ 256 ^ 2 := Nat.pow_le_pow_right (by decide) hle
  unfold hdrLength
  omega

/-- What a suspended loop retains is short of the longest packet (R43). -/
theorem RetainedForm.length_le {c : Config} {b : Bytes} (h : RetainedForm c b) : b.length ≤ 65534 := by
  have := hdrLength_le b
  obtain ⟨h3, -⟩ | ⟨-, h7⟩ | ⟨-, -, -, hlt, -⟩ := h <;> omega

theorem retainedForm_nil (c : Config) : RetainedForm c [] := .inl ⟨Nat.zero_le _, rfl⟩

theorem State.inv_iff (s : State) : 1 ≤ s.cfg.qcap ∧ s.Inv ↔ s.RepliesOk ∧ s.StreamOk := by
  constructor
  · rintro ⟨hq, ha, hb, hc, hd, he, -, hf, hcap⟩
    exact ⟨⟨hq, ha, hb, hc⟩, hd, he, hf, hcap⟩
  · rintro ⟨⟨hq, ha, hb, hc⟩, hd, he, hf, hcap⟩
    exact ⟨hq, ha, hb, hc, hd, he, fun h => (he h).length_le, hf, hcap⟩

/-! ### The queue and the wait -/

/-- With no wait outstanding only the queue's bound is left. -/
theorem RepliesOk.of_idle {c : Config} {q : List Bytes} (hc : 1 ≤ c.qcap) (hq : q.length ≤ c.qcap) :
    RepliesOk c q .idle :=
  ⟨hc, fun h => absurd rfl h, hq, by simp, by simp⟩

/-- A wait with ticks left may stand beside an empty queue. -/
theorem RepliesOk.of_waiting {c : Config} {w : Waiter} (hc : 1 ≤ c.qcap) (ha : w ≠ .await 0) (hp : w ≠ .ping 0) :
    RepliesOk c [] w :=
  ⟨hc, fun _ => rfl, Nat.zero_le _, ha, hp⟩

/-- Ending the wait keeps them. -/
theorem RepliesOk.end_wait {c : Config} {q : List Bytes} {w : Waiter} (h : RepliesOk c q w) : RepliesOk c q .idle :=
  .of_idle h.qcap_pos h.bounded

/-- A text in the queue means that no wait is outstanding, and taking it keeps them. -/
theorem RepliesOk.take_head {c : Config} {q rest : List Bytes} {x : Bytes} {w : Waiter} (h : RepliesOk c q w)
    (hq : q = x :: rest) : RepliesOk c rest w := by
  subst hq
  have hw : w = .idle := by by_contra hw; exact absurd (h.waiting hw) (by simp)
  subst hw
  exact .of_idle h.qcap_pos (Nat.le_of_succ_le h.bounded)

theorem completePing_repliesOk (text : Bytes) {s : State} (h : s.RepliesOk) : (completePing text s).RepliesOk := by
  obtain ⟨-, he⟩ | ⟨-, he⟩ := completePing_cases text s <;> rw [he] <;> exact h.end_wait

theorem overflow_repliesOk (text : Bytes) {s : State} (h : s.RepliesOk) (hw : s.waiter = .idle) :
    (overflow text s).RepliesOk := by
  obtain ⟨-, he⟩ | ⟨-, he⟩ := overflow_cases text s <;> rw [he]
  · have hlen : (s.q.tail ++ [text]).length ≤ s.cfg.qcap := by
      have h1 := h.qcap_pos
      have h2 := h.bounded
      simp only [List.length_append, List.length_tail, List.length_singleton]
      omega
    change Machine.RepliesOk s.cfg (s.q.tail ++ [text]) s.waiter
    rw [hw]
    exact .of_idle h.qcap_pos hlen
  · exact h

theorem enqueueReply_repliesOk (text : Bytes) {s : State} (h : s.RepliesOk) : (enqueueReply text s).RepliesOk := by
  obtain ⟨r, -, he⟩ | ⟨r, -, he⟩ | ⟨hw, hq, he⟩ | ⟨hw, -, he⟩ := enqueueReply_cases text s <;> rw [he]
  · exact h.end_wait
  · exact completePing_repliesOk text h
  · change Machine.RepliesOk s.cfg (s.q ++ [text]) s.waiter
    rw [hw]
    exact .of_idle h.qcap_pos (by simpa using hq)
  · exact overflow_repliesOk text h hw

theorem awaitReply_repliesOk (n : Nat) {s : State} (h : s.RepliesOk) : (awaitReply n s).RepliesOk := by
  obtain ⟨x, rest, hq, he⟩ | ⟨-, -, he⟩ | ⟨hq, hn, he⟩ := awaitReply_cases n s <;> rw [he]
  · exact h.take_head hq
  · exact h
  · change Machine.RepliesOk s.cfg s.q (.await n)
    rw [hq]
    exact .of_waiting h.qcap_pos (by simpa using hn) (by simp)

theorem tick_repliesOk {s : State} (h : s.RepliesOk) : (tick s).RepliesOk := by
  obtain ⟨ha, hp⟩ := h.ticking
  obtain ⟨-, he⟩ | ⟨-, he⟩ | ⟨-, he⟩ | ⟨r, hw, hr, he⟩ | ⟨r, hw, hr, he⟩ := tick_cases s <;> rw [he]
  · exact h
  · exact h.end_wait
  · exact h.end_wait
  · have hr0 : r ≠ 0 := by rintro rfl; exact ha hw
    change Machine.RepliesOk s.cfg s.q (.await (r - 1))
    rw [h.waiting (by simp [hw])]
    exact .of_waiting h.qcap_pos (by simp; omega) (by simp)
  · have hr0 : r ≠ 0 := by rintro rfl; exact hp hw
    change Machine.RepliesOk s.cfg s.q (.ping (r - 1))
    rw [h.waiting (by simp [hw])]
    exact .of_waiting h.qcap_pos (by simp) (by simp; omega)

theorem pingWith_repliesOk (line : Bytes) {s : State} (h : s.RepliesOk) : (pingWith line s).RepliesOk := by
  obtain ⟨x, rest, hq, he⟩ | ⟨-, -, he⟩ | ⟨hq, hn, he⟩ := pingWith_cases line s <;> rw [he]
  · exact completePing_repliesOk x (h.take_head hq)
  · exact h.end_wait
  · change Machine.RepliesOk s.cfg s.q (.ping (2 * s.cfg.tNominal))
    rw [hq]
    exact .of_waiting h.qcap_pos (by simp) (by simp; omega)

theorem sendCommand_repliesOk (name : Bytes) (params : List Bytes) {s : State} (h : s.RepliesOk) :
    (sendCommand name params s).RepliesOk := by
  obtain ⟨b, -, he⟩ | ⟨-, he⟩ := sendCommand_cases name params s <;> rw [he] <;> exact h

theorem dispatch_repliesOk (ty : Byte) (p : Bytes) {s : State} (h : s.RepliesOk) : (dispatch ty p s).RepliesOk := by
  obtain ⟨dp, -, -, he⟩ | ⟨e, -, -, he⟩ | ⟨text, -, -, he⟩ | ⟨-, -, he⟩ | ⟨-, -, he⟩ := dispatch_cases ty p s <;>
    rw [he]
  · exact h
  · exact h
  · exact enqueueReply_repliesOk text (s := s.count .stringOk 1) h
  · exact h
  · exact h

theorem ingest_repliesOk (c : Bytes) {s : State} (h : s.RepliesOk) : (ingest c s).RepliesOk := by
  obtain ⟨-, he⟩ | ⟨-, he⟩ := ingest_cases c s <;> rw [he] <;> exact h

theorem decodeHead_repliesOk {s t : State} (h : s.RepliesOk) (ht : decodeHead s = .next t) : t.RepliesOk := by
  obtain ⟨-, he⟩ | ⟨-, -, he⟩ | ⟨-, -, -, he⟩ | ⟨-, -, he⟩ := decodeHead_cases s <;>
    (rw [he] at ht; cases ht)
  · exact h
  · exact h
  · obtain ⟨-, hi⟩ | ⟨w, -, -, hi⟩ := incomplete_cases s <;> rw [hi] <;> exact h
  · exact dispatch_repliesOk _ _ h

theorem decodeIteration_repliesOk {s t : State} (h : s.RepliesOk) (ht : decodeIteration s = .next t) :
    t.RepliesOk := by
  obtain ⟨-, he⟩ | ⟨i, -, he⟩ := decodeIteration_cases s <;> rw [he] at ht
  · cases ht
    obtain ⟨-, hn⟩ | ⟨-, hn⟩ := noMarker_cases s <;> rw [hn] <;> exact h
  · refine decodeHead_repliesOk ?_ ht
    obtain ⟨-, hn⟩ | ⟨-, hn⟩ := discardNoise_eq i s <;> rw [hn] <;> exact h

theorem Transaction.repliesOk {i : Instr} {s t : State} (h : Transaction i s t) (hs : s.RepliesOk) : t.RepliesOk := by
  cases h with
  | dstep hb h => exact decodeIteration_repliesOk hs h
  | packet hb hd h => exact decodeIteration_repliesOk hs h
  | ingest c hb hd => exact ingest_repliesOk c hs
  | reset => exact .of_idle hs.qcap_pos (Nat.zero_le _)
  | encode name params => exact hs
  | diagRead n => exact hs
  | await n hw => exact awaitReply_repliesOk n hs
  | tick => exact tick_repliesOk hs
  | ping hw hi => exact pingWith_repliesOk _ hs
  | send name params => exact sendCommand_repliesOk name params hs

/-! ### The buffer and its flags -/

theorem SameStream.streamOk {s t : State} (h : SameStream s t) (hs : s.StreamOk) : t.StreamOk := by
  obtain ⟨hcfg, hbuf, hbusy, hdisc, -, -⟩ := h
  rw [State.StreamOk, hcfg, hbuf, hbusy, hdisc]
  exact hs

/-- A disconnected or reset block: an empty buffer, and no Decoder running. -/
theorem StreamOk.empty {c : Config} (disc : Bool) (h : 65534 + c.maxChunk ≤ bufCapacity c) :
    StreamOk c [] false disc :=
  ⟨fun _ => ⟨rfl, rfl⟩, fun _ => retainedForm_nil c, Nat.zero_le _, h⟩

/-- A chunk is appended to a suspended buffer, so BUF_CAP is not exceeded (R43). -/
theorem ingest_streamOk (c : Bytes) {s : State} (hb : s.busy = false) (hd : s.disc = false) (h : s.StreamOk) :
    (ingest c s).StreamOk := by
  obtain ⟨-, he⟩ | ⟨hc, he⟩ := ingest_cases c s <;> rw [he]
  · change Machine.StreamOk s.cfg [] s.busy true
    rw [hb]
    exact .empty true h.capacity
  · have hlen : (s.buf ++ c).length ≤ 65534 + s.cfg.maxChunk := by
      have := (h.retained hb).length_le
      rw [List.length_append]
      omega
    exact ⟨fun hd' => absurd (hd.symm.trans hd') (by simp), fun hb' => absurd hb' (by simp), hlen, h.capacity⟩

/-- Where a run ends at the marker, what is left is an incomplete header or packet (R105, R108). -/
theorem decodeHead_retained {s t : State} (hm : hdrMarker s.buf = marker) (hb : s.busy = true)
    (h : decodeHead s = .next t) (ht : t.busy = false) : RetainedForm t.cfg t.buf := by
  have hstill : t.busy ≠ s.busy := by rw [hb, ht]; simp
  obtain ⟨h7, he⟩ | ⟨-, -, he⟩ | ⟨h7, hl, hc, he⟩ | ⟨-, -, he⟩ := decodeHead_cases s <;>
    (rw [he] at h; cases h)
  · exact .inr (.inl ⟨hm, h7⟩)
  · exact absurd rfl hstill
  · obtain ⟨hw, hi⟩ | ⟨w, -, -, hi⟩ := incomplete_cases s
    · rw [hi]
      have hwm : s.cfg.watermark.all (fun w => decide (s.buf.length ≤ w)) = true :=
        (Option.all_eq_true _ _).mpr fun w h => decide_eq_true (hw w h)
      exact .inr (.inr ⟨hm, h7, hl, hc, hwm⟩)
    · exact absurd (by rw [hi]; rfl) hstill
  · obtain ⟨-, -, hbusy, -⟩ := dispatch_sameStream (hdrType s.buf) (slice s.buf 0 (hdrLength s.buf))
      (s.trim (hdrLength s.buf))
    exact absurd hbusy hstill

/-- A run ends on one of R34's retained forms. -/
theorem decodeIteration_retained {s t : State} (hb : s.busy = true) (h : decodeIteration s = .next t)
    (ht : t.busy = false) : RetainedForm t.cfg t.buf := by
  obtain ⟨-, he⟩ | ⟨i, hf, he⟩ := decodeIteration_cases s <;> rw [he] at h
  · cases h
    obtain ⟨-, -, -, -, -, hbuf⟩ := noMarker_stream s
    obtain ⟨h3, hle⟩ := tailKeep_le s.buf
    have hlen : (noMarker s).buf.length = tailKeep s.buf := by rw [hbuf, List.length_drop]; omega
    exact .inl ⟨by omega, by rw [hlen, hbuf]; exact tailKeep_isPrefix s.buf⟩
  · exact decodeHead_retained (by simpa using (findMarker_some_at hf).2) (by simpa using hb) h ht

theorem decodeIteration_streamOk {s t : State} (hb : s.busy = true) (h : decodeIteration s = .next t)
    (hs : s.StreamOk) : t.StreamOk := by
  obtain ⟨hcfg, hdisc, -, -, n, -, hbuf, -⟩ := decodeIteration_stream h
  have hret := decodeIteration_retained hb h
  have hconn : s.disc ≠ true := fun hd => by simpa [hb] using (hs.disconnected hd).1
  refine ⟨fun hd => absurd (hdisc.symm.trans hd) hconn, hret, ?_, hcfg ▸ hs.capacity⟩
  have := hs.bounded
  rw [hcfg, hbuf, List.length_drop]
  omega

theorem Transaction.streamOk {i : Instr} {s t : State} (h : Transaction i s t) (hs : s.StreamOk) : t.StreamOk := by
  cases h with
  | dstep hb h => exact decodeIteration_streamOk hb h hs
  | packet hb hd h => exact decodeIteration_streamOk hb h hs
  | ingest c hb hd => exact ingest_streamOk c hb hd hs
  | reset => exact .empty false hs.capacity
  | encode name params => exact hs
  | diagRead n => exact hs
  | await n hw => exact (awaitReply_sameStream n s).streamOk hs
  | tick => exact (tick_sameStream s).streamOk hs
  | ping hw hi => exact (pingWith_sameStream _ s).streamOk hs
  | send name params => exact (sendCommand_sameStream name params s).streamOk hs

/-! ### Every step, and every reachable state -/

theorem Transaction.inv {i : Instr} {s t : State} (h : Transaction i s t) (hq : 1 ≤ s.cfg.qcap) (hs : s.Inv) :
    t.Inv := by
  obtain ⟨hr, hst⟩ := s.inv_iff.mp ⟨hq, hs⟩
  exact (t.inv_iff.mpr ⟨h.repliesOk hr, h.streamOk hst⟩).2

theorem legalConfig_bounds {c : Config} (h : legalConfig c = true) :
    1 ≤ c.qcap ∧ 65534 + c.maxChunk ≤ bufCapacity c := by
  simp only [legalConfig, Bool.and_eq_true, positive_iff, legalBufCap_iff] at h
  obtain ⟨⟨⟨⟨⟨⟨hq, -⟩, -⟩, hcap⟩, -⟩, -⟩, -⟩ := h
  exact ⟨hq, hcap⟩

theorem step_inv {s t : State} (hs : s.Inv) (h : step s = .next t) : t.Inv := by
  obtain ⟨hc, rfl | ⟨i, offers, htr⟩⟩ := step_transaction h
  · exact hs
  · exact htr.inv (legalConfig_bounds hc).1 hs

/-- RESET's state, in a configuration whose BUF_CAP is large enough (R43, R252). -/
theorem reset_inv {c : Config} (h : 65534 + c.maxChunk ≤ bufCapacity c) : { State.reset with cfg := c }.Inv :=
  ⟨fun _ => rfl, Nat.zero_le _, ⟨by simp [State.reset], by simp [State.reset]⟩, fun _ => ⟨rfl, rfl⟩,
    fun _ => retainedForm_nil c, fun _ => Nat.zero_le _, Nat.zero_le _, h⟩

theorem Reachable.inv {s : State} (h : Reachable s) : s.Inv := by
  induction h with
  | start c hc => exact reset_inv (legalConfig_bounds hc).2
  | offer s offers _ ih => exact ih
  | step s t _ hs ih => exact step_inv ih hs

/-- Settles O3, by two invariants: R34 (a) to (c) over the queue and the wait, which need QCAP ≥ 1, and
(d) to (f) over the buffer and its flags; each is kept by every transaction. -/
theorem stepKeepsInvariants : Obligations.StepKeepsInvariants := by
  unfold Obligations.StepKeepsInvariants
  exact fun _ _ => step_inv

/-- Settles O2, by induction on how the state is reached. -/
theorem reachableStatesSatisfyInvariants : Obligations.ReachableStatesSatisfyInvariants := by
  unfold Obligations.ReachableStatesSatisfyInvariants
  exact fun _ => Reachable.inv

/-- Settles O4: R9's BUF_CAP is the default, which is exactly the bound, whatever MAX_CHUNK is. -/
theorem resetStateSatisfiesInvariants : Obligations.ResetStateSatisfiesInvariants := by
  unfold Obligations.ResetStateSatisfiesInvariants
  exact reset_inv (c := Config.hardware) le_rfl

end Sys2Proof.Machine

/-! ## O7, O8, O10, O51: when a transaction has a step, and which one a step takes (R22, R29) -/

namespace Sys2Proof.Machine

/-- A guarded transaction steps under its enabling condition and is stuck without it (R22, U14). -/
theorem whenEnabled_stuck {p : Prop} [Decidable p] {ok : Bool} {r : Result} (hp : ok = true ↔ p)
    (hr : ∃ t, r = .next t) :
    if p then ∃ t, whenEnabled ok r = .next t else whenEnabled ok r = .fault .notEnabled := by
  split_ifs with h
  · rw [whenEnabled, if_pos (hp.mpr h)]; exact hr
  · rw [whenEnabled, if_neg (mt hp.mp h)]

/-- Settles O7: the guard of each transaction is R22's condition, and behind it the meaning always
answers; for DSTEP that is `decodeIteration_next`. -/
theorem transactionsStepExactlyWhenEnabled : Obligations.TransactionsStepExactlyWhenEnabled := by
  unfold Obligations.TransactionsStepExactlyWhenEnabled
  intro s
  exact ⟨fun c => whenEnabled_stuck s.mayIngest_iff ⟨_, rfl⟩,
    whenEnabled_stuck Iff.rfl (decodeIteration_next s),
    fun n => whenEnabled_stuck s.mayWait_iff ⟨_, rfl⟩,
    whenEnabled_stuck s.mayWait_iff ⟨_, rfl⟩,
    fun name params => ⟨_, rfl⟩, ⟨_, rfl⟩, ⟨_, rfl⟩, fun i => ⟨_, rfl⟩⟩

/-- A guarded meaning that always answers has a step exactly under its guard. -/
theorem whenEnabled_answers {ok : Bool} {r : Result} (hr : ∃ t, r = .next t) :
    ok = true ↔ ∃ t, whenEnabled ok r = .next t := by
  simp only [whenEnabled_next, exists_and_left, hr, and_true]

/-- A packet row has a step exactly when the Decoder runs with the packet at the head of `buf`. -/
theorem whenAtHead_answers {i : Instr} {s t : State} :
    (s.busy && s.packetAtHead i) = true ↔ ∃ u, whenAtHead i s t = .next u := by
  simp only [whenAtHead_next, Bool.and_eq_true, packetAtHead_iff, exists_and_left, exists_eq', and_true]

/-- Settles O8, one instruction at a time. -/
theorem enabledExactlyWhenExecSteps : Obligations.EnabledExactlyWhenExecSteps := by
  unfold Obligations.EnabledExactlyWhenExecSteps
  intro i s
  cases i with
  | pktData body => exact whenAtHead_answers
  | pktString body => exact whenAtHead_answers
  | pktStringPong => exact whenAtHead_answers
  | pktUnknown ty body => exact whenAtHead_answers
  | pktShortLength ty lll => exact whenAtHead_answers
  | cmdLine name params => exact iff_of_true rfl ⟨_, rfl⟩
  | cmdPing => exact whenEnabled_answers ⟨_, rfl⟩
  | portIngest chunk => exact whenEnabled_answers ⟨_, rfl⟩
  | portDstep => exact whenEnabled_answers (decodeIteration_next s)
  | portAwait n => exact whenEnabled_answers ⟨_, rfl⟩
  | portTick => exact iff_of_true rfl ⟨_, rfl⟩
  | portSend name params => exact iff_of_true rfl ⟨_, rfl⟩
  | portPing => exact whenEnabled_answers ⟨_, rfl⟩
  | portReset => exact iff_of_true rfl ⟨_, rfl⟩
  | portDiagRead idx => exact iff_of_true rfl ⟨_, rfl⟩

/-- Settles O10: the waiting offers before it are passed over (`firstEnabled_append`). -/
theorem stepRunsTheEarliestEnabledOffer : Obligations.StepRunsTheEarliestEnabledOffer := by
  unfold Obligations.StepRunsTheEarliestEnabledOffer
  intro s held rest i hc ho hd hi
  have htake : s.takeOffer = some (i, { s with offers := held ++ rest }) := by
    rw [State.takeOffer, ho, firstEnabled_append hd hi]; rfl
  rw [step, if_pos hc, htake]

/-- Settles O51: `diagRead` tests its index against the file's 13 registers. -/
theorem diagReadReturnsRegister : Obligations.DiagReadReturnsRegister := by
  unfold Obligations.DiagReadReturnsRegister
  intro s
  constructor
  · intro k
    have hread : s.diagRead k = s.diag[k] := dif_pos k.isLt
    rw [← hread]; rfl
  · intro i hi
    have hread : s.diagRead i = 0 := dif_neg (by omega)
    rw [← hread]; rfl

end Sys2Proof.Machine

/-! ## O53: outputs, events and returned values are only appended (R21) -/

namespace Sys2Proof.Machine

/-- What `t` has put out, recorded and returned extends what `s` had. -/
def Extends (s t : State) : Prop :=
  s.trace <+: t.trace ∧ s.events <+: t.events ∧ s.results <+: t.results

theorem Extends.refl (s : State) : Extends s s :=
  ⟨List.prefix_rfl, List.prefix_rfl, List.prefix_rfl⟩

theorem Extends.trans {s t u : State} (h : Extends s t) (h' : Extends t u) : Extends s u :=
  let ⟨htrace, hevents, hresults⟩ := h
  let ⟨htrace', hevents', hresults'⟩ := h'
  ⟨htrace.trans htrace', hevents.trans hevents', hresults.trans hresults'⟩

theorem State.emit_extends (e : OutEvent) (s : State) : Extends s (s.emit e) :=
  ⟨List.prefix_append .., List.prefix_rfl, List.prefix_rfl⟩

theorem State.raise_extends (e : DiagEvent) (s : State) : Extends s (s.raise e) :=
  ⟨List.prefix_rfl, List.prefix_append .., List.prefix_rfl⟩

theorem State.answer_extends (r : PortResult) (s : State) : Extends s (s.answer r) :=
  ⟨List.prefix_rfl, List.prefix_rfl, List.prefix_append ..⟩

/-- An event raised and then an output. -/
theorem State.raise_emit_extends (e : DiagEvent) (o : OutEvent) (s : State) : Extends s ((s.raise e).emit o) :=
  (s.raise_extends e).trans (State.emit_extends o _)

theorem completePing_extends (text : Bytes) (s : State) : Extends s (completePing text s) := by
  obtain ⟨-, h⟩ | ⟨-, h⟩ := completePing_cases text s <;> rw [h]
  · exact s.emit_extends _
  · exact s.raise_emit_extends _ _

theorem enqueueReply_extends (text : Bytes) (s : State) : Extends s (enqueueReply text s) := by
  obtain ⟨r, -, h⟩ | ⟨r, -, h⟩ | ⟨-, -, h⟩ | ⟨-, -, h⟩ := enqueueReply_cases text s <;> rw [h]
  · exact s.emit_extends _
  · exact completePing_extends text s
  · exact .refl s
  · obtain ⟨-, h'⟩ | ⟨-, h'⟩ := overflow_cases text s <;> rw [h'] <;> exact s.raise_extends _

theorem awaitReply_extends (n : Nat) (s : State) : Extends s (awaitReply n s) := by
  obtain ⟨x, rest, -, h⟩ | ⟨-, -, h⟩ | ⟨-, -, h⟩ := awaitReply_cases n s <;> rw [h]
  · exact s.emit_extends _
  · exact s.raise_emit_extends _ _
  · exact .refl s

theorem tick_extends (s : State) : Extends s (tick s) := by
  obtain ⟨-, h⟩ | ⟨-, h⟩ | ⟨-, h⟩ | ⟨r, -, -, h⟩ | ⟨r, -, -, h⟩ := tick_cases s <;> rw [h]
  · exact .refl s
  · exact s.raise_emit_extends _ _
  · exact s.raise_emit_extends _ _
  · exact .refl s
  · exact .refl s

theorem pingWith_extends (line : Bytes) (s : State) : Extends s (pingWith line s) := by
  refine (s.emit_extends (.tx line)).trans ?_
  obtain ⟨x, rest, -, h⟩ | ⟨-, -, h⟩ | ⟨-, -, h⟩ := pingWith_cases line s <;> rw [h]
  · exact completePing_extends x { s.emit (.tx line) with q := rest }
  · exact State.raise_emit_extends _ _ _
  · exact .refl _

theorem sendCommand_extends (name : Bytes) (params : List Bytes) (s : State) :
    Extends s (sendCommand name params s) := by
  obtain ⟨b, -, h⟩ | ⟨-, h⟩ := sendCommand_cases name params s <;> rw [h]
  · exact s.emit_extends _
  · exact s.raise_extends _

theorem dispatch_extends (ty : Byte) (p : Bytes) (s : State) : Extends s (dispatch ty p s) := by
  obtain ⟨dp, -, -, h⟩ | ⟨e, -, -, h⟩ | ⟨text, -, -, h⟩ | ⟨-, -, h⟩ | ⟨-, -, h⟩ := dispatch_cases ty p s <;> rw [h]
  · exact s.emit_extends _
  · exact s.raise_extends _
  · exact enqueueReply_extends text (s.count .stringOk 1)
  · exact s.raise_extends _
  · exact s.raise_extends _

theorem ingest_extends (c : Bytes) (s : State) : Extends s (ingest c s) := by
  obtain ⟨-, h⟩ | ⟨-, h⟩ := ingest_cases c s <;> rw [h]
  · exact s.raise_emit_extends _ _
  · exact .refl s

theorem noMarker_extends (s : State) : Extends s (noMarker s) := by
  obtain ⟨-, h⟩ | ⟨-, h⟩ := noMarker_cases s <;> rw [h]
  · exact s.raise_extends _
  · exact .refl s

theorem discardNoise_extends (i : Nat) (s : State) : Extends s (discardNoise i s) := by
  obtain ⟨-, h⟩ | ⟨-, h⟩ := discardNoise_eq i s <;> rw [h]
  · exact .refl s
  · exact s.raise_extends _

theorem decodeHead_extends {s t : State} (h : decodeHead s = .next t) : Extends s t := by
  obtain ⟨-, he⟩ | ⟨-, -, he⟩ | ⟨-, -, -, he⟩ | ⟨-, -, he⟩ := decodeHead_cases s <;> (rw [he] at h; cases h)
  · exact .refl s
  · exact s.raise_extends _
  · obtain ⟨-, hi⟩ | ⟨w, -, -, hi⟩ := incomplete_cases s <;> rw [hi]
    · exact .refl s
    · exact s.raise_extends _
  · exact dispatch_extends _ _ (s.trim _)

theorem decodeIteration_extends {s t : State} (h : decodeIteration s = .next t) : Extends s t := by
  obtain ⟨-, he⟩ | ⟨i, -, he⟩ := decodeIteration_cases s <;> rw [he] at h
  · cases h; exact noMarker_extends s
  · exact (discardNoise_extends i s).trans (decodeHead_extends h)

theorem Transaction.extends {i : Instr} {s t : State} (h : Transaction i s t) : Extends s t := by
  cases h with
  | dstep hb h => exact decodeIteration_extends h
  | packet hb hd h => exact decodeIteration_extends h
  | ingest c hb hd => exact ingest_extends c s
  | reset => exact .refl s
  | encode name params => exact s.answer_extends _
  | diagRead n => exact s.answer_extends _
  | await n hw => exact awaitReply_extends n s
  | tick => exact tick_extends s
  | ping hw hi => exact pingWith_extends _ s
  | send name params => exact sendCommand_extends name params s

theorem step_extends {s t : State} (h : step s = .next t) : Extends s t := by
  obtain ⟨-, rfl | ⟨i, offers, htr⟩⟩ := step_transaction h
  · exact .refl t
  · exact htr.extends

/-- Settles O53: every output, event and result is put at the end of its trace. -/
theorem outputsAreOnlyAppended : Obligations.OutputsAreOnlyAppended := by
  unfold Obligations.OutputsAreOnlyAppended
  intro s t h
  obtain ⟨⟨outs, htrace⟩, ⟨evs, hevents⟩, ⟨ress, hresults⟩⟩ := step_extends h
  exact ⟨⟨outs, htrace.symm⟩, ⟨evs, hevents.symm⟩, ⟨ress, hresults.symm⟩⟩

end Sys2Proof.Machine

/-! ## O54, O55: how the buffer and the two flags change (R23, R24, R25, R40, R41) -/

namespace Sys2Proof.Machine

/-- A decode iteration trims the front of the buffer (R41). -/
theorem decodeIteration_trims {s t : State} (h : decodeIteration s = .next t) : ∃ pre, s.buf = pre ++ t.buf := by
  obtain ⟨-, -, -, -, n, -, hbuf, -⟩ := decodeIteration_stream h
  exact ⟨s.buf.take n, by rw [hbuf, List.take_append_drop]⟩

/-- Settles O54: INGEST, RESET and a decode iteration touch the buffer, and no other transaction does. -/
theorem bufferChangesOnlyAtItsEnds : Obligations.BufferChangesOnlyAtItsEnds := by
  unfold Obligations.BufferChangesOnlyAtItsEnds
  intro i s t h
  cases exec_transaction h with
  | dstep hb h =>
    obtain ⟨pre, hpre⟩ := decodeIteration_trims h
    exact .inr (.inr (.inr ⟨hb, pre, hpre, .inl rfl⟩))
  | packet hb hd h =>
    obtain ⟨pre, hpre⟩ := decodeIteration_trims h
    exact .inr (.inr (.inr ⟨hb, pre, hpre, .inr ⟨_, hd⟩⟩))
  | ingest c hb hd =>
    obtain ⟨hc, he⟩ | ⟨-, he⟩ := ingest_cases c s <;> rw [he]
    · exact .inr (.inl ⟨c, rfl, .inr ⟨rfl, hc⟩⟩)
    · exact .inr (.inl ⟨c, rfl, .inl rfl⟩)
  | reset => exact .inr (.inr (.inl ⟨rfl, rfl⟩))
  | encode name params => exact .inl rfl
  | diagRead n => exact .inl rfl
  | await n hw => exact .inl (awaitReply_sameStream n s).buf_eq
  | tick => exact .inl (tick_sameStream s).buf_eq
  | ping hw hi => exact .inl (pingWith_sameStream _ s).buf_eq
  | send name params => exact .inl (sendCommand_sameStream name params s).buf_eq

/-- R24 and R25, of one transaction. -/
def FlagRules (i : Instr) (s t : State) : Prop :=
  (s.busy = false → t.busy = true → ∃ c, i = .portIngest c ∧ c.length ≤ s.cfg.maxChunk)
    ∧ (s.busy = true → t.busy = false → i = .portDstep ∨ i = .portReset)
    ∧ (s.disc = false → t.disc = true → ∃ c, i = .portIngest c ∧ s.cfg.maxChunk < c.length)
    ∧ (s.disc = true → t.disc = false → i = .portReset)

/-- A transaction that leaves both flags alone meets the rules. -/
theorem flagRules_of_same {i : Instr} {s t : State} (hb : t.busy = s.busy) (hd : t.disc = s.disc) :
    FlagRules i s t := by
  simp +contextual [FlagRules, hb, hd]

theorem SameStream.flagRules {i : Instr} {s t : State} (h : SameStream s t) : FlagRules i s t := by
  obtain ⟨-, -, hbusy, hdisc, -, -⟩ := h
  exact flagRules_of_same hbusy hdisc

theorem ingest_flagRules (c : Bytes) (s : State) (hd : s.disc = false) :
    FlagRules (.portIngest c) s (ingest c s) := by
  obtain ⟨hc, he⟩ | ⟨hc, he⟩ := ingest_cases c s <;> rw [he]
  · simp +contextual [FlagRules, hd, hc]
  · simp [FlagRules, hd, hc]

theorem Transaction.flagRules {i : Instr} {s t : State} (h : Transaction i s t) : FlagRules i s t := by
  cases h with
  | dstep hb h =>
    obtain ⟨-, hdisc, -⟩ := decodeIteration_stream h
    simp +contextual [FlagRules, hb, hdisc]
  | packet hb hd h =>
    obtain ⟨-, hdisc, -⟩ := decodeIteration_stream h
    exact flagRules_of_same (decodeIteration_busy_of_decodePacket hd h) hdisc
  | ingest c hb hd => exact ingest_flagRules c s hd
  | reset => simp [FlagRules]
  | encode name params => exact flagRules_of_same rfl rfl
  | diagRead n => exact flagRules_of_same rfl rfl
  | await n hw => exact (awaitReply_sameStream n s).flagRules
  | tick => exact (tick_sameStream s).flagRules
  | ping hw hi => exact (pingWith_sameStream _ s).flagRules
  | send name params => exact (sendCommand_sameStream name params s).flagRules

/-- Settles O55: INGEST, DSTEP and RESET set flags by their rules; a packet row keeps the Decoder running,
and every other transaction keeps both flags. -/
theorem flagsChangeOnlyByTheirRules : Obligations.FlagsChangeOnlyByTheirRules := by
  unfold Obligations.FlagsChangeOnlyByTheirRules
  exact fun _ _ _ h => (exec_transaction h).flagRules

end Sys2Proof.Machine

/-! ## O52: the diagnostic file influences no other rule (R29) -/

namespace Sys2Proof.Machine

section
variable (s : State)

@[simp] theorem State.eraseDiag_cfg : s.eraseDiag.cfg = s.cfg := rfl
@[simp] theorem State.eraseDiag_buf : s.eraseDiag.buf = s.buf := rfl
@[simp] theorem State.eraseDiag_busy : s.eraseDiag.busy = s.busy := rfl
@[simp] theorem State.eraseDiag_q : s.eraseDiag.q = s.q := rfl
@[simp] theorem State.eraseDiag_waiter : s.eraseDiag.waiter = s.waiter := rfl
@[simp] theorem State.eraseDiag_offers : s.eraseDiag.offers = s.offers := rfl
@[simp] theorem State.eraseDiag_mayWait : s.eraseDiag.mayWait = s.mayWait := rfl
@[simp] theorem State.eraseDiag_mayIngest : s.eraseDiag.mayIngest = s.mayIngest := rfl
@[simp] theorem State.eraseDiag_memRead (off n : Nat) : s.eraseDiag.memRead off n = s.memRead off n := rfl

end

/-- An operation whose effect on the rest of the state does not depend on the diagnostic file. -/
def DiagBlind (f : State → State) : Prop :=
  ∀ ⦃s t : State⦄, s.eraseDiag = t.eraseDiag → (f s).eraseDiag = (f t).eraseDiag

/-- An outcome without the diagnostic file of its next state. -/
def eraseDiagOf : Result → Result
  | .next s => .next s.eraseDiag
  | .fault r => .fault r
  | .refused r => .refused r

/-- A meaning whose outcome, but for the diagnostic file, does not depend on that file. -/
def OutcomeBlind (f : State → Result) : Prop :=
  ∀ ⦃s t : State⦄, s.eraseDiag = t.eraseDiag → eraseDiagOf (f s) = eraseDiagOf (f t)

theorem sameButDiag_iff (r r' : Result) : SameButDiag r r' ↔ eraseDiagOf r = eraseDiagOf r' := by
  cases r <;> cases r' <;> simp [SameButDiag, eraseDiagOf]

/-- It is enough to compare with the state whose file is erased. -/
theorem DiagBlind.of_erase {f : State → State} (h : ∀ s, (f s.eraseDiag).eraseDiag = (f s).eraseDiag) :
    DiagBlind f := fun s t hst => by rw [← h s, hst, h t]

theorem OutcomeBlind.of_erase {f : State → Result}
    (h : ∀ s, eraseDiagOf (f s.eraseDiag) = eraseDiagOf (f s)) : OutcomeBlind f :=
  fun s t hst => by rw [← h s, hst, h t]

/-- A test that does not read the file takes the same branch in both states. -/
theorem apply_ite_congr {α β : Type} (g : α → β) {c d : Prop} [Decidable c] [Decidable d] {a b a' b' : α}
    (h : c ↔ d) (ha : g a = g a') (hb : g b = g b') : g (if c then a else b) = g (if d then a' else b') := by
  by_cases hd : d
  · rw [if_pos (h.mpr hd), if_pos hd, ha]
  · rw [if_neg (mt h.mp hd), if_neg hd, hb]

theorem DiagBlind.next {f : State → State} (hf : DiagBlind f) : OutcomeBlind (fun s => .next (f s)) :=
  fun _ _ hst => congrArg Host.Outcome.next (hf hst)

theorem OutcomeBlind.whenEnabled {ok : State → Bool} {f : State → Result}
    (hok : ∀ s : State, ok s.eraseDiag = ok s) (hf : OutcomeBlind f) :
    OutcomeBlind (fun s => whenEnabled (ok s) (f s)) := .of_erase fun s =>
  apply_ite_congr eraseDiagOf (by rw [hok]) (hf rfl) rfl

theorem OutcomeBlind.whenAtHead {i : Instr} {f : State → State} (hf : DiagBlind f) :
    OutcomeBlind (fun s => whenAtHead i s (f s)) :=
  .whenEnabled State.eraseDiag_busy <| .of_erase fun _ => apply_ite_congr eraseDiagOf Iff.rfl (hf.next rfl) rfl

/-! ### The correlator and the command encoder -/

theorem completePing_diagBlind (text : Bytes) : DiagBlind (completePing text) := .of_erase fun _ =>
  apply_ite_congr State.eraseDiag Iff.rfl rfl rfl

theorem overflow_diagBlind (text : Bytes) : DiagBlind (overflow text) := .of_erase fun s => by
  simp only [overflow, State.eraseDiag_cfg]
  cases s.cfg.overflow <;> rfl

theorem enqueueReply_diagBlind (text : Bytes) : DiagBlind (enqueueReply text) := .of_erase fun s => by
  simp only [enqueueReply, State.eraseDiag_waiter, State.eraseDiag_q, State.eraseDiag_cfg]
  cases s.waiter with
  | await r => rfl
  | ping r => exact completePing_diagBlind text rfl
  | idle => exact apply_ite_congr State.eraseDiag Iff.rfl rfl (overflow_diagBlind text rfl)

theorem awaitReply_diagBlind (n : Nat) : DiagBlind (awaitReply n) := .of_erase fun s => by
  simp only [awaitReply, State.eraseDiag_q]
  cases s.q with
  | cons x rest => rfl
  | nil => exact apply_ite_congr State.eraseDiag Iff.rfl rfl rfl

theorem tick_diagBlind : DiagBlind tick := .of_erase fun s => by
  simp only [tick, State.eraseDiag_waiter]
  cases s.waiter with
  | idle => rfl
  | await r => exact apply_ite_congr State.eraseDiag Iff.rfl rfl rfl
  | ping r => exact apply_ite_congr State.eraseDiag Iff.rfl rfl rfl

theorem pingWith_diagBlind (line : Bytes) : DiagBlind (pingWith line) := .of_erase fun s => by
  simp only [pingWith, State.eraseDiag_q, State.eraseDiag_cfg]
  cases s.q with
  | cons x rest => exact completePing_diagBlind x rfl
  | nil => exact apply_ite_congr State.eraseDiag Iff.rfl rfl rfl

theorem sendCommand_diagBlind (name : Bytes) (params : List Bytes) : DiagBlind (sendCommand name params) :=
  .of_erase fun s => by
    unfold sendCommand
    cases encodeCommand name params <;> rfl

/-! ### The frame synchronizer -/

theorem State.trim_diagBlind (n : Nat) : DiagBlind (State.trim · n) := .of_erase fun _ => rfl

theorem dispatchData_diagBlind (body : Bytes) : DiagBlind (dispatchData body) := .of_erase fun s => by
  simp only [dispatchData, State.eraseDiag_cfg]
  cases decodeData s.cfg body <;> rfl

theorem dispatchString_diagBlind (body : Bytes) : DiagBlind (dispatchString body) := .of_erase fun s => by
  unfold dispatchString
  cases decodeString body with
  | some text => exact enqueueReply_diagBlind text rfl
  | none => rfl

theorem dispatchUnknown_diagBlind (ty : Byte) : DiagBlind (dispatchUnknown ty) := .of_erase fun _ => rfl

theorem dispatch_diagBlind (ty : Byte) (p : Bytes) : DiagBlind (dispatch ty p) := by
  intro s t hst
  simp only [dispatch]
  split_ifs
  · exact dispatchData_diagBlind _ hst
  · exact dispatchString_diagBlind _ hst
  · exact dispatchUnknown_diagBlind ty hst

theorem discardShortHeader_diagBlind (n : Nat) : DiagBlind (discardShortHeader n) := .of_erase fun _ => rfl

theorem ingest_diagBlind (c : Bytes) : DiagBlind (ingest c) := .of_erase fun _ =>
  apply_ite_congr State.eraseDiag Iff.rfl rfl rfl

theorem noMarker_diagBlind : DiagBlind noMarker := .of_erase fun s =>
  apply_ite_congr (fun t : State => (t.trim (s.buf.length - tailKeep s.buf)).suspend.eraseDiag) Iff.rfl rfl rfl

theorem discardNoise_diagBlind (i : Nat) : DiagBlind (discardNoise i) := .of_erase fun _ =>
  apply_ite_congr State.eraseDiag Iff.rfl rfl rfl

theorem incomplete_diagBlind : DiagBlind incomplete := .of_erase fun s => by
  simp only [incomplete, State.eraseDiag_cfg, State.eraseDiag_buf]
  cases s.cfg.watermark with
  | none => rfl
  | some w => exact apply_ite_congr State.eraseDiag Iff.rfl rfl rfl

theorem gate_outcomeBlind (ty : Byte) (len : Nat) : OutcomeBlind (gate ty len) := .of_erase fun s => by
  refine apply_ite_congr eraseDiagOf Iff.rfl (incomplete_diagBlind.next rfl) ?_
  rw [State.eraseDiag_memRead]
  cases s.memRead 0 len with
  | none => rfl
  | some p => exact (dispatch_diagBlind ty p).next (State.trim_diagBlind len rfl)

theorem decodeHead_outcomeBlind : OutcomeBlind decodeHead := .of_erase fun s => by
  refine apply_ite_congr eraseDiagOf Iff.rfl rfl ?_
  rw [State.eraseDiag_memRead]
  cases s.memRead 0 hdrSize with
  | none => rfl
  | some h => exact apply_ite_congr eraseDiagOf Iff.rfl rfl (gate_outcomeBlind _ _ rfl)

theorem decodeIteration_outcomeBlind : OutcomeBlind decodeIteration := .of_erase fun s => by
  simp only [decodeIteration, State.eraseDiag_buf]
  cases findMarker s.buf with
  | none => exact noMarker_diagBlind.next rfl
  | some i => exact decodeHead_outcomeBlind (discardNoise_diagBlind i rfl)

/-! ### Every instruction, and the step -/

/-- The effect of a packet row, once its bytes have left the buffer. -/
theorem DiagBlind.after_trim {f : State → State} (hf : DiagBlind f) (n : Nat) : DiagBlind (fun s => f (s.trim n)) :=
  fun _ _ hst => hf (State.trim_diagBlind n hst)

/-- What DIAG_READ reads goes only where `eraseDiag` does not look. -/
theorem exec_outcomeBlind (i : Instr) : OutcomeBlind (exec i) := by
  cases i with
  | pktData body => exact .whenAtHead ((dispatchData_diagBlind body).after_trim _)
  | pktString body => exact .whenAtHead ((dispatchString_diagBlind body).after_trim _)
  | pktStringPong => exact .whenAtHead ((dispatchString_diagBlind pongText).after_trim _)
  | pktUnknown ty body => exact .whenAtHead ((dispatchUnknown_diagBlind ty).after_trim _)
  | pktShortLength ty lll => exact .whenAtHead (discardShortHeader_diagBlind _)
  | cmdLine name params => exact .of_erase fun _ => rfl
  | cmdPing => exact .whenEnabled State.eraseDiag_mayWait (pingWith_diagBlind _).next
  | portIngest chunk => exact .whenEnabled State.eraseDiag_mayIngest (ingest_diagBlind chunk).next
  | portDstep => exact .whenEnabled State.eraseDiag_busy decodeIteration_outcomeBlind
  | portAwait n => exact .whenEnabled State.eraseDiag_mayWait (awaitReply_diagBlind n).next
  | portTick => exact tick_diagBlind.next
  | portSend name params => exact (sendCommand_diagBlind name params).next
  | portPing =>
    exact .whenEnabled State.eraseDiag_mayWait <|
      .of_erase fun s => (pingWith_diagBlind (lineBytes s.cfg.pingCmd [])).next rfl
  | portReset => exact .of_erase fun _ => rfl
  | portDiagRead idx => exact .of_erase fun _ => rfl

theorem enabled_eraseDiag (i : Instr) (s : State) : enabled i s.eraseDiag = enabled i s := by
  cases i <;> rfl

theorem firstEnabled_eraseDiag (s : State) (l : List Instr) : firstEnabled s.eraseDiag l = firstEnabled s l := by
  induction l with
  | nil => rfl
  | cons i rest ih => rw [firstEnabled, firstEnabled, enabled_eraseDiag, ih]

/-- The file does not bear on which offer is taken. -/
theorem takeOffer_eraseDiag (s : State) :
    s.eraseDiag.takeOffer = s.takeOffer.map (fun x => (x.1, x.2.eraseDiag)) := by
  simp only [State.takeOffer, State.eraseDiag_offers, firstEnabled_eraseDiag, Option.map_map]
  rfl

theorem step_outcomeBlind : OutcomeBlind step := .of_erase fun s => by
  refine apply_ite_congr eraseDiagOf Iff.rfl ?_ rfl
  rw [takeOffer_eraseDiag]
  cases s.takeOffer with
  | some x => exact exec_outcomeBlind x.1 rfl
  | none => exact apply_ite_congr eraseDiagOf Iff.rfl (exec_outcomeBlind .portDstep rfl) rfl

/-- Settles O52: no operation of the block reads the file but DIAG_READ, and it only returns the value. -/
theorem diagnosticsInfluenceNothing : Obligations.DiagnosticsInfluenceNothing := by
  unfold Obligations.DiagnosticsInfluenceNothing
  exact fun s t hst => (sameButDiag_iff _ _).mpr (step_outcomeBlind hst)

end Sys2Proof.Machine

/-! ## O16: what an INGEST does (R22, R40, R100) -/

namespace Sys2Proof.Machine

theorem exec_portIngest_of_blocked (c : Bytes) {s : State} (h : s.busy = true ∨ s.disc = true) :
    exec (.portIngest c) s = .fault .notEnabled := by
  have hok : ¬ s.mayIngest = true := by
    rw [s.mayIngest_iff]
    rintro ⟨hb, hd⟩
    simp [hb, hd] at h
  exact if_neg hok

theorem exec_portIngest_of_free (c : Bytes) {s : State} (hb : s.busy = false) (hd : s.disc = false) :
    exec (.portIngest c) s = .next (ingest c s) :=
  if_pos (s.mayIngest_iff.mpr ⟨hb, hd⟩)

theorem ingest_of_le {c : Bytes} {s : State} (hc : c.length ≤ s.cfg.maxChunk) :
    ingest c s = { s with buf := s.buf ++ c, busy := true } := by
  obtain ⟨hlt, -⟩ | ⟨-, he⟩ := ingest_cases c s
  · exact absurd hc (Nat.not_le_of_lt hlt)
  · exact he

/-- An overload is one event of the diagnostics file (`State.raise_eq`), and a DISCONNECT. -/
theorem ingest_of_lt {c : Bytes} {s : State} (hc : s.cfg.maxChunk < c.length) :
    ∃ d, DiagAfter s.diag d 8 1 5 ∧ ingest c s =
      { s with buf := [], disc := true, diag := d, events := s.events ++ [.transportOverload c.length],
               trace := s.trace ++ [.disconnect] } := by
  obtain ⟨-, he⟩ | ⟨hle, -⟩ := ingest_cases c s
  · obtain ⟨d, hd, hr⟩ := State.raise_eq (.transportOverload c.length) s
    exact ⟨d, hd, by rw [he, hr]; rfl⟩
  · exact absurd hc (Nat.not_lt_of_le hle)

/-- Settles O16: INGEST is stopped by its guard, and behind it `ingest` appends or overloads. -/
theorem ingestAppendsOrOverloads : Obligations.IngestAppendsOrOverloads := by
  unfold Obligations.IngestAppendsOrOverloads
  refine fun c s => ⟨exec_portIngest_of_blocked c, fun hb hd hc => ?_, fun hb hd hc => ?_⟩
  · rw [exec_portIngest_of_free c hb hd, ingest_of_le hc]
  · obtain ⟨d, hdiag, he⟩ := ingest_of_lt hc
    exact ⟨d, hdiag, by rw [exec_portIngest_of_free c hb hd, he]⟩

end Sys2Proof.Machine

/-! ## O14, O15, O13: the decoder and the encoder are inverse to each other (R60 to R70, R78) -/

namespace Sys2Proof

/-! ### Packets -/

/-- The seven header bytes of a packet of type `t` and declared length `n` (R60). -/
def headerBytes (t : Byte) (n : Nat) : Bytes := marker ++ [t] ++ beEnc 2 n

theorem packetBytes_eq (t : Byte) (body : Bytes) :
    packetBytes t body = headerBytes t (7 + body.length) ++ body := rfl

theorem headerBytes_length (t : Byte) (n : Nat) : (headerBytes t n).length = 7 := rfl

theorem hdrLength_headerBytes (t : Byte) {n : Nat} (x : Bytes) (hn : n < 65536) :
    hdrLength (headerBytes t n ++ x) = n := by
  have hfield : hdrLength (headerBytes t n ++ x) = be (beEnc 2 n) := rfl
  rw [hfield, be_beEnc]
  exact Nat.mod_eq_of_lt hn

theorem hdrLength_packetBytes (t : Byte) {body : Bytes} (h : body.length ≤ 65528) :
    hdrLength (packetBytes t body) = 7 + body.length :=
  hdrLength_headerBytes t (n := 7 + body.length) body (by omega)

/-- Bytes with the marker and a whole header are that header and what follows it. -/
theorem eq_headerBytes_append {b : Bytes} (hm : hdrMarker b = marker) (h7 : 7 ≤ b.length) :
    b = headerBytes (hdrType b) (hdrLength b) ++ b.drop 7 := by
  obtain ⟨m0, m1, m2, m3, t, l1, l0, r, rfl⟩ := header_split b h7
  have hmarker : [m0, m1, m2, m3] = marker := hm
  have hlen : beEnc 2 (be [l1, l0]) = [l1, l0] := beEnc_be [l1, l0]
  change [m0, m1, m2, m3] ++ ([t, l1, l0] ++ r) = marker ++ [t] ++ beEnc 2 (be [l1, l0]) ++ r
  rw [hmarker, hlen]
  rfl

/-- What the packet decoder answers on a whole header, by the declared length (R106, R108, R109). -/
theorem decodePacket_headerBytes (t : Byte) {n : Nat} (x : Bytes) (hn : n < 65536) :
    decodePacket (headerBytes t n ++ x) =
      if n < 7 then .ok (.pktShortLength t (BitVec.ofNat 3 n), x)
      else if 7 + x.length < n then .error (.packetIncomplete n)
      else .ok (packetOfType t (x.take (n - 7)), x.drop (n - 7)) := by
  have hm : hdrMarker (headerBytes t n ++ x) = marker := rfl
  have ht : hdrType (headerBytes t n ++ x) = t := rfl
  have hlen : (headerBytes t n ++ x).length = 7 + x.length := by
    rw [List.length_append, headerBytes_length]
  have hdrop : (headerBytes t n ++ x).drop 7 = x := rfl
  simp only [decodePacket, hdrSize, hm, ht, hlen, hdrop, hdrLength_headerBytes t x hn, ne_eq,
    not_true_eq_false, if_false]
  rw [if_neg (by omega)]
  split_ifs with hs hc
  · rfl
  · rfl
  · have hbody : slice (headerBytes t n ++ x) 7 n = x.take (n - 7) := by
      rw [slice, List.drop_take, hdrop]
    have hrest : (headerBytes t n ++ x).drop n = x.drop (n - 7) := by
      rw [← hdrop, List.drop_drop, Nat.add_sub_cancel' (Nat.le_of_not_lt hs), hdrop]
    rw [hbody, hrest]

theorem decodePacket_shortHeader (t : Byte) {lll : BitVec 3} (rest : Bytes) (h : lll.toNat ≤ 6) :
    decodePacket (headerBytes t lll.toNat ++ rest) = .ok (.pktShortLength t lll, rest) := by
  rw [decodePacket_headerBytes t rest (by omega), if_pos (Nat.lt_succ_of_le h), BitVec.ofNat_toNat,
    BitVec.setWidth_eq]

theorem decodePacket_packetBytes (t : Byte) {body : Bytes} (rest : Bytes) (h : body.length ≤ 65528) :
    decodePacket (packetBytes t body ++ rest) = .ok (packetOfType t body, rest) := by
  rw [packetBytes_eq, List.append_assoc, decodePacket_headerBytes t _ (by omega), if_neg (by omega),
    if_neg (by rw [List.length_append]; omega), Nat.add_sub_cancel_left,
    List.take_left, List.drop_left]

/-- Whatever the packet decoder accepts is a short header or a whole packet, and the bytes after it. -/
theorem decodePacket_ok_bytes {b rest : Bytes} {i : Instr} (h : decodePacket b = .ok (i, rest)) :
    (∃ t, ∃ lll : BitVec 3, lll.toNat ≤ 6 ∧ i = .pktShortLength t lll ∧ b = headerBytes t lll.toNat ++ rest)
      ∨ ∃ t, ∃ body : Bytes, body.length ≤ 65528 ∧ i = packetOfType t body ∧ b = packetBytes t body ++ rest := by
  obtain ⟨hm, h7, -⟩ := Machine.decodePacket_ok h
  have hle := Machine.hdrLength_le b
  have hb := eq_headerBytes_append hm h7
  generalize hdrType b = t, hdrLength b = n, b.drop 7 = x at hb hle
  subst hb
  rw [decodePacket_headerBytes t x (by omega)] at h
  split_ifs at h with hs hc
  · obtain ⟨rfl, rfl⟩ : _ = i ∧ x = rest := by simpa using h
    have hlll : (BitVec.ofNat 3 n).toNat = n := by rw [BitVec.toNat_ofNat]; omega
    exact .inl ⟨t, BitVec.ofNat 3 n, by omega, rfl, by rw [hlll]⟩
  · obtain ⟨rfl, rfl⟩ : _ = i ∧ _ = rest := by simpa using h
    have hlen : (x.take (n - 7)).length = n - 7 := by rw [List.length_take]; omega
    refine .inr ⟨t, x.take (n - 7), by rw [hlen]; omega, rfl, ?_⟩
    rw [packetBytes_eq, hlen, Nat.add_sub_cancel' (Nat.le_of_not_lt hs), List.append_assoc, List.take_append_drop]

/-- The row a complete packet is read as: it is well-formed and canonical, and its encoding is the packet. -/
theorem packetOfType_spec (t : Byte) {body : Bytes} (h : body.length ≤ 65528) :
    (packetOfType t body).wellFormed = true ∧ (packetOfType t body).canonical = true
      ∧ encode (packetOfType t body) = some (packetBytes t body) := by
  unfold packetOfType
  split_ifs with h0 h1 hp
  · exact ⟨decide_eq_true h, rfl, by rw [h0]; rfl⟩
  · exact ⟨rfl, rfl, by rw [h1, hp]; rfl⟩
  · exact ⟨decide_eq_true h, bne_iff_ne.mpr hp, by rw [h1]; rfl⟩
  · have ht : 2 ≤ t.toNat := by
      have ht0 : t.toNat ≠ 0 := fun h => h0 (BitVec.eq_of_toNat_eq h)
      have ht1 : t.toNat ≠ 1 := fun h => h1 (BitVec.eq_of_toNat_eq h)
      omega
    exact ⟨by simp [Instr.wellFormed, ht, h], rfl, rfl⟩

/-! ### Command lines -/

theorem splitSpaces_ne_nil (b : Bytes) : splitSpaces b ≠ [] := by
  cases b with
  | nil => exact List.cons_ne_nil _ _
  | cons x r =>
    rw [splitSpaces]
    split_ifs
    · exact List.cons_ne_nil _ _
    · cases splitSpaces r with
      | nil => exact List.cons_ne_nil _ _
      | cons tok toks => exact List.cons_ne_nil _ _

/-- The text of a line: `name`, then a space and each parameter (R69). -/
def lineText (name : Bytes) (params : List Bytes) : Bytes := name ++ (params.map (fun p => 0x20 :: p)).flatten

theorem lineBytes_eq (name : Bytes) (params : List Bytes) :
    lineBytes name params = lineText name params ++ [0x0D] := rfl

theorem lineText_nil_cons (p : Bytes) (ps : List Bytes) : lineText [] (p :: ps) = 0x20 :: lineText p ps := rfl

theorem lineText_cons (x : Byte) (name : Bytes) (params : List Bytes) :
    lineText (x :: name) params = x :: lineText name params := rfl

theorem splitSpaces_space (r : Bytes) : splitSpaces (0x20 :: r) = [] :: splitSpaces r := rfl

theorem splitSpaces_cons {x : Byte} {r tok : Bytes} {toks : List Bytes} (hx : x ≠ 0x20)
    (hr : splitSpaces r = tok :: toks) : splitSpaces (x :: r) = (x :: tok) :: toks := by
  rw [splitSpaces, if_neg hx, hr]

/-- A run of bytes that are no space goes to the first token. -/
theorem splitSpaces_append {name r tok : Bytes} {toks : List Bytes} (hname : 0x20 ∉ name)
    (hr : splitSpaces r = tok :: toks) : splitSpaces (name ++ r) = (name ++ tok) :: toks := by
  induction name with
  | nil => exact hr
  | cons x name ih =>
    obtain ⟨hx, hname⟩ := List.ne_and_not_mem_of_not_mem_cons hname
    exact splitSpaces_cons (Ne.symm hx) (ih hname)

/-- Tokens without spaces, joined by spaces, are split again. -/
theorem splitSpaces_lineText {name : Bytes} {params : List Bytes} (hname : 0x20 ∉ name)
    (hparams : ∀ p ∈ params, 0x20 ∉ p) : splitSpaces (lineText name params) = name :: params := by
  induction params generalizing name with
  | nil =>
    have hsplit := splitSpaces_append hname (r := []) rfl
    rw [List.append_nil name] at hsplit
    simpa [lineText] using hsplit
  | cons p ps ih =>
    obtain ⟨hp, hps⟩ := List.forall_mem_cons.mp hparams
    have hsplit := splitSpaces_append hname ((splitSpaces_space _).trans (congrArg _ (ih hp hps)))
    rw [List.append_nil] at hsplit
    exact hsplit

/-- What a text is split into holds no space, and joined by spaces is the text. -/
theorem splitSpaces_spec {text name : Bytes} {params : List Bytes} (h : splitSpaces text = name :: params) :
    text = lineText name params ∧ 0x20 ∉ name ∧ ∀ p ∈ params, 0x20 ∉ p := by
  induction text generalizing name params with
  | nil =>
    obtain ⟨rfl, rfl⟩ : [] = name ∧ [] = params := List.cons.inj h
    exact ⟨rfl, List.not_mem_nil, fun p hp => absurd hp List.not_mem_nil⟩
  | cons x r ih =>
    obtain ⟨tok, toks, hr⟩ := List.exists_cons_of_ne_nil (splitSpaces_ne_nil r)
    obtain ⟨hjoin, htok, htoks⟩ := ih hr
    by_cases hx : x = 0x20
    · subst hx
      obtain ⟨rfl, rfl⟩ : [] = name ∧ tok :: toks = params := by
        rw [splitSpaces_space, hr] at h; exact List.cons.inj h
      exact ⟨by rw [lineText_nil_cons, hjoin], List.not_mem_nil, List.forall_mem_cons.mpr ⟨htok, htoks⟩⟩
    · obtain ⟨rfl, rfl⟩ : x :: tok = name ∧ toks = params := by
        rw [splitSpaces_cons hx hr] at h; exact List.cons.inj h
      exact ⟨by rw [lineText_cons, hjoin], List.not_mem_cons_of_ne_of_not_mem (Ne.symm hx) htok, htoks⟩

/-- A text is printable exactly when its tokens are: a space is printable. -/
theorem all_printable_lineText (name : Bytes) (params : List Bytes) :
    (lineText name params).all printable = (name.all printable && params.all (fun p => p.all printable)) := by
  have hspace : printable 0x20 = true := rfl
  rw [lineText, List.all_append, List.all_flatten, List.all_map]
  simp only [Function.comp_def, List.all_cons, hspace, Bool.true_and]

/-- The encoding of the row a line of the given tokens is read as. -/
theorem encode_lineOfTokens (name : Bytes) (params : List Bytes) :
    encode (lineOfTokens (name :: params)) = some (lineBytes name params) := by
  unfold lineOfTokens
  split_ifs with h
  · obtain ⟨rfl, rfl⟩ : name = pingText ∧ params = [] := List.cons.inj h
    rfl
  · rfl

/-- That row is well-formed and canonical when the tokens are printable and hold no space. -/
theorem lineOfTokens_admitted {name : Bytes} {params : List Bytes}
    (hprint : (lineText name params).all printable = true) (hname : 0x20 ∉ name) (hparams : ∀ p ∈ params, 0x20 ∉ p) :
    (lineOfTokens (name :: params)).wellFormed = true ∧ (lineOfTokens (name :: params)).canonical = true := by
  unfold lineOfTokens
  split_ifs with h
  · exact ⟨rfl, rfl⟩
  · refine ⟨(all_printable_lineText name params).symm.trans hprint, ?_⟩
    have hping : ¬ (name = pingText ∧ params = []) := by rintro ⟨rfl, rfl⟩; exact h rfl
    simpa [Instr.canonical, not_and_or.mp hping] using ⟨hname, hparams⟩

theorem printable_ne_cr {x : Byte} (h : printable x = true) : x ≠ 0x0D := by
  rintro rfl
  exact absurd h (by decide)

/-- A printable text up to its carriage return is the line. -/
theorem decodeLine_text {text : Bytes} (rest : Bytes) (h : text.all printable = true) :
    decodeLine (text ++ 0x0D :: rest) = .ok (lineOfTokens (splitSpaces text), rest) := by
  have htext : (text ++ 0x0D :: rest).takeWhile (fun x => x != 0x0D) = text := by
    rw [List.takeWhile_append_of_pos fun x hx => bne_iff_ne.mpr (printable_ne_cr (List.all_eq_true.mp h x hx)),
      List.takeWhile_cons_of_neg (by simp), List.append_nil]
  simp only [decodeLine, htext, h, List.length_append, List.length_cons, Bool.not_true, Bool.false_eq_true, if_false]
  rw [if_neg (by omega), List.drop_length_add_append]
  rfl

/-- Whatever the line decoder accepts is a printable text, its carriage return and the bytes after it. -/
theorem decodeLine_ok {b rest : Bytes} {i : Instr} (h : decodeLine b = .ok (i, rest)) :
    ∃ text : Bytes, text.all printable = true ∧ i = lineOfTokens (splitSpaces text) ∧ b = text ++ 0x0D :: rest := by
  simp only [decodeLine] at h
  split_ifs at h with hlen hprint
  obtain ⟨rfl, hrest⟩ : _ = i ∧ b.drop _ = rest := by simpa using h
  refine ⟨b.takeWhile (fun x => x != 0x0D), by simpa using hprint, rfl, ?_⟩
  have hsplit := List.takeWhile_append_dropWhile (p := fun x => x != 0x0D) (l := b)
  generalize b.takeWhile (fun x => x != 0x0D) = text at hsplit hlen hrest
  cases hcr : b.dropWhile (fun x => x != 0x0D) with
  | nil => rw [← hsplit, hcr, List.append_nil] at hlen; exact absurd le_rfl hlen
  | cons x r =>
    have hx : x = 0x0D := by
      have hhead := List.head?_dropWhile_not (fun x => x != 0x0D) b
      rw [hcr] at hhead
      simpa using hhead
    rw [hcr, hx] at hsplit
    rw [← hsplit, List.drop_length_add_append] at hrest
    rw [← hsplit, ← hrest]
    rfl

/-! ### Encoded objects -/

theorem decode_of_marker {b : Bytes} (hm : hdrMarker b = marker) : decode b = decodePacket b := if_pos hm

theorem hdrMarker_cons_ne {x : Byte} (r : Bytes) (hx : x ≠ 0xA5) : hdrMarker (x :: r) ≠ marker := by
  intro hm
  have hcons : x :: r.take 3 = 0xA5 :: [0xA5, 0xA5, 0xA5] := hm
  exact hx (List.cons.inj hcons).1

/-- Bytes that begin with a printable byte or a carriage return are read as a line. -/
theorem decode_cons_of_line {x : Byte} (r : Bytes) (hx : (printable x || x == 0x0D) = true) :
    decode (x :: r) = decodeLine (x :: r) := by
  have hne : x ≠ 0xA5 := by
    rintro rfl
    exact absurd hx (by decide)
  rw [decode, if_neg (hdrMarker_cons_ne r hne)]
  exact if_pos hx

theorem decode_text {text : Bytes} (rest : Bytes) (h : text.all printable = true) :
    decode (text ++ 0x0D :: rest) = .ok (lineOfTokens (splitSpaces text), rest) := by
  rw [← decodeLine_text rest h]
  cases text with
  | nil => exact decode_cons_of_line rest rfl
  | cons x text =>
    have hx : printable x = true := List.all_eq_true.mp h x List.mem_cons_self
    exact decode_cons_of_line _ (by rw [hx]; rfl)

/-- Every command line is read back, be its row CMD_LINE or CMD_PING. -/
theorem decode_lineBytes {name : Bytes} {params : List Bytes} (rest : Bytes)
    (hprint : (lineText name params).all printable = true) (hname : 0x20 ∉ name) (hparams : ∀ p ∈ params, 0x20 ∉ p) :
    decode (lineBytes name params ++ rest) = .ok (lineOfTokens (name :: params), rest) := by
  rw [lineBytes_eq, List.append_assoc, ← splitSpaces_lineText hname hparams]
  exact decode_text rest hprint

/-- Every packet is read back, whatever its type. -/
theorem decode_packetBytes (t : Byte) {body : Bytes} (rest : Bytes) (h : body.length ≤ 65528) :
    decode (packetBytes t body ++ rest) = .ok (packetOfType t body, rest) :=
  decodePacket_packetBytes t rest h

theorem decode_shortHeader (t : Byte) {lll : BitVec 3} (rest : Bytes) (h : lll.toNat ≤ 6) :
    decode (headerBytes t lll.toNat ++ rest) = .ok (.pktShortLength t lll, rest) :=
  decodePacket_shortHeader t rest h

/-- What the decoder accepts is a packet or a line. -/
theorem decode_ok {b rest : Bytes} {i : Instr} (h : decode b = .ok (i, rest)) :
    (hdrMarker b = marker ∧ decodePacket b = .ok (i, rest))
      ∨ (hdrMarker b ≠ marker ∧ decodeLine b = .ok (i, rest)) := by
  by_cases hm : hdrMarker b = marker
  · exact .inl ⟨hm, by rwa [decode_of_marker hm] at h⟩
  · cases b with
    | nil => cases h
    | cons x r =>
      rw [decode, if_neg hm] at h
      split_ifs at h
      exact .inr ⟨hm, h⟩

/-- Decoding an encoded instruction gives it back, one row at a time. -/
theorem decode_encode {i : Instr} {w : Bytes} (rest : Bytes) (hwf : i.wellFormed = true) (hc : i.canonical = true)
    (he : encode i = some w) : decode (w ++ rest) = .ok (i, rest) := by
  cases i with
  | pktData body =>
    cases he
    exact decode_packetBytes 0 rest (of_decide_eq_true hwf)
  | pktString body =>
    cases he
    have hrow : packetOfType 1 body = .pktString body := if_neg (bne_iff_ne.mp hc)
    rw [decode_packetBytes 1 rest (of_decide_eq_true hwf), hrow]
  | pktStringPong =>
    cases he
    exact decode_packetBytes 1 rest (by decide)
  | pktUnknown t body =>
    cases he
    obtain ⟨ht, hbody⟩ : 2 ≤ t.toNat ∧ body.length ≤ 65528 := by simpa [Instr.wellFormed] using hwf
    have hrow : packetOfType t body = .pktUnknown t body := by
      have h0 : t ≠ 0 := by rintro rfl; exact absurd ht (by decide)
      have h1 : t ≠ 1 := by rintro rfl; exact absurd ht (by decide)
      rw [packetOfType, if_neg h0, if_neg h1]
    rw [decode_packetBytes t rest hbody, hrow]
  | pktShortLength t lll =>
    cases he
    exact decode_shortHeader t rest (of_decide_eq_true hwf)
  | cmdLine name params =>
    cases he
    obtain ⟨⟨hping, hname⟩, hparams⟩ :
        ((name ≠ pingText ∨ params ≠ []) ∧ 0x20 ∉ name) ∧ ∀ p ∈ params, 0x20 ∉ p := by
      simpa [Instr.canonical] using hc
    have hrow : lineOfTokens (name :: params) = .cmdLine name params := if_neg fun h =>
      hping.elim (absurd (List.cons.inj h).1) (absurd (List.cons.inj h).2)
    rw [decode_lineBytes rest ((all_printable_lineText name params).trans hwf) hname hparams, hrow]
  | cmdPing =>
    cases he
    exact decode_lineBytes (name := pingText) (params := []) rest (by decide) (by decide) (by decide)
  | portIngest chunk => cases he
  | portDstep => cases he
  | portAwait n => cases he
  | portTick => cases he
  | portSend name params => cases he
  | portPing => cases he
  | portReset => cases he
  | portDiagRead idx => cases he

/-- Whatever decodes is an encoding, of a term the decoder can answer with. -/
theorem decode_ok_encoding {b rest : Bytes} {i : Instr} (h : decode b = .ok (i, rest)) :
    i.wellFormed = true ∧ i.canonical = true ∧ ∃ w, encode i = some w ∧ b = w ++ rest := by
  obtain ⟨-, hp⟩ | ⟨-, hl⟩ := decode_ok h
  · obtain ⟨t, lll, hlll, rfl, hb⟩ | ⟨t, body, hbody, rfl, hb⟩ := decodePacket_ok_bytes hp
    · exact ⟨decide_eq_true hlll, rfl, _, rfl, hb⟩
    · obtain ⟨hwf, hc, he⟩ := packetOfType_spec t hbody
      exact ⟨hwf, hc, _, he, hb⟩
  · obtain ⟨text, hprint, rfl, hb⟩ := decodeLine_ok hl
    obtain ⟨name, params, hs⟩ := List.exists_cons_of_ne_nil (splitSpaces_ne_nil text)
    obtain ⟨rfl, hname, hparams⟩ := splitSpaces_spec hs
    rw [hs]
    obtain ⟨hwf, hc⟩ := lineOfTokens_admitted hprint hname hparams
    exact ⟨hwf, hc, _, encode_lineOfTokens name params, by rw [hb, lineBytes_eq, List.append_assoc]; rfl⟩

/-- Settles O14, one row at a time: a packet is read back through its declared length, a line through its
split at the spaces. -/
theorem decodeInvertsEncode : Obligations.DecodeInvertsEncode := by
  unfold Obligations.DecodeInvertsEncode
  exact fun i w rest => decode_encode rest

/-- Settles O15: what the packet decoder accepts is a short header or a whole packet, what the line decoder
accepts a printable text and its carriage return. -/
theorem decodedBytesAreTheEncoding : Obligations.DecodedBytesAreTheEncoding := by
  unfold Obligations.DecodedBytesAreTheEncoding
  exact fun b rest i => decode_ok_encoding

/-- Bytes written out by hand that are an encoding followed by `rest`. -/
theorem decode_of_encode_append {i : Instr} {b rest : Bytes} (hwf : i.wellFormed = true) (hc : i.canonical = true)
    (hb : (encode i).map (· ++ rest) = some b) : decode b = .ok (i, rest) := by
  obtain ⟨w, he, rfl⟩ := Option.map_eq_some_iff.mp hb
  exact decode_encode rest hwf hc he

/-- Settles O13: each word is the encoding of its instruction, so it is read back as O14 says. -/
theorem specWordsDecode : Obligations.SpecWordsDecode := by
  unfold Obligations.SpecWordsDecode
  exact ⟨decode_of_encode_append (by decide) rfl rfl, decode_of_encode_append (by decide) rfl rfl,
    decode_of_encode_append rfl rfl rfl, decode_of_encode_append (by decide) rfl rfl,
    decode_of_encode_append rfl rfl rfl, decode_of_encode_append rfl rfl rfl, decode_of_encode_append rfl rfl rfl⟩

end Sys2Proof

/-! ## O27, O28: a serialized packet through the machine, in any chunking (R76 to R79) -/

namespace Sys2Proof

/-! ### Slices of appended strings -/

theorem slice_append_left {a : Bytes} (p : Bytes) {i j : Nat} (hj : j ≤ a.length) :
    slice (a ++ p) i j = slice a i j := by
  rw [slice, List.take_append_of_le_length hj, slice]

theorem slice_append_right (a p : Bytes) (i j : Nat) :
    slice (a ++ p) (a.length + i) (a.length + j) = slice p i j := by
  rw [slice, List.take_length_add_append, List.drop_length_add_append, slice]

theorem slice_all (b : Bytes) : slice b 0 b.length = b := List.take_length

/-- What stands between `a` and `p`. -/
theorem slice_append_middle (a x p : Bytes) : slice (a ++ (x ++ p)) a.length (a.length + x.length) = x := by
  have h := slice_append_right a (x ++ p) 0 x.length
  rw [slice_append_left p le_rfl, slice_all] at h
  exact h

namespace Machine

/-! ### A retained buffer is where a loop run ends (R34, R103, R105, R108) -/

/-- A beginning of the marker is no noise, and holds no marker. -/
theorem findMarker_markerPrefix {b : Bytes} (h3 : b.length ≤ 3) (hb : b = marker.take b.length) :
    findMarker b = none ∧ tailKeep b = b.length := by
  generalize b.length = k at h3 hb
  subst hb
  interval_cases k <;> decide

theorem decodeIteration_of_head {s : State} (hm : hdrMarker s.buf = marker) : decodeIteration s = decodeHead s := by
  simp [decodeIteration, findMarker_of_head hm, discardNoise]

/-- From a retained buffer an iteration only suspends the loop. -/
theorem decodeIteration_of_retained {s : State} (h : RetainedForm s.cfg s.buf) :
    decodeIteration s = .next s.suspend := by
  obtain ⟨h3, hb⟩ | ⟨hm, h7⟩ | ⟨hm, h7, hl, hc, hw⟩ := h
  · obtain ⟨hnone, hkeep⟩ := findMarker_markerPrefix h3 hb
    have hquiet : noMarker s = s.suspend := by
      obtain ⟨hpos, -⟩ | ⟨hzero, he⟩ := noMarker_cases s
      · omega
      · rw [he, hzero]; rfl
    simp [decodeIteration, hnone, hquiet]
  · rw [decodeIteration_of_head hm]
    obtain ⟨-, he⟩ | ⟨hge, -⟩ | ⟨hge, -⟩ | ⟨hge, hle, -⟩ := decodeHead_cases s
    · exact he
    · omega
    · omega
    · omega
  · rw [decodeIteration_of_head hm]
    obtain ⟨hlt, -⟩ | ⟨-, hlt, -⟩ | ⟨-, -, -, he⟩ | ⟨-, hle, -⟩ := decodeHead_cases s
    · omega
    · omega
    · rw [he]
      obtain ⟨-, hi⟩ | ⟨w, hw', hlt, -⟩ := incomplete_cases s
      · rw [hi]
      · have := of_decide_eq_true ((Option.all_eq_true _ _).mp hw w hw')
        omega
    · omega

/-- With no watermark, a part of a packet is retained until the rest comes. -/
theorem retainedForm_of_packet_prefix {c : Config} {ty : Byte} {b body : Bytes} (hw : c.watermark = none)
    (hbody : body.length ≤ 65528) (hp : b <+: packetBytes ty body) (hne : b ≠ packetBytes ty body) :
    RetainedForm c b := by
  have hlt : b.length < 7 + body.length := by
    have hle := hp.length_le
    have hlen := Laws.EncodingSize.packetBytes_length ty body
    have := mt hp.eq_of_length hne
    omega
  obtain h3 | h4 := Nat.lt_or_ge b.length 4
  · have hm : b <+: marker := List.prefix_of_prefix_length_le hp ⟨_, rfl⟩ (Nat.le_of_lt h3)
    exact .inl ⟨Nat.le_of_lt_succ h3, List.prefix_iff_eq_take.mp hm⟩
  obtain ⟨r, hr⟩ := hp
  have hm : hdrMarker b = marker := by
    rw [hdrMarker, ← slice_append_left r h4, hr]; rfl
  obtain h7 | h7 := Nat.lt_or_ge b.length 7
  · exact .inr (.inl ⟨hm, h7⟩)
  · have hl : hdrLength b = 7 + body.length := by
      rw [hdrLength, ← slice_append_left r h7, hr]
      exact hdrLength_packetBytes ty hbody
    exact .inr (.inr ⟨hm, h7, by omega, by omega, by rw [hw]; rfl⟩)

/-! ### Loop runs -/

theorem drain_of_suspended {s : State} (fuel : Nat) (hb : s.busy = false) : drain fuel s = s := by
  cases fuel with
  | zero => rfl
  | succ fuel => simp [drain, hb]

theorem drain_succ {s t : State} (fuel : Nat) (hb : s.busy = true) (h : decodeIteration s = .next t) :
    drain (fuel + 1) s = drain fuel t := by
  have hexec : exec .portDstep s = .next t := whenEnabled_next.mpr ⟨hb, h⟩
  simp [drain, hb, hexec]

theorem drain_of_retained {s : State} (fuel : Nat) (hb : s.busy = true) (h : RetainedForm s.cfg s.buf) :
    drain (fuel + 1) s = s.suspend := by
  rw [drain_succ fuel hb (decodeIteration_of_retained h), drain_of_suspended fuel rfl]

/-- Feeding a chunk to an idle connected block is a loop run on the buffer with the chunk appended (R76). -/
theorem feed_eq_drain {s : State} {c : Bytes} (hb : s.busy = false) (hd : s.disc = false)
    (hc : c.length ≤ s.cfg.maxChunk) :
    feed s c = drain ((s.buf ++ c).length + 1) { s with buf := s.buf ++ c, busy := true } := by
  simp only [feed, exec_portIngest_of_free c hb hd, ingest_of_le hc]

theorem State.suspend_of_idle {s : State} (hb : s.busy = false) : s.suspend = s := by
  rw [State.suspend, ← hb]

/-- A chunk that leaves the buffer a retained form is only appended. -/
theorem feed_retained {s : State} {c : Bytes} (hb : s.busy = false) (hd : s.disc = false)
    (hc : c.length ≤ s.cfg.maxChunk) (h : RetainedForm s.cfg (s.buf ++ c)) :
    feed s c = { s with buf := s.buf ++ c } := by
  rw [feed_eq_drain hb hd hc, drain_of_retained _ rfl h]
  exact State.suspend_of_idle (s := { s with buf := s.buf ++ c }) hb

/-! ### Dispatch does not look at `busy` -/

theorem completePing_suspend (text : Bytes) (s : State) :
    (completePing text s).suspend = completePing text s.suspend :=
  apply_ite State.suspend (text = s.cfg.pongToken) _ _

theorem overflow_suspend (text : Bytes) (s : State) :
    (overflow text s).suspend = overflow text s.suspend := by
  simp only [overflow, State.suspend_cfg]
  cases s.cfg.overflow <;> rfl

theorem enqueueReply_suspend (text : Bytes) (s : State) :
    (enqueueReply text s).suspend = enqueueReply text s.suspend := by
  simp only [enqueueReply, State.suspend_waiter, State.suspend_q, State.suspend_cfg]
  cases s.waiter with
  | await r => rfl
  | ping r => exact completePing_suspend text s
  | idle =>
    simp only [apply_ite State.suspend, overflow_suspend]
    rfl

theorem dispatchData_suspend (body : Bytes) (s : State) :
    (dispatchData body s).suspend = dispatchData body s.suspend := by
  simp only [dispatchData, State.suspend_cfg]
  cases decodeData s.cfg body <;> rfl

theorem dispatchString_suspend (body : Bytes) (s : State) :
    (dispatchString body s).suspend = dispatchString body s.suspend := by
  unfold dispatchString
  cases decodeString body with
  | some text => exact enqueueReply_suspend text (s.count .stringOk 1)
  | none => rfl

theorem dispatch_suspend (ty : Byte) (p : Bytes) (s : State) :
    (dispatch ty p s).suspend = dispatch ty p s.suspend := by
  simp only [dispatch]
  split_ifs
  · exact dispatchData_suspend _ s
  · exact dispatchString_suspend _ s
  · rfl

/-! ### A packet, whole and in chunks -/

/-- A packet that fills the buffer is dispatched, and leaves the buffer empty (R109, R111). -/
theorem decodeIteration_packetBytes {s : State} {ty : Byte} {body : Bytes} (hbody : body.length ≤ 65528)
    (hp : s.buf = packetBytes ty body) :
    decodeIteration s = .next (dispatch ty (packetBytes ty body) { s with buf := [] }) := by
  have hd : decodePacket s.buf = .ok (packetOfType ty body, []) := by
    rw [hp, ← List.append_nil (packetBytes ty body), decodePacket_packetBytes ty [] hbody]
  have hlen : hdrLength s.buf = s.buf.length := by
    rw [hp, Laws.EncodingSize.packetBytes_length]
    exact hdrLength_packetBytes ty hbody
  have htrim : s.trim s.buf.length = { s with buf := [] } := by rw [State.trim, List.drop_length]
  have htype : hdrType s.buf = ty := by rw [hp]; rfl
  obtain ⟨hlt, -, -⟩ | ⟨-, -, -, he⟩ := decodeIteration_of_decodePacket hd
  · rw [hlen, hp, Laws.EncodingSize.packetBytes_length] at hlt
    omega
  · rw [he, hlen, slice_all, htrim, htype, hp]

/-- The chunk that completes a packet has it dispatched; nothing else happens. -/
theorem feed_packet {s : State} {c body : Bytes} {ty : Byte} (hb : s.busy = false) (hd : s.disc = false)
    (hc : c.length ≤ s.cfg.maxChunk) (hbody : body.length ≤ 65528) (hp : s.buf ++ c = packetBytes ty body) :
    feed s c = dispatch ty (packetBytes ty body) { s with buf := [] } := by
  rw [feed_eq_drain hb hd hc,
    drain_succ _ rfl (decodeIteration_packetBytes (s := { s with buf := s.buf ++ c, busy := true }) hbody hp)]
  obtain ⟨hcfg, hbuf, hbusy, -⟩ := dispatch_sameStream ty (packetBytes ty body) { s with buf := [], busy := true }
  obtain ⟨fuel, hfuel⟩ : ∃ fuel, (s.buf ++ c).length = fuel + 1 := by
    rw [hp, Laws.EncodingSize.packetBytes_length]
    exact ⟨6 + body.length, by omega⟩
  rw [hfuel, drain_of_retained fuel hbusy (by rw [hbuf]; exact retainedForm_nil _), dispatch_suspend]
  exact congrArg _ (State.suspend_of_idle (s := { s with buf := [] }) hb)

/-- Chunks without bytes change nothing. -/
theorem feedAll_empty {s : State} {cs : List Bytes} (hb : s.busy = false) (hd : s.disc = false)
    (hs : RetainedForm s.cfg s.buf) (h : cs.flatten = []) : feedAll s cs = s := by
  induction cs with
  | nil => rfl
  | cons c cs ih =>
    obtain ⟨rfl, hcs⟩ : c = [] ∧ cs.flatten = [] := List.append_eq_nil_iff.mp h
    have hfeed : feed s [] = s := by
      rw [feed_retained hb hd (Nat.zero_le _) (by rwa [List.append_nil]), List.append_nil]
    rw [feedAll, List.foldl_cons, hfeed]
    exact ih hcs

/-- A packet fed chunk by chunk, the first bytes of it in the buffer, is dispatched once. -/
theorem feedAll_packet {s : State} {cs : List Bytes} {ty : Byte} {body : Bytes} (hb : s.busy = false)
    (hd : s.disc = false) (hw : s.cfg.watermark = none) (hcs : ∀ c ∈ cs, c.length ≤ s.cfg.maxChunk)
    (hbody : body.length ≤ 65528) (hp : s.buf ++ cs.flatten = packetBytes ty body)
    (hne : s.buf ≠ packetBytes ty body) :
    feedAll s cs = dispatch ty (packetBytes ty body) { s with buf := [] } := by
  induction cs generalizing s with
  | nil => exact absurd (by simpa using hp) hne
  | cons c cs ih =>
    obtain ⟨hc, hcs⟩ := List.forall_mem_cons.mp hcs
    rw [List.flatten_cons, ← List.append_assoc] at hp
    rw [feedAll, List.foldl_cons, ← feedAll]
    by_cases hwhole : s.buf ++ c = packetBytes ty body
    · have hrest : cs.flatten = [] := by simpa [hwhole] using hp
      obtain ⟨-, hbuf, hbusy, hdisc, -⟩ := dispatch_sameStream ty (packetBytes ty body) { s with buf := [] }
      rw [feed_packet hb hd hc hbody hwhole]
      exact feedAll_empty (hbusy.trans hb) (hdisc.trans hd) (by rw [hbuf]; exact retainedForm_nil _) hrest
    · rw [feed_retained hb hd hc (retainedForm_of_packet_prefix hw hbody ⟨_, hp⟩ hwhole)]
      exact ih hb hd hw hcs hp hwhole

/-- The same from an empty buffer. -/
theorem feedAll_packetBytes {s : State} {cs : List Bytes} {ty : Byte} {body : Bytes} (hb : s.busy = false)
    (hd : s.disc = false) (hbuf : s.buf = []) (hw : s.cfg.watermark = none)
    (hcs : ∀ c ∈ cs, c.length ≤ s.cfg.maxChunk) (hbody : body.length ≤ 65528)
    (hp : cs.flatten = packetBytes ty body) : feedAll s cs = dispatch ty (packetBytes ty body) s := by
  have hempty : ({ s with buf := [] } : State) = s := by rw [← hbuf]
  have hne : s.buf ≠ packetBytes ty body := by rw [hbuf]; exact (List.cons_ne_nil _ _).symm
  rw [feedAll_packet hb hd hw hcs hbody (by rw [hbuf, hp, List.nil_append]) hne, hempty]

theorem slice_packetBytes (ty : Byte) (body : Bytes) :
    slice (packetBytes ty body) hdrSize (packetBytes ty body).length = body := by
  rw [slice, List.take_length, packetBytes_eq, List.drop_left' (headerBytes_length ty _)]

theorem dispatch_packetBytes_data (body : Bytes) (s : State) :
    dispatch 0 (packetBytes 0 body) s = dispatchData body s := by
  rw [dispatch, slice_packetBytes]; rfl

theorem dispatch_packetBytes_string (body : Bytes) (s : State) :
    dispatch 1 (packetBytes 1 body) s = dispatchString body s := by
  rw [dispatch, slice_packetBytes]; rfl

/-- Settles O28: the packet is dispatched once, and its text passes the STRING decoder unchanged. -/
theorem stringPacketRoundTrip : Obligations.StringPacketRoundTrip := by
  unfold Obligations.StringPacketRoundTrip
  intro s text cs hb hd hbuf hw hcs hvalid hlen hp
  obtain ⟨d, hcount, he⟩ := State.count_eq .stringOk s
  have htext : decodeString text = some text := if_pos hvalid
  refine ⟨d, hcount, ?_⟩
  rw [feedAll_packetBytes hb hd hbuf hw hcs hlen hp, dispatch_packetBytes_string, ← he]
  simp only [dispatchString, htext]

end Machine

end Sys2Proof

/-! ## O27: what the DATA decoder makes of a serialized DataPacket (R130 to R136, R77, R78) -/

namespace Sys2Proof.Machine

/-! ### Arrays -/

theorem decodeArray_nil (w : Nat) : decodeArray [] w = [] := by
  simp [decodeArray]

/-- The first `w` bytes are the first element (R135). -/
theorem decodeArray_append {x : Bytes} {w : Nat} (p : Bytes) (hx : x.length = w) (hw : 0 < w) :
    decodeArray (x ++ p) w = be x :: decodeArray p w := by
  have hcount : (x ++ p).length / w = p.length / w + 1 := by
    rw [List.length_append, hx, Nat.add_div_left _ hw]
  have hhead : slice (x ++ p) (0 * w) ((0 + 1) * w) = x := by
    rw [Nat.zero_mul, Nat.zero_add, Nat.one_mul, slice_append_left p hx.ge, ← hx, slice_all]
  have htail (k : Nat) : slice (x ++ p) ((k + 1) * w) ((k + 1 + 1) * w) = slice p (k * w) ((k + 1) * w) := by
    have h := slice_append_right x p (k * w) ((k + 1) * w)
    rwa [hx, Nat.add_comm w, Nat.add_comm w, ← Nat.succ_mul, ← Nat.succ_mul] at h
  simp only [decodeArray, hcount, List.range_succ_eq_map, List.map_cons, List.map_map, hhead, Function.comp_def,
    Nat.succ_eq_add_one, htail]

/-- Elements of `w` bytes each are read back. -/
theorem decodeArray_beEnc {w : Nat} (hw : 0 < w) {vs : List Nat} (hv : ∀ v ∈ vs, v < 2 ^ (8 * w)) :
    decodeArray (vs.map (beEnc w)).flatten w = vs := by
  induction vs with
  | nil => exact decodeArray_nil w
  | cons v vs ih =>
    obtain ⟨hhead, htail⟩ := List.forall_mem_cons.mp hv
    have hread : be (beEnc w v) = v := by
      rw [be_beEnc, Nat.mod_eq_of_lt (by rwa [show 256 = 2 ^ 8 from rfl, ← pow_mul])]
    rw [List.map_cons, List.flatten_cons, decodeArray_append _ (beEnc_length w v) hw, ih htail, hread]

theorem flatten_map_beEnc_length (w : Nat) (vs : List Nat) : (vs.map (beEnc w)).flatten.length = w * vs.length := by
  simp [List.length_flatten, Function.comp_def, beEnc_length, Nat.mul_comm]

/-! ### Blocks -/

/-- A block whose header and payload stand at offset `|pre|` (R134). -/
theorem decodeBlock_payload (c : Config) (pre payload rest : Bytes) (id : Byte) (h : payload.length < 65536) :
    decodeBlock c (pre ++ ([id] ++ beEnc 2 payload.length ++ (payload ++ rest))) pre.length =
      if payload.length % widthOf c id ≠ 0 then .error .widthMismatch
      else .ok ({ blockId := id, width := widthOf c id, values := decodeArray payload (widthOf c id) },
        pre.length + 3 + payload.length) := by
  generalize hb : pre ++ ([id] ++ beEnc 2 payload.length ++ (payload ++ rest)) = b
  have hlen : b.length = pre.length + 3 + payload.length + rest.length := by
    simp only [← hb, List.length_append, beEnc_length, List.length_singleton]
    omega
  have hid : b.getD pre.length 0 = id := by simp [← hb]
  have hbl : be (slice b (pre.length + 1) (pre.length + 3)) = payload.length := by
    have hs : slice b (pre.length + 1) (pre.length + 3) = beEnc 2 payload.length := by
      rw [← hb]; exact slice_append_right pre _ 1 3
    rw [hs, be_beEnc]
    exact Nat.mod_eq_of_lt h
  have hpay : slice b (pre.length + 3) (pre.length + 3 + payload.length) = payload := by
    rw [← hb, Nat.add_assoc, slice_append_right]
    exact slice_append_middle ([id] ++ beEnc 2 payload.length) payload rest
  rw [decodeBlock, if_neg (by omega)]
  simp only [hid, hbl, hpay]
  rw [if_neg (by omega)]

/-- A block the serializer is defined on: its id's width, and values that fit it, in a payload that fits
the two bytes of its length (R77, R78). -/
structure BlockOk (c : Config) (blk : DataBlock) : Prop where
  width : blk.width = widthOf c blk.blockId
  width_pos : 0 < blk.width
  values : ∀ v ∈ blk.values, v < 2 ^ (8 * blk.width)
  length : blk.width * blk.values.length < 65536

/-- A serialized block is read back, with the offset after it. -/
theorem decodeBlock_serBlock {c : Config} {blk : DataBlock} (h : BlockOk c blk) (pre rest : Bytes) :
    decodeBlock c (pre ++ (serBlock blk ++ rest)) pre.length = .ok (blk, pre.length + (serBlock blk).length) := by
  have hlen := flatten_map_beEnc_length blk.width blk.values
  have hread := decodeArray_beEnc h.width_pos h.values
  have hser : (serBlock blk).length = 3 + blk.width * blk.values.length := by
    simp only [serBlock, List.length_append, List.length_singleton, beEnc_length, hlen]
  have hdec := decodeBlock_payload c pre (blk.values.map (beEnc blk.width)).flatten rest blk.blockId
    (by rw [hlen]; exact h.length)
  rw [hlen, ← h.width, Nat.mul_mod_right, hread] at hdec
  rw [hser, ← Nat.add_assoc]
  exact hdec

/-- Serialized blocks one after another are read back. -/
theorem decodeBlocks_serBlocks {c : Config} {blks : List DataBlock} (h : ∀ blk ∈ blks, BlockOk c blk) (pre : Bytes) :
    decodeBlocks c (pre ++ (blks.map serBlock).flatten) blks.length pre.length
      = .ok (blks, (pre ++ (blks.map serBlock).flatten).length) := by
  induction blks generalizing pre with
  | nil => simp [decodeBlocks]
  | cons blk blks ih =>
    obtain ⟨hblk, hblks⟩ := List.forall_mem_cons.mp h
    have hnext := ih hblks (pre ++ serBlock blk)
    rw [List.length_append, List.append_assoc] at hnext
    rw [List.map_cons, List.flatten_cons, List.length_cons, decodeBlocks, decodeBlock_serBlock hblk]
    simp only [hnext]

/-! ### DATA bodies -/

theorem legalConfig_widths {c : Config} (h : legalConfig c = true) (id : Byte) : 0 < widthOf c id := by
  simp only [legalConfig, Bool.and_eq_true, legalWidths_iff] at h
  obtain ⟨⟨⟨⟨⟨⟨-, hw⟩, -⟩, -⟩, -⟩, -⟩, -⟩ := h
  have := hw id
  simp only [List.mem_cons, List.not_mem_nil, or_false] at this
  omega

theorem serData_length (dp : DataPacket) : (serData dp).length = 7 + (serDataBody dp).length :=
  Laws.EncodingSize.packetBytes_length 0 _

theorem Serializable.count_le {c : Config} {dp : DataPacket} (h : Serializable c dp) :
    dp.dataBlocks.length ≤ 255 := h.1

theorem Serializable.body_length_le {c : Config} {dp : DataPacket} (h : Serializable c dp) :
    (serDataBody dp).length ≤ 65528 := by
  obtain ⟨-, -, hsize⟩ := h
  rw [serData_length] at hsize
  omega

/-- Every block of a serializable packet is one the serializer is defined on, its payload bounded by the
size of the packet. -/
theorem Serializable.blockOk {c : Config} {dp : DataPacket} (h : Serializable c dp) (hc : legalConfig c = true) :
    ∀ blk ∈ dp.dataBlocks, BlockOk c blk := by
  have hsize := h.body_length_le
  obtain ⟨-, hblks, -⟩ := h
  intro blk hmem
  obtain ⟨hw, hv⟩ := hblks blk hmem
  have hle : (serBlock blk).length ≤ (dp.dataBlocks.map serBlock).flatten.length :=
    (List.sublist_flatten_of_mem (List.mem_map_of_mem hmem)).length_le
  refine ⟨hw, hw ▸ legalConfig_widths hc _, hv, ?_⟩
  rw [serDataBody, List.length_append] at hsize
  rw [serBlock, List.length_append, flatten_map_beEnc_length] at hle
  omega

/-- What was serialized is read back (R79). -/
theorem decodeData_serDataBody {c : Config} {dp : DataPacket} (hc : legalConfig c = true) (h : Serializable c dp) :
    decodeData c (serDataBody dp) = .ok dp := by
  have hblks : decodeBlocks c (serDataBody dp) dp.dataBlocks.length 5
      = .ok (dp.dataBlocks, (serDataBody dp).length) := decodeBlocks_serBlocks (h.blockOk hc)
    (beEnc 4 dp.relativeStartTimestampMs.toNat ++ [BitVec.ofNat 8 dp.dataBlocks.length])
  have hcount : ((serDataBody dp).getD 4 0).toNat = dp.dataBlocks.length := by
    have hbyte : (serDataBody dp).getD 4 0 = BitVec.ofNat 8 dp.dataBlocks.length := rfl
    rw [hbyte, BitVec.toNat_ofNat, Nat.mod_eq_of_lt (Nat.lt_succ_of_le h.count_le)]
  have htime : BitVec.ofNat 32 (be (slice (serDataBody dp) 0 4)) = dp.relativeStartTimestampMs := by
    have hs : slice (serDataBody dp) 0 4 = beEnc 4 dp.relativeStartTimestampMs.toNat := rfl
    have hlt : dp.relativeStartTimestampMs.toNat < 256 ^ 4 := dp.relativeStartTimestampMs.isLt
    rw [hs, be_beEnc, Nat.mod_eq_of_lt hlt, BitVec.ofNat_toNat, BitVec.setWidth_eq]
  have hlong : ¬ (serDataBody dp).length < 5 := by
    simp only [serDataBody, List.length_append, beEnc_length, List.length_singleton]
    omega
  rw [decodeData, if_neg hlong, hcount]
  simp only [hblks, htime, ne_eq, not_true_eq_false, if_false]

/-- Settles O27: the packet is dispatched once, and its body decodes to what was serialized. -/
theorem dataPacketRoundTrip : Obligations.DataPacketRoundTrip := by
  unfold Obligations.DataPacketRoundTrip
  intro s dp cs hc hb hd hbuf hw hcs hser hp
  obtain ⟨d, hcount, he⟩ := State.count_eq .dataOk (s.emit (.dataOut dp))
  refine ⟨d, hcount, ?_⟩
  rw [feedAll_packetBytes hb hd hbuf hw hcs hser.body_length_le hp, dispatch_packetBytes_data, dispatchData,
    decodeData_serDataBody hc hser]
  exact he

end Sys2Proof.Machine

/-! ## O12: a placed table word is the next instruction run (logs 3, 6, 7, 18) -/

namespace Sys2Proof.Machine

/-- An enabled transaction offered ahead of the others is the next step. -/
theorem step_offerFirst {i : Instr} {s : State} (hc : legalConfig s.cfg = true) (hi : enabled i s = true) :
    step (s.offerFirst i) = exec i s := by
  have hi' : enabled i (s.offerFirst i) = true := by rw [← hi]; cases i <;> rfl
  exact stepRunsTheEarliestEnabledOffer (s.offerFirst i) [] s.offers i hc rfl (by simp) hi'

theorem decodeTableWord_some {nbits w : Nat} {i : Instr} (h : decodeTableWord nbits w = some i) :
    ∃ rest, decode (tableBytes nbits w) = .ok (i, rest) := by
  unfold decodeTableWord at h
  cases hd : decode (tableBytes nbits w) with
  | error e => simp [hd] at h
  | ok x =>
    rw [hd] at h
    cases h
    exact ⟨x.2, rfl⟩

/-- A packet is put in the buffer of a running Decoder, which is offered the next step. -/
theorem placeTableWord_packet {nbits w : Nat} {i : Instr} {rest : Bytes} (s : State)
    (hm : hdrMarker (tableBytes nbits w) = marker) (hd : decodePacket (tableBytes nbits w) = .ok (i, rest)) :
    placeTableWord s nbits w = { s with buf := tableBytes nbits w, busy := true }.offerFirst .portDstep := by
  have hdec := (decode_of_marker hm).trans hd
  obtain ⟨t, lll, -, rfl, -⟩ | ⟨t, body, -, rfl, -⟩ := decodePacket_ok_bytes hd
  · simp only [placeTableWord, hdec]
  · unfold packetOfType at hdec
    split_ifs at hdec <;> simp only [placeTableWord, hdec]

/-- A line is offered as the transaction it is read as, which is enabled while no wait is outstanding. -/
theorem placeTableWord_line {nbits w : Nat} {i : Instr} {rest : Bytes} {s : State} (hw : s.waiter = .idle)
    (hm : hdrMarker (tableBytes nbits w) ≠ marker) (hd : decode (tableBytes nbits w) = .ok (i, rest)) :
    placeTableWord s nbits w = s.offerFirst i ∧ enabled i s = true := by
  obtain ⟨hm', -⟩ | ⟨-, hl⟩ := decode_ok hd
  · exact absurd hm' hm
  obtain ⟨text, -, rfl, -⟩ := decodeLine_ok hl
  unfold lineOfTokens at hd ⊢
  split_ifs at hd ⊢
  · exact ⟨by simp only [placeTableWord, hd], s.mayWait_iff.mpr hw⟩
  · exact ⟨by simp only [placeTableWord, hd], rfl⟩

/-- Settles O12: a packet row is the DSTEP offered to the Decoder, a command line is offered itself. -/
theorem placedTableWordRunsNext : Obligations.PlacedTableWordRunsNext := by
  unfold Obligations.PlacedTableWordRunsNext
  intro s nbits w i hc hw h
  obtain ⟨rest, hd⟩ := decodeTableWord_some h
  rw [State.withFetchWord]
  by_cases hm : hdrMarker (tableBytes nbits w) = marker
  · rw [decode_of_marker hm] at hd
    rw [placeTableWord_packet s hm hd, if_pos (by exact hm), exec_of_decodePacket (by exact hd)]
    exact step_offerFirst (s := { s with buf := tableBytes nbits w, busy := true }) hc rfl
  · obtain ⟨hplace, hi⟩ := placeTableWord_line hw hm hd
    rw [hplace, step_offerFirst hc hi, if_neg (by exact hm)]

end Sys2Proof.Machine

/-! ## O49: CMD_PING is the ping transaction sending its own line (R70, R194, R195; log 11) -/

namespace Sys2Proof.Machine

/-- With no wait outstanding, a timed-out ping raises NoReply and is done with false (R197). -/
theorem timeoutPing_of_idle {s : State} (hw : s.waiter = .idle) :
    ∃ d, DiagAfter s.diag d 7 1 4 ∧ timeoutPing s =
      { s with diag := d, events := s.events ++ [.noReply], trace := s.trace ++ [.pingDone false] } := by
  obtain ⟨d, hd, he⟩ := State.raise_eq .noReply s
  have hidle : ({ s with waiter := .idle } : State) = s := by rw [← hw]
  exact ⟨d, hd, by rw [timeoutPing, hidle, he]; rfl⟩

/-- The effect of a ping that transmits `line` (R194, R195, R198). -/
theorem pingWith_effect (line : Bytes) {s : State} (hw : s.waiter = .idle) :
    (∀ x rest, s.q = x :: rest →
      pingWith line s = completePing x { s with q := rest, trace := s.trace ++ [.tx line] })
    ∧ (s.q = [] → s.cfg.tNominal = 0 → ∃ d, DiagAfter s.diag d 7 1 4 ∧ pingWith line s =
      { s with diag := d, events := s.events ++ [.noReply], trace := s.trace ++ [.tx line, .pingDone false] })
    ∧ (s.q = [] → s.cfg.tNominal ≠ 0 →
      pingWith line s = { s with waiter := .ping (2 * s.cfg.tNominal), trace := s.trace ++ [.tx line] }) := by
  obtain ⟨x, rest, hq, he⟩ | ⟨hq, ht, he⟩ | ⟨hq, ht, he⟩ := pingWith_cases line s
  · refine ⟨fun y rest' hq' => ?_, by simp [hq], by simp [hq]⟩
    obtain ⟨rfl, rfl⟩ := List.cons.inj (hq.symm.trans hq')
    exact he
  · obtain ⟨d, hd, htimeout⟩ := timeoutPing_of_idle (s := s.emit (.tx line)) hw
    refine ⟨by simp [hq], fun _ _ => ⟨d, hd, ?_⟩, fun _ hne => absurd ht hne⟩
    rw [he, htimeout, State.emit_trace, List.append_assoc]
    rfl
  · exact ⟨by simp [hq], fun _ h0 => absurd h0 ht, fun _ _ => he⟩

/-- A transaction guarded by `waiter = Idle`, while no wait is outstanding. -/
theorem whenEnabled_mayWait {s : State} (r : Result) (hw : s.waiter = .idle) : whenEnabled s.mayWait r = r :=
  if_pos (s.mayWait_iff.mpr hw)

/-- Settles O49: CMD_PING is `pingWith` its own line, PORT_PING is `pingWith` the line of PING_CMD. -/
theorem pingLineIsThePingTransaction : Obligations.PingLineIsThePingTransaction := by
  unfold Obligations.PingLineIsThePingTransaction
  intro s
  have hcmd : exec .cmdPing s = whenEnabled s.mayWait (.next (pingWith [0x50, 0x49, 0x4E, 0x47, 0x0D] s)) := rfl
  have hport : exec .portPing s = whenEnabled s.mayWait (.next (pingWith (lineBytes s.cfg.pingCmd []) s)) := rfl
  refine ⟨fun hp => by rw [hcmd, hport, hp]; rfl, ?_⟩
  split_ifs with hw
  · exact if_neg (mt s.mayWait_iff.mp hw)
  · rw [not_not] at hw
    obtain ⟨hreply, htimeout, hwait⟩ := pingWith_effect [0x50, 0x49, 0x4E, 0x47, 0x0D] hw
    rw [hcmd, whenEnabled_mayWait _ hw]
    refine ⟨fun x rest hq => congrArg _ (hreply x rest hq), fun hq ht => ?_, fun hq ht => congrArg _ (hwait hq ht)⟩
    obtain ⟨d, hd, he⟩ := htimeout hq ht
    exact ⟨d, hd, congrArg _ he⟩

end Sys2Proof.Machine

/-! ## O17: where the marker stands, and which bytes may begin one (R101) -/

namespace Sys2Proof.Machine

/-- The marker stands `i` bytes from the start of the string. -/
theorem hdrMarker_drop_iff (b : Bytes) (i : Nat) :
    hdrMarker (b.drop i) = marker ↔ ∃ post, b = b.take i ++ marker ++ post := by
  rw [hdrMarker_eq_iff]
  refine exists_congr fun post => ?_
  rw [List.append_assoc]
  constructor
  · intro h; rw [← h, List.take_append_drop]
  · intro h
    exact List.append_cancel_left ((List.take_append_drop i b).trans h)

theorem length_of_hdrMarker {b : Bytes} (h : hdrMarker b = marker) : 4 ≤ b.length := by
  obtain ⟨x, rfl⟩ := (hdrMarker_eq_iff b).mp h
  rw [List.length_append]
  exact Nat.le_add_right _ _

/-- findMarker is the one offset with the marker there and none before it. -/
theorem findMarker_eq_some_iff (b : Bytes) (i : Nat) :
    findMarker b = some i ↔ hdrMarker (b.drop i) = marker ∧ ∀ j < i, hdrMarker (b.drop j) ≠ marker := by
  constructor
  · exact fun h => ⟨(findMarker_some_at h).2, findMarker_some_least h⟩
  · rintro ⟨hi, hmin⟩
    cases hf : findMarker b with
    | none => exact absurd hi (findMarker_none hf i)
    | some k =>
      have hki : ¬ k < i := fun h => hmin k h (findMarker_some_at hf).2
      have hik : ¬ i < k := fun h => findMarker_some_least hf i h hi
      rw [Nat.le_antisymm (Nat.le_of_not_lt hik) (Nat.le_of_not_lt hki)]

theorem findMarker_eq_none_iff (b : Bytes) : findMarker b = none ↔ ∀ j, hdrMarker (b.drop j) ≠ marker := by
  refine ⟨findMarker_none, fun h => ?_⟩
  cases hf : findMarker b with
  | none => rfl
  | some k => exact absurd (findMarker_some_at hf).2 (h k)

/-- What stands before the marker is what its offset says. -/
theorem hdrMarker_drop_append (pre post : Bytes) : hdrMarker ((pre ++ marker ++ post).drop pre.length) = marker := by
  rw [List.append_assoc, List.drop_left]
  exact hdrMarker_append post

/-! ### The kept tail -/

theorem marker_take {k : Nat} (hk : k ≤ 4) : marker.take k = List.replicate k 0xA5 := by
  interval_cases k <;> rfl

theorem tailIsMarkerPrefix_iff (b : Bytes) (k : Nat) :
    tailIsMarkerPrefix b k = true ↔ k ≤ b.length ∧ b.drop (b.length - k) = marker.take k := by
  simp [tailIsMarkerPrefix]

/-- The kept tail consists of `A5` bytes. -/
theorem tailKeep_suffix (b : Bytes) : List.replicate (tailKeep b) 0xA5 <:+ b := by
  obtain ⟨h3, -⟩ := tailKeep_le b
  rw [← marker_take (by omega), ← tailKeep_isPrefix]
  exact List.drop_suffix _ b

/-- At most three `A5` bytes at the end are all kept. -/
theorem le_tailKeep {b : Bytes} {k : Nat} (hk : k ≤ 3) (h : List.replicate k 0xA5 <:+ b) : k ≤ tailKeep b := by
  have hlen : k ≤ b.length := by simpa using h.length_le
  have hdrop : b.drop (b.length - k) = List.replicate k 0xA5 := by
    simpa using (List.suffix_iff_eq_drop.mp h).symm
  exact tailKeep_greatest b k hk ((tailIsMarkerPrefix_iff b k).mpr ⟨hlen, by rw [hdrop, marker_take (by omega)]⟩)

/-- With no marker, what is not kept does not end in `A5`: a fourth `A5` would make a marker. -/
theorem exists_append_tailKeep {b : Bytes} (h : findMarker b = none) :
    ∃ pre, b = pre ++ List.replicate (tailKeep b) 0xA5 ∧ pre.getLast? ≠ some 0xA5 := by
  obtain ⟨pre, hpre⟩ := tailKeep_suffix b
  refine ⟨pre, hpre.symm, fun hlast => ?_⟩
  obtain ⟨pre', rfl⟩ := List.getLast?_eq_some_iff.mp hlast
  have hmore : b = pre' ++ List.replicate (tailKeep b + 1) 0xA5 := by
    rw [List.replicate_succ, List.append_cons, hpre]
  obtain ⟨h3, -⟩ := tailKeep_le b
  obtain hlt | heq := Nat.lt_or_eq_of_le h3
  · have := le_tailKeep (k := tailKeep b + 1) hlt ⟨pre', hmore.symm⟩
    omega
  · rw [heq] at hmore
    apply findMarker_none h pre'.length
    rw [hmore, List.drop_left]
    rfl

/-- What is not kept is as long as the noise DSTEP counts (R103). -/
theorem length_sub_tailKeep {b noise : Bytes} (hb : b = noise ++ List.replicate (tailKeep b) 0xA5) :
    b.length - tailKeep b = noise.length := by
  have := congrArg List.length hb
  rw [List.length_append, List.length_replicate] at this
  omega

/-- Settles O17: findMarker through the offsets at which the marker stands, tailKeep through
`tailKeep_greatest` and, where there is no marker, `exists_append_tailKeep`. -/
theorem markerSearchFindsLeastAndTail : Obligations.MarkerSearchFindsLeastAndTail := by
  unfold Obligations.MarkerSearchFindsLeastAndTail
  intro b
  obtain ⟨h3, hlen⟩ := tailKeep_le b
  refine ⟨⟨h3, hlen, tailKeep_isPrefix b, fun k hk hkb hd => ?_⟩, fun i => ?_, ?_, exists_append_tailKeep⟩
  · exact tailKeep_greatest b k hk ((tailIsMarkerPrefix_iff b k).mpr ⟨hkb, hd⟩)
  · have hle : hdrMarker (b.drop i) = marker → i ≤ b.length := fun h => by
      have := length_of_hdrMarker h
      rw [List.length_drop] at this
      omega
    have hat : (∃ post, b = b.take i ++ marker ++ post ∧ i ≤ b.length) ↔ hdrMarker (b.drop i) = marker := by
      rw [exists_and_right, ← hdrMarker_drop_iff]
      exact and_iff_left_of_imp hle
    simp only [findMarker_eq_some_iff, ne_eq, hdrMarker_drop_iff b] at hat ⊢
    exact and_congr_left' hat.symm
  · rw [findMarker_eq_none_iff]
    constructor
    · rintro h pre post rfl
      exact h pre.length (hdrMarker_drop_append pre post)
    · intro h j hj
      obtain ⟨post, hb⟩ := (hdrMarker_drop_iff b j).mp hj
      exact h _ _ hb

end Sys2Proof.Machine

/-! ## O18 to O22: one DSTEP, by what the scan finds (R102 to R108) -/

namespace Sys2Proof.Machine

/-- Where an iteration from a buffer that begins with the marker ends (R105 to R110). -/
def headNext (s : State) : State :=
  if s.buf.length < 7 then s.suspend
  else if hdrLength s.buf < 7 then discardShortHeader (hdrLength s.buf) s
  else if s.buf.length < hdrLength s.buf then incomplete s
  else dispatch (hdrType s.buf) (slice s.buf 0 (hdrLength s.buf)) (s.trim (hdrLength s.buf))

theorem headNext_of_short {s : State} (h7 : 7 ≤ s.buf.length) (hl : hdrLength s.buf < 7) :
    headNext s = discardShortHeader (hdrLength s.buf) s := by
  rw [headNext, if_neg (Nat.not_lt.mpr h7), if_pos hl]

theorem headNext_of_incomplete {s : State} (h7 : 7 ≤ s.buf.length) (hl : 7 ≤ hdrLength s.buf)
    (hc : s.buf.length < hdrLength s.buf) : headNext s = incomplete s := by
  rw [headNext, if_neg (Nat.not_lt.mpr h7), if_neg (Nat.not_lt.mpr hl), if_pos hc]

theorem headNext_of_complete {s : State} (hl : 7 ≤ hdrLength s.buf) (hc : hdrLength s.buf ≤ s.buf.length) :
    headNext s
      = dispatch (hdrType s.buf) (slice s.buf 0 (hdrLength s.buf)) (s.trim (hdrLength s.buf)) := by
  rw [headNext, if_neg (Nat.not_lt.mpr (Nat.le_trans hl hc)), if_neg (Nat.not_lt.mpr hl),
    if_neg (Nat.not_lt.mpr hc)]

theorem decodeHead_eq (s : State) : decodeHead s = .next (headNext s) := by
  obtain ⟨h7, he⟩ | ⟨h7, hl, he⟩ | ⟨h7, hl, hc, he⟩ | ⟨hl, hc, he⟩ := decodeHead_cases s <;> rw [he]
  · rw [headNext, if_pos h7]
  · rw [headNext_of_short h7 hl]
  · rw [headNext_of_incomplete h7 hl hc]
  · rw [headNext_of_complete hl hc]

/-- Where an iteration of the decode loop ends (R102). -/
def dstepNext (s : State) : State :=
  match findMarker s.buf with
  | none => noMarker s
  | some i => headNext (discardNoise i s)

theorem decodeIteration_eq (s : State) : decodeIteration s = .next (dstepNext s) := by
  unfold dstepNext
  obtain ⟨hf, he⟩ | ⟨i, hf, he⟩ := decodeIteration_cases s <;> rw [he, hf]
  exact decodeHead_eq _

theorem exec_portDstep_of_busy {s : State} (hb : s.busy = true) : exec .portDstep s = .next (dstepNext s) :=
  (if_pos hb).trans (decodeIteration_eq s)

theorem dstepNext_of_none {s : State} (h : findMarker s.buf = none) : dstepNext s = noMarker s := by
  rw [dstepNext, h]

theorem dstepNext_of_some {s : State} {i : Nat} (h : findMarker s.buf = some i) :
    dstepNext s = headNext (discardNoise i s) := by
  rw [dstepNext, h]

theorem dstepNext_of_head {s : State} (hm : hdrMarker s.buf = marker) : dstepNext s = headNext s :=
  dstepNext_of_some (findMarker_of_head hm)

/-- Settles O18: the noise is what `exists_append_tailKeep` leaves before the kept tail. -/
theorem dstepWithoutMarkerKeepsTail : Obligations.DstepWithoutMarkerKeepsTail := by
  unfold Obligations.DstepWithoutMarkerKeepsTail
  intro s hb hf
  obtain ⟨noise, hbuf, hlast⟩ := exists_append_tailKeep hf
  have hlen := length_sub_tailKeep hbuf
  have hdrop : s.buf.drop noise.length = List.replicate (tailKeep s.buf) 0xA5 := by
    rw [← List.drop_left (l₁ := noise) (l₂ := List.replicate (tailKeep s.buf) 0xA5), ← hbuf]
  rw [exec_portDstep_of_busy hb, dstepNext_of_none hf]
  obtain ⟨hpos, he⟩ | ⟨hzero, he⟩ := noMarker_cases s
  · have hne : noise ≠ [] := List.length_pos_iff.mp (hlen ▸ hpos)
    obtain ⟨d, hd, hr⟩ := State.raise_eq (.noiseDiscarded noise.length) s
    refine ⟨noise, d, hbuf, (tailKeep_le s.buf).1, hlast, by rw [if_neg hne]; exact hd, ?_⟩
    rw [he, hlen, hr, if_neg hne, ← hdrop]
    rfl
  · have hnil : noise = [] := List.length_eq_zero_iff.mp (hlen ▸ hzero)
    refine ⟨noise, s.diag, hbuf, (tailKeep_le s.buf).1, hlast, by rw [if_pos hnil], ?_⟩
    rw [he, hlen, if_pos hnil, ← hdrop, List.append_nil]
    rfl

/-- Settles O19: the header is not complete. -/
theorem dstepSuspendsOnIncompleteHeader : Obligations.DstepSuspendsOnIncompleteHeader := by
  unfold Obligations.DstepSuspendsOnIncompleteHeader
  intro s x hb hbuf hx
  have h7 : s.buf.length < 7 := by rw [hbuf, List.length_append]; exact Nat.add_lt_add_left hx 4
  rw [exec_portDstep_of_busy hb, dstepNext_of_head (by rw [hbuf]; rfl), headNext, if_pos h7]
  rfl

/-- What the decoder reads of a whole header written out byte by byte. -/
theorem header_fields {b rest : Bytes} {ty l1 l0 : Byte} (hb : b = [0xA5, 0xA5, 0xA5, 0xA5, ty, l1, l0] ++ rest) :
    hdrMarker b = marker ∧ 7 ≤ b.length ∧ hdrLength b = l1.toNat * 256 + l0.toNat := by
  subst hb
  exact ⟨rfl, by simp, hdrLength_cons ..⟩

/-- A short header is one event, and its seven bytes go (R106). -/
theorem discardShortHeader_eq (n : Nat) (s : State) :
    ∃ d, DiagAfter s.diag d 1 1 1 ∧ discardShortHeader n s =
      { s with buf := s.buf.drop 7, diag := d, events := s.events ++ [.malformedPacket (.headerLength n)] } := by
  obtain ⟨d, hd, hr⟩ := State.raise_eq (.malformedPacket (.headerLength n)) s
  exact ⟨d, hd, by rw [discardShortHeader, hr]; rfl⟩

/-- Settles O20: the header is complete and its length below 7. -/
theorem dstepDiscardsShortHeader : Obligations.DstepDiscardsShortHeader := by
  unfold Obligations.DstepDiscardsShortHeader
  intro s ty l1 l0 rest hb hbuf hl
  obtain ⟨hm, h7, hlen⟩ := header_fields hbuf
  obtain ⟨d, hd, he⟩ := discardShortHeader_eq (l1.toNat * 256 + l0.toNat) s
  refine ⟨d, hd, ?_⟩
  rw [exec_portDstep_of_busy hb, dstepNext_of_head hm, headNext_of_short h7 (hlen ▸ hl), hlen, he, hbuf]
  rfl

/-- Settles O21, by the two cases of `incomplete_cases`. -/
theorem dstepHoldsIncompletePacket : Obligations.DstepHoldsIncompletePacket := by
  unfold Obligations.DstepHoldsIncompletePacket
  intro s ty l1 l0 body hb hbuf hl hc
  obtain ⟨hm, h7, hlen⟩ := header_fields hbuf
  rw [exec_portDstep_of_busy hb, dstepNext_of_head hm, headNext_of_incomplete h7 (hlen ▸ hl) (hlen ▸ hc)]
  obtain ⟨hle, hi⟩ | ⟨w, hw, hlt, hi⟩ := incomplete_cases s
  · refine ⟨fun _ => by rw [hi]; rfl, fun w hw hlt => ?_⟩
    exact absurd (hle w hw) (by omega)
  · refine ⟨fun hle => absurd (hle w hw) (by omega), fun _ _ _ => ?_⟩
    obtain ⟨d, hd, hr⟩ := State.raise_eq (.forcedResync s.buf.length) s
    have htrim : ({ s with diag := d, events := s.events ++ [.forcedResync s.buf.length] } : State).trim 1
        = { s with buf := s.buf.drop 1, diag := d, events := s.events ++ [.forcedResync s.buf.length] } := rfl
    have hdrop : s.buf.drop 1 = [0xA5, 0xA5, 0xA5, ty, l1, l0] ++ body := by rw [hbuf]; rfl
    exact ⟨d, hd, by rw [hi, hr, htrim, hdrop]⟩

/-- Settles O22: behind the noise the scan finds the marker at the head. -/
theorem dstepDiscardsNoiseThenGoesOn : Obligations.DstepDiscardsNoiseThenGoesOn := by
  unfold Obligations.DstepDiscardsNoiseThenGoesOn
  intro s noise post hb hne hbuf hf
  obtain ⟨d, hd, hr⟩ := State.raise_eq (.noiseDiscarded noise.length) s
  have hnoise : discardNoise noise.length s =
      { s with buf := marker ++ post, diag := d, events := s.events ++ [.noiseDiscarded noise.length] } := by
    have hdrop : s.buf.drop noise.length = marker ++ post := by
      rw [hbuf, List.append_assoc, List.drop_left]; rfl
    obtain ⟨h0, -⟩ | ⟨-, he⟩ := discardNoise_eq noise.length s
    · exact absurd (List.length_eq_zero_iff.mp h0) hne
    · rw [he, hr, State.trim, hdrop]
  have hhead := dstepNext_of_head (s := discardNoise noise.length s) (by rw [hnoise]; exact hdrMarker_append post)
  refine ⟨d, hd, ?_⟩
  rw [exec_portDstep_of_busy hb, dstepNext_of_some hf, ← hhead, hnoise]
  exact (exec_portDstep_of_busy (s := { s with
    buf := marker ++ post, diag := d, events := s.events ++ [.noiseDiscarded noise.length] }) hb).symm

end Sys2Proof.Machine

/-! ## O9, O11, O23, O33, O34, O36, O37: a packet at the head of the buffer (R106 to R114; log 5) -/

namespace Sys2Proof.Machine

/-- The decoder leaves what stands behind the header, or behind the packet if that is longer. -/
theorem decodePacket_rest {b rest : Bytes} {i : Instr} (h : decodePacket b = .ok (i, rest)) :
    rest = b.drop (max 7 (hdrLength b)) := by
  unfold decodePacket at h
  split_ifs at h with hm h7 hl hc
  · obtain ⟨-, rfl⟩ : _ = i ∧ _ = rest := by simpa using h
    rw [max_eq_left (Nat.le_of_lt hl)]
  · obtain ⟨-, rfl⟩ : _ = i ∧ _ = rest := by simpa using h
    rw [max_eq_right (Nat.le_of_not_lt hl)]

/-- The iteration that finds a packet at the head removes exactly its bytes, and the run goes on. -/
theorem dstepNext_of_decodePacket {i : Instr} {s : State} {rest : Bytes} (hd : decodePacket s.buf = .ok (i, rest)) :
    (dstepNext s).buf = rest ∧ (dstepNext s).busy = s.busy := by
  refine ⟨?_, decodeIteration_busy_of_decodePacket hd (decodeIteration_eq s)⟩
  rw [decodePacket_rest hd]
  obtain ⟨hl, -, he⟩ | ⟨hl, -, -, he⟩ := decodeIteration_of_decodePacket hd <;>
    rw [Host.Outcome.next.inj ((decodeIteration_eq s).symm.trans he)]
  · rw [max_eq_left (Nat.le_of_lt hl)]
    rfl
  · rw [max_eq_right hl]
    exact (dispatch_sameStream _ _ (s.trim _)).buf_eq

/-- With its packet at the head of a running Decoder's buffer, a row is the DSTEP that finds it. -/
theorem exec_row {i : Instr} {s : State} {rest : Bytes} (hb : s.busy = true)
    (hd : decodePacket s.buf = .ok (i, rest)) : exec i s = .next (dstepNext s) :=
  (exec_of_decodePacket hd).trans (exec_portDstep_of_busy hb)

/-- Settles O23, through `exec_row`. -/
theorem dstepExtractsAndDispatches : Obligations.DstepExtractsAndDispatches := by
  unfold Obligations.DstepExtractsAndDispatches
  intro s i rest hb hd
  obtain ⟨hbuf, hbusy⟩ := dstepNext_of_decodePacket hd
  exact ⟨dstepNext s, exec_portDstep_of_busy hb, exec_row hb hd, hbuf, hbusy.trans hb⟩

/-- Settles O9: the encoded row is read back (O14), and the iteration that finds it keeps the rest of the
stream state. -/
theorem packetRowsConsumeTheirBytes : Obligations.PacketRowsConsumeTheirBytes := by
  unfold Obligations.PacketRowsConsumeTheirBytes
  intro i w rest s hwf hc he hm hb hbuf
  have hmarker : hdrMarker (w ++ rest) = marker := by
    obtain ⟨x, rfl⟩ := (hdrMarker_eq_iff w).mp hm
    rw [List.append_assoc]
    exact hdrMarker_append _
  have hd : decodePacket s.buf = .ok (i, rest) := by
    rw [hbuf, ← decode_of_marker hmarker]
    exact decode_encode rest hwf hc he
  obtain ⟨hrest, hbusy⟩ := dstepNext_of_decodePacket hd
  obtain ⟨hcfg, hdisc, hresults, hoffers, -⟩ := decodeIteration_stream (decodeIteration_eq s)
  exact ⟨dstepNext s, exec_row hb hd, hrest, hbusy.trans hb, hdisc, hcfg, hresults, hoffers⟩

/-- Settles O11: no offer is taken, so the step is the Decoder's, which is the row it finds. -/
theorem stepRunsTheDecodedPacket : Obligations.StepRunsTheDecodedPacket := by
  unfold Obligations.StepRunsTheDecodedPacket
  intro s hc hoffers
  have htake : s.takeOffer = none := by rw [State.takeOffer, firstEnabled_none.mpr hoffers]; rfl
  have hstep : step s = if s.busy then exec .portDstep s else .next s := by rw [step, if_pos hc, htake]
  refine ⟨fun hb i rest hd => ?_, fun hb => ?_⟩
  · rw [hstep, if_pos hb, exec_of_decodePacket hd]
  · rw [hstep, hb]; rfl

/-- The meaning of a row that stands complete at the head of a running Decoder's buffer. -/
theorem whenAtHead_of_busy {i : Instr} {s t : State} {rest : Bytes} (hb : s.busy = true)
    (hd : decodePacket s.buf = .ok (i, rest)) : whenAtHead i s t = .next t :=
  (whenAtHead_of_decodePacket hd).trans (if_pos hb)

theorem trim_packetBytes {s : State} {ty : Byte} {body rest : Bytes} (hbuf : s.buf = packetBytes ty body ++ rest) :
    s.trim (hdrSize + body.length) = { s with buf := rest } := by
  rw [State.trim, hbuf, List.drop_left' (Laws.EncodingSize.packetBytes_length ty body)]

/-- Settles O33: the packet is extracted, and its body decodes or does not. -/
theorem dataPacketIsPutOut : Obligations.DataPacketIsPutOut := by
  unfold Obligations.DataPacketIsPutOut
  intro s body rest hb hbody hbuf
  have hd : decodePacket s.buf = .ok (.pktData body, rest) := by rw [hbuf]; exact decodePacket_packetBytes 0 rest hbody
  have hexec : exec (.pktData body) s = .next (dispatchData body { s with buf := rest }) :=
    (whenAtHead_of_busy hb hd).trans (by rw [trim_packetBytes hbuf])
  rw [hexec]
  refine ⟨fun dp hdp => ?_, fun e he => ?_⟩
  · obtain ⟨d, hdiag, hcount⟩ := State.count_eq .dataOk (({ s with buf := rest } : State).emit (.dataOut dp))
    exact ⟨d, hdiag, by simp only [dispatchData, hdp, hcount]; rfl⟩
  · obtain ⟨d, hdiag, hr⟩ := State.raise_eq (.malformedPacket e) { s with buf := rest }
    exact ⟨d, hdiag, by simp only [dispatchData, he, hr]⟩

/-- Settles O34: the packet is extracted, and its body is valid UTF-8 or not. -/
theorem stringPacketGoesToCorrelator : Obligations.StringPacketGoesToCorrelator := by
  unfold Obligations.StringPacketGoesToCorrelator
  intro s body rest hb hbody hpong hbuf
  have hrow : packetOfType 1 body = .pktString body := if_neg hpong
  have hd : decodePacket s.buf = .ok (.pktString body, rest) := by
    rw [hbuf, decodePacket_packetBytes 1 rest hbody, hrow]
  have hexec : exec (.pktString body) s = .next (dispatchString body { s with buf := rest }) :=
    (whenAtHead_of_busy hb hd).trans (by rw [trim_packetBytes hbuf])
  rw [hexec]
  refine ⟨fun hvalid => ?_, fun hinvalid => ?_⟩
  · obtain ⟨d, hdiag, hcount⟩ := State.count_eq .stringOk { s with buf := rest }
    exact ⟨d, hdiag, by simp only [dispatchString, decodeString, hvalid, if_true, hcount]⟩
  · obtain ⟨d, hdiag, hr⟩ := State.raise_eq .invalidEncoding { s with buf := rest }
    exact ⟨d, hdiag, by simp only [dispatchString, decodeString, hinvalid, Bool.false_eq_true, if_false, hr]⟩

/-- Settles O36: the packet is extracted, and one event is raised. -/
theorem unknownPacketIsDiscarded : Obligations.UnknownPacketIsDiscarded := by
  unfold Obligations.UnknownPacketIsDiscarded
  intro s ty body rest hb hty hbody hbuf
  have h0 : ty ≠ 0 := by rintro rfl; exact absurd hty (by decide)
  have h1 : ty ≠ 1 := by rintro rfl; exact absurd hty (by decide)
  have hrow : packetOfType ty body = .pktUnknown ty body := (if_neg h0).trans (if_neg h1)
  have hd : decodePacket s.buf = .ok (.pktUnknown ty body, rest) := by
    rw [hbuf, decodePacket_packetBytes ty rest hbody, hrow]
  obtain ⟨d, hdiag, hr⟩ := State.raise_eq (.unknownType ty) { s with buf := rest }
  exact ⟨d, hdiag, (whenAtHead_of_busy hb hd).trans (by rw [trim_packetBytes hbuf, dispatchUnknown, hr])⟩

/-- The three free bits of a short length are its second byte. -/
theorem headerBytes_shortLength (ty : Byte) (lll : BitVec 3) :
    headerBytes ty lll.toNat = [0xA5, 0xA5, 0xA5, 0xA5, ty, 0x00, lll.setWidth 8] := by
  have hlen : ∀ lll : BitVec 3, beEnc 2 lll.toNat = [0x00, lll.setWidth 8] := by decide
  rw [headerBytes, hlen]
  rfl

/-- Settles O37: the header is read as the row, and discarded. -/
theorem shortLengthRowDiscardsHeader : Obligations.ShortLengthRowDiscardsHeader := by
  unfold Obligations.ShortLengthRowDiscardsHeader
  intro s ty lll rest hb hlll hbuf
  have hd : decodePacket s.buf = .ok (.pktShortLength ty lll, rest) := by
    rw [hbuf, ← headerBytes_shortLength]
    exact decodePacket_shortHeader ty rest hlll
  obtain ⟨d, hdiag, he⟩ := discardShortHeader_eq lll.toNat s
  exact ⟨d, hdiag, (whenAtHead_of_busy hb hd).trans (by rw [he, hbuf]; rfl)⟩

end Sys2Proof.Machine

/-! ## O24: a loop run to its end (R76, R115) -/

namespace Sys2Proof.Machine

/-- A run of the decode loop from a state to the suspension it ends with, and the packets it meets. -/
inductive DecodeRun : State → List Instr → State → Prop
  | done {s : State} (hb : s.busy = false) : DecodeRun s [] s
  | step {s u : State} {ps : List Instr} (hb : s.busy = true) (h : DecodeRun (dstepNext s) ps u) :
      DecodeRun s (nextPacket s ++ ps) u

theorem dstepNext_shrinks (s : State) : (dstepNext s).busy = false ∨ (dstepNext s).buf.length < s.buf.length := by
  obtain ⟨-, -, -, -, n, hn, hbuf, hend | ⟨-, hpos⟩⟩ := decodeIteration_stream (decodeIteration_eq s)
  · exact .inl hend
  · exact .inr (by rw [hbuf, List.length_drop]; omega)

theorem drainPackets_of_suspended {s : State} (fuel : Nat) (hb : s.busy = false) : drainPackets fuel s = [] := by
  cases fuel with
  | zero => rfl
  | succ fuel => simp [drainPackets, hb]

theorem drainPackets_succ {s : State} (fuel : Nat) (hb : s.busy = true) :
    drainPackets (fuel + 1) s = nextPacket s ++ drainPackets fuel (dstepNext s) := by
  simp [drainPackets, hb, exec_portDstep_of_busy hb]

/-- DRAIN runs the loop to its end if it has more fuel than the buffer has bytes. -/
theorem decodeRun_drain {fuel : Nat} {s : State} (h : s.buf.length < fuel) :
    DecodeRun s (drainPackets fuel s) (drain fuel s) := by
  induction fuel generalizing s with
  | zero => omega
  | succ fuel ih =>
    cases hb : s.busy with
    | false =>
      rw [drain_of_suspended _ hb, drainPackets_of_suspended _ hb]
      exact .done hb
    | true =>
      rw [drain_succ fuel hb (decodeIteration_eq s), drainPackets_succ fuel hb]
      refine .step hb ?_
      obtain hend | hlt := dstepNext_shrinks s
      · rw [drain_of_suspended _ hend, drainPackets_of_suspended _ hend]
        exact .done hend
      · exact ih (by omega)

theorem DecodeRun.busy_eq_false {s u : State} {ps : List Instr} (h : DecodeRun s ps u) : u.busy = false := by
  induction h with
  | done hb => exact hb
  | step _ _ ih => exact ih

/-- Settles O24: an iteration suspends the loop or shrinks the buffer, and so DRAIN ends the run. -/
theorem decodeLoopTerminates : Obligations.DecodeLoopTerminates := by
  unfold Obligations.DecodeLoopTerminates
  refine ⟨fun s t h => ?_, fun s => (decodeRun_drain (Nat.lt_succ_self _)).busy_eq_false⟩
  rw [← Host.Outcome.next.inj ((decodeIteration_eq s).symm.trans (whenEnabled_next.mp h).2)]
  exact dstepNext_shrinks s

/-! ### What a run keeps, and that it is the only one -/

theorem DecodeRun.unique {s u v : State} {ps qs : List Instr} (h : DecodeRun s ps u) (h' : DecodeRun s qs v) :
    ps = qs ∧ u = v := by
  induction h generalizing qs with
  | done hb =>
    cases h' with
    | done => exact ⟨rfl, rfl⟩
    | step hb' => exact absurd (hb.symm.trans hb') (by simp)
  | step hb _ ih =>
    cases h' with
    | done hb' => exact absurd (hb'.symm.trans hb) (by simp)
    | step _ h' =>
      obtain ⟨rfl, rfl⟩ := ih h'
      exact ⟨rfl, rfl⟩

/-- A run keeps the configuration and the connection. -/
theorem DecodeRun.cfg_disc {s u : State} {ps : List Instr} (h : DecodeRun s ps u) :
    u.cfg = s.cfg ∧ u.disc = s.disc := by
  induction h with
  | done => exact ⟨rfl, rfl⟩
  | @step s _ _ _ _ ih =>
    obtain ⟨hcfg, hdisc, -⟩ := decodeIteration_stream (decodeIteration_eq s)
    exact ⟨ih.1.trans hcfg, ih.2.trans hdisc⟩

/-- A run leaves a retained form (R34). -/
theorem DecodeRun.retained {s u : State} {ps : List Instr} (h : DecodeRun s ps u) (hb : s.busy = true) :
    RetainedForm u.cfg u.buf := by
  induction h with
  | done hb' => exact absurd (hb'.symm.trans hb) (by simp)
  | @step s u ps hb h ih =>
    cases hs : (dstepNext s).busy with
    | true => exact ih hs
    | false =>
      obtain ⟨-, rfl⟩ := (DecodeRun.done hs).unique h
      exact decodeIteration_retained hb (decodeIteration_eq s) hs

end Sys2Proof.Machine

/-! ## O26: what two runs over one stream agree in (R116) -/

namespace Sys2Proof.Machine

/-- Agreement in everything R116 speaks of but the buffer. Noise may be counted in pieces, so LAST_EVENT and
the events outside the stream are left out. -/
structure SameDecoded (s t : State) : Prop where
  cfg : s.cfg = t.cfg
  q : s.q = t.q
  waiter : s.waiter = t.waiter
  trace : s.trace = t.trace
  events : s.events.filter DiagEvent.ofStream = t.events.filter DiagEvent.ofStream
  regs : ∀ r : DiagReg, r.index.val ≤ 5 → s.diagReg r = t.diagReg r

/-- Agreement of two Decoders, the buffer and `busy` included. -/
structure SameRun (s t : State) : Prop extends SameDecoded s t where
  buf : s.buf = t.buf
  busy : s.busy = t.busy

theorem SameDecoded.refl (s : State) : SameDecoded s s := ⟨rfl, rfl, rfl, rfl, rfl, fun _ _ => rfl⟩

theorem SameRun.refl (s : State) : SameRun s s := ⟨.refl s, rfl, rfl⟩

theorem SameRun.symm {s t : State} (h : SameRun s t) : SameRun t s :=
  ⟨⟨h.cfg.symm, h.q.symm, h.waiter.symm, h.trace.symm, h.events.symm, fun r hr => (h.regs r hr).symm⟩,
    h.buf.symm, h.busy.symm⟩

theorem SameRun.trans {s t u : State} (h : SameRun s t) (h' : SameRun t u) : SameRun s u :=
  ⟨⟨h.cfg.trans h'.cfg, h.q.trans h'.q, h.waiter.trans h'.waiter, h.trace.trans h'.trace,
    h.events.trans h'.events, fun r hr => (h.regs r hr).trans (h'.regs r hr)⟩, h.buf.trans h'.buf, h.busy.trans h'.busy⟩

/-! ### The operations keep the agreement -/

section
variable {s t : State} (h : SameDecoded s t)
include h

theorem SameDecoded.trim (n m : Nat) : SameDecoded (s.trim n) (t.trim m) := { h with }

theorem SameDecoded.idle : SameDecoded { s with waiter := .idle } { t with waiter := .idle } := { h with waiter := rfl }

theorem SameDecoded.emit (e : OutEvent) : SameDecoded (s.emit e) (t.emit e) :=
  { h with trace := congrArg (· ++ [e]) h.trace }

theorem SameDecoded.count (r : DiagReg) (n : Nat) : SameDecoded (s.count r n) (t.count r n) :=
  { h with
    regs := fun r' hr' => by
      simp only [State.count_diagReg]
      split_ifs with he
      · rw [h.regs r (he ▸ hr')]
      · exact h.regs r' hr' }

theorem SameDecoded.raise (e : DiagEvent) : SameDecoded (s.raise e) (t.raise e) :=
  { h with
    events := by simp only [State.raise_events, List.filter_append, h.events]
    regs := fun r hr => by simp only [State.raise_diagReg, h.regs r hr] }

theorem completePing_sameDecoded (text : Bytes) : SameDecoded (completePing text s) (completePing text t) := by
  have htoken : s.cfg.pongToken = t.cfg.pongToken := congrArg _ h.cfg
  simp only [completePing, htoken]
  split_ifs
  · exact h.idle.emit _
  · exact (h.idle.raise _).emit _

theorem overflow_sameDecoded (text : Bytes) : SameDecoded (overflow text s) (overflow text t) := by
  have hr := h.raise .replyDropped
  simp only [overflow, h.cfg, h.q]
  cases t.cfg.overflow with
  | dropOldest => exact { hr with q := rfl }
  | dropNewest => exact hr

theorem enqueueReply_sameDecoded (text : Bytes) : SameDecoded (enqueueReply text s) (enqueueReply text t) := by
  have hroom : s.q.length < s.cfg.qcap ↔ t.q.length < t.cfg.qcap := by rw [h.q, h.cfg]
  cases hw : t.waiter with
  | await r =>
    simp only [enqueueReply, h.waiter.trans hw, hw]
    exact h.idle.emit _
  | ping r =>
    simp only [enqueueReply, h.waiter.trans hw, hw]
    exact completePing_sameDecoded h text
  | idle =>
    simp only [enqueueReply, h.waiter.trans hw, hw, hroom]
    split_ifs
    · exact { h with q := congrArg (· ++ [text]) h.q, waiter := rfl }
    · exact overflow_sameDecoded h text

theorem dispatch_sameDecoded (ty : Byte) (p : Bytes) : SameDecoded (dispatch ty p s) (dispatch ty p t) := by
  unfold dispatch dispatchData dispatchString
  rw [h.cfg]
  simp only []
  split_ifs
  · cases decodeData t.cfg (slice p hdrSize p.length) with
    | ok dp => exact (h.emit _).count _ _
    | error e => exact h.raise _
  · cases decodeString (slice p hdrSize p.length) with
    | some text => exact enqueueReply_sameDecoded (h.count _ _) text
    | none => exact h.raise _
  · exact h.raise _

end

/-! ### An iteration keeps it -/

section
variable {s t : State} (h : SameRun s t)
include h

theorem SameRun.suspend : SameRun s.suspend t.suspend := { h with busy := rfl }

theorem SameRun.trim (n : Nat) : SameRun (s.trim n) (t.trim n) := { h with buf := congrArg (List.drop n) h.buf }

theorem SameRun.raise (e : DiagEvent) : SameRun (s.raise e) (t.raise e) :=
  ⟨h.toSameDecoded.raise e, h.buf, h.busy⟩

theorem dispatch_sameRun (ty : Byte) (p : Bytes) : SameRun (dispatch ty p s) (dispatch ty p t) := by
  obtain ⟨-, hbuf, hbusy, -⟩ := dispatch_sameStream ty p s
  obtain ⟨-, hbuf', hbusy', -⟩ := dispatch_sameStream ty p t
  exact ⟨dispatch_sameDecoded h.toSameDecoded ty p, by rw [hbuf, hbuf', h.buf], by rw [hbusy, hbusy', h.busy]⟩

theorem incomplete_sameRun : SameRun (incomplete s) (incomplete t) := by
  unfold incomplete
  rw [h.cfg, h.buf]
  cases t.cfg.watermark with
  | none => exact h.suspend
  | some w =>
    simp only []
    split_ifs
    · exact (h.raise _).trim 1
    · exact h.suspend

theorem headNext_sameRun : SameRun (headNext s) (headNext t) := by
  unfold headNext
  rw [h.buf]
  split_ifs
  · exact h.suspend
  · exact (h.raise _).trim _
  · exact incomplete_sameRun h
  · exact dispatch_sameRun (h.trim _) _ _

theorem discardNoise_sameRun (i : Nat) : SameRun (discardNoise i s) (discardNoise i t) := by
  unfold discardNoise
  split_ifs
  · exact (h.raise _).trim i
  · exact h

end

/-- Without a marker all but the kept tail is discarded as noise, and the loop suspends (R103, R104). -/
theorem noMarker_eq (s : State) : noMarker s = (discardNoise (s.buf.length - tailKeep s.buf) s).suspend := by
  obtain ⟨hpos, he⟩ | ⟨hzero, he⟩ := noMarker_cases s
  · rw [he, discardNoise, if_pos hpos]
  · rw [he, hzero]; rfl

theorem dstepNext_sameRun {s t : State} (h : SameRun s t) : SameRun (dstepNext s) (dstepNext t) := by
  unfold dstepNext
  rw [h.buf]
  cases findMarker t.buf with
  | none =>
    simp only [noMarker_eq, h.buf]
    exact (discardNoise_sameRun h _).suspend
  | some i => exact headNext_sameRun (discardNoise_sameRun h i)

/-- Decoders that agree meet the same packets and agree at the end of their runs. -/
theorem DecodeRun.of_sameRun {s t u : State} {ps : List Instr} (h : DecodeRun s ps u) (hst : SameRun s t) :
    ∃ v, DecodeRun t ps v ∧ SameRun u v := by
  induction h generalizing t with
  | done hb => exact ⟨t, .done (hst.busy ▸ hb), hst⟩
  | @step s u ps hb _ ih =>
    obtain ⟨v, hv, huv⟩ := ih (dstepNext_sameRun hst)
    have hnext : nextPacket s = nextPacket t := by rw [nextPacket, hst.buf, ← nextPacket]
    exact ⟨v, hnext ▸ .step (hst.busy ▸ hb) hv, huv⟩

end Sys2Proof.Machine

/-! ## O26: bytes that arrive later (R116) -/

namespace Sys2Proof.Machine

/-! ### The marker search in a longer string -/

theorem hdrMarker_append_of_le {b : Bytes} (x : Bytes) (h : 4 ≤ b.length) : hdrMarker (b ++ x) = hdrMarker b :=
  slice_append_left x h

/-- Later bytes make no earlier marker. -/
theorem findMarker_append_left {b : Bytes} {i : Nat} (h : findMarker b = some i) (x : Bytes) :
    findMarker (b ++ x) = some i := by
  obtain ⟨hi, hmin⟩ := (findMarker_eq_some_iff b i).mp h
  have hlen := length_of_hdrMarker hi
  rw [List.length_drop] at hlen
  have hfield : ∀ j ≤ i, hdrMarker ((b ++ x).drop j) = hdrMarker (b.drop j) := fun j hj => by
    rw [List.drop_append_of_le_length (by omega), hdrMarker_append_of_le x (by rw [List.length_drop]; omega)]
  refine (findMarker_eq_some_iff _ i).mpr ⟨(hfield i le_rfl).trans hi, fun j hj => ?_⟩
  rw [hfield j (Nat.le_of_lt hj)]
  exact hmin j hj

/-- No marker begins in bytes that hold none and do not end in `A5`. -/
theorem hdrMarker_append_ne {noise : Bytes} (r : Bytes) (hne : noise ≠ []) (hm : hdrMarker noise ≠ marker)
    (hlast : noise.getLast? ≠ some 0xA5) : hdrMarker (noise ++ r) ≠ marker := by
  intro h
  obtain h4 | h4 := Nat.lt_or_ge noise.length 4
  · obtain ⟨x, hx⟩ := (hdrMarker_eq_iff _).mp h
    have hpre : noise <+: marker :=
      List.prefix_of_prefix_length_le (l₃ := noise ++ r) ⟨r, rfl⟩ ⟨x, hx.symm⟩ (Nat.le_of_lt h4)
    have hA5 : noise = List.replicate noise.length 0xA5 :=
      (List.prefix_iff_eq_take.mp hpre).trans (marker_take (Nat.le_of_lt h4))
    rw [hA5, List.getLast?_replicate, if_neg (mt List.length_eq_zero_iff.mp hne)] at hlast
    exact hlast rfl
  · exact hm (hdrMarker_append_of_le r h4 ▸ h)

theorem findMarker_append_right {noise : Bytes} (r : Bytes) (hf : findMarker noise = none)
    (hlast : noise.getLast? ≠ some 0xA5) : findMarker (noise ++ r) = (findMarker r).map (· + noise.length) := by
  induction noise with
  | nil => simp
  | cons y noise ih =>
    have hm : hdrMarker (y :: noise) ≠ marker := findMarker_none hf 0
    have hf' : findMarker noise = none := (findMarker_eq_none_iff _).mpr fun j => findMarker_none hf (j + 1)
    have hlast' : noise.getLast? ≠ some 0xA5 := by
      rintro h
      exact hlast (by rw [List.getLast?_cons, h]; rfl)
    have hhead : hdrMarker (y :: (noise ++ r)) ≠ marker := hdrMarker_append_ne r (List.cons_ne_nil _ _) hm hlast
    rw [List.cons_append, findMarker, if_neg hhead, ih hf' hlast', Option.map_map]
    congr 1

/-- No kept tail reaches into bytes that do not end in `A5`. -/
theorem tailKeep_append {noise : Bytes} (r : Bytes) (hlast : noise.getLast? ≠ some 0xA5) :
    tailKeep (noise ++ r) = tailKeep r := by
  refine Nat.le_antisymm ?_ ?_
  · refine le_tailKeep (tailKeep_le _).1 ?_
    have htail := tailKeep_suffix (noise ++ r)
    generalize tailKeep (noise ++ r) = k at htail ⊢
    obtain h | h := List.suffix_or_suffix_of_suffix htail (List.suffix_append noise r)
    · exact h
    · obtain ⟨hm, hr⟩ := List.suffix_replicate_iff.mp h
      obtain hlt | heq := Nat.lt_or_eq_of_le hm
      · obtain ⟨pre, hpre⟩ := htail
        have hk : List.replicate k (0xA5 : Byte) = List.replicate (k - 1 - r.length) 0xA5 ++ [0xA5] ++ r := by
          rw [← List.replicate_succ', hr, List.replicate_append_replicate, List.length_replicate]
          congr 1
          omega
        rw [hk, ← List.append_assoc, ← List.append_assoc] at hpre
        have hnoise := List.append_cancel_right hpre
        exact absurd (by rw [← hnoise, List.getLast?_concat]) hlast
      · rw [← heq, ← hr]
  · exact le_tailKeep (tailKeep_le r).1 ((tailKeep_suffix r).trans (List.suffix_append noise r))

/-! ### Noise, discarded early or late -/

/-- `noise` may be discarded before `r` is scanned: the scan finds the same marker, or keeps the same tail. -/
structure IsNoise (noise r : Bytes) : Prop where
  marker : findMarker (noise ++ r) = (findMarker r).map (· + noise.length)
  tail : findMarker r = none → tailKeep (noise ++ r) = tailKeep r

theorem State.raise_noiseDiscarded_diagReg (n : Nat) (s : State) (r : DiagReg) :
    (s.raise (.noiseDiscarded n)).diagReg r =
      if r = .lastEvent then 8
      else if r = .noiseBytes then s.diagReg r + BitVec.ofNat 32 n
      else s.diagReg r :=
  s.raise_diagReg (.noiseDiscarded n) r

/-- Noise discarded in two pieces is counted as if discarded at once (R104). -/
theorem discardNoise_add (n i : Nat) (s : State) :
    SameRun (discardNoise (n + i) s) (discardNoise i (discardNoise n s)) := by
  obtain ⟨rfl, hn⟩ | ⟨hpos, hn⟩ := discardNoise_eq n s
  · rw [hn, Nat.zero_add]
    exact .refl _
  obtain ⟨rfl, hi⟩ | ⟨hpos', hi⟩ := discardNoise_eq i (discardNoise n s)
  · rw [hi, Nat.add_zero]
    exact .refl _
  rw [hi, hn, discardNoise, if_pos (Nat.add_pos_left hpos i)]
  refine { SameDecoded.refl s with events := ?_, regs := fun r hr => ?_, buf := ?_, busy := rfl }
  · simp [DiagEvent.ofStream]
  · change (s.raise _).diagReg r = ((s.raise (.noiseDiscarded n)).raise (.noiseDiscarded i)).diagReg r
    simp only [State.raise_noiseDiscarded_diagReg]
    split_ifs
    · rfl
    · rw [BitVec.ofNat_add, BitVec.add_assoc]
    · rfl
  · exact (List.drop_drop ..).symm

theorem discardNoise_of_noise_buf {s : State} {noise r : Bytes} (hbuf : s.buf = noise ++ r) :
    (discardNoise noise.length s).buf = r := by
  rw [discardNoise_buf, hbuf, List.drop_left]

/-- An iteration does the same whether the noise goes first or not. -/
theorem dstepNext_of_noise {s : State} {noise r : Bytes} (hbuf : s.buf = noise ++ r) (hn : IsNoise noise r) :
    SameRun (dstepNext s) (dstepNext (discardNoise noise.length s)) := by
  have hr := discardNoise_of_noise_buf hbuf
  cases hf : findMarker r with
  | none =>
    have hlen : s.buf.length - tailKeep s.buf = noise.length + (r.length - tailKeep r) := by
      have := (tailKeep_le r).2
      rw [hbuf, hn.tail hf, List.length_append]
      omega
    rw [dstepNext_of_none (by rw [hbuf, hn.marker, hf]; rfl), dstepNext_of_none (by rw [hr, hf]), noMarker_eq,
      noMarker_eq, hr, hlen]
    exact (discardNoise_add _ _ s).suspend
  | some i =>
    rw [dstepNext_of_some (i := noise.length + i) (by rw [hbuf, hn.marker, hf, Nat.add_comm]; rfl),
      dstepNext_of_some (by rw [hr, hf])]
    exact headNext_sameRun (discardNoise_add _ _ s)

theorem nextPacket_of_noise {s : State} {noise r : Bytes} (hbuf : s.buf = noise ++ r) (hn : IsNoise noise r) :
    nextPacket s = nextPacket (discardNoise noise.length s) := by
  unfold nextPacket
  rw [discardNoise_of_noise_buf hbuf, hbuf, hn.marker]
  cases findMarker r with
  | none => rfl
  | some i =>
    simp only [Option.map_some]
    rw [Nat.add_comm, List.drop_length_add_append]

/-- Discarding noise ahead of a run changes neither its packets nor what it leaves. -/
theorem DecodeRun.of_noise {s u : State} {ps : List Instr} {noise r : Bytes} (hb : s.busy = true)
    (hbuf : s.buf = noise ++ r) (hn : IsNoise noise r) (h : DecodeRun (discardNoise noise.length s) ps u) :
    ∃ v, DecodeRun s ps v ∧ SameRun u v := by
  cases h with
  | done hb' => rw [discardNoise_busy, hb] at hb'; cases hb'
  | step _ h =>
    obtain ⟨v, hv, huv⟩ := h.of_sameRun (dstepNext_of_noise hbuf hn).symm
    rw [← nextPacket_of_noise hbuf hn]
    exact ⟨v, .step hb hv, huv⟩

/-! ### An iteration that suspends has only discarded noise -/

theorem headNext_of_suspended {s : State} (hb : s.busy = true) (h : (headNext s).busy = false) :
    headNext s = s.suspend := by
  unfold headNext at h ⊢
  split_ifs at h ⊢
  · rfl
  · exact absurd (hb.symm.trans h) (by simp)
  · obtain ⟨-, he⟩ | ⟨w, -, -, he⟩ := incomplete_cases s <;> rw [he] at h ⊢
    exact absurd (hb.symm.trans h) (by simp)
  · obtain ⟨-, -, hbusy, -⟩ := dispatch_sameStream (hdrType s.buf) (slice s.buf 0 (hdrLength s.buf))
      (s.trim (hdrLength s.buf))
    exact absurd (hb.symm.trans (hbusy.symm.trans h)) (by simp)

theorem exists_noise_of_suspended {s : State} (hb : s.busy = true) (hs : (dstepNext s).busy = false) :
    ∃ noise r, s.buf = noise ++ r ∧ dstepNext s = (discardNoise noise.length s).suspend
      ∧ ∀ x, IsNoise noise (r ++ x) := by
  cases hf : findMarker s.buf with
  | none =>
    obtain ⟨noise, hbuf, hlast⟩ := exists_append_tailKeep hf
    have hnone : findMarker noise = none := by
      cases hn : findMarker noise with
      | none => rfl
      | some i => rw [hbuf, findMarker_append_left hn] at hf; cases hf
    refine ⟨noise, _, hbuf, by rw [dstepNext_of_none hf, noMarker_eq, length_sub_tailKeep hbuf], fun x => ?_⟩
    exact ⟨findMarker_append_right _ hnone hlast, fun _ => tailKeep_append _ hlast⟩
  | some i =>
    obtain ⟨hi, hm⟩ := findMarker_some_at hf
    have hlen : (s.buf.take i).length = i := List.length_take_of_le hi
    refine ⟨s.buf.take i, s.buf.drop i, (List.take_append_drop i _).symm, ?_, fun x => ?_⟩
    · rw [hlen, dstepNext_of_some hf]
      rw [dstepNext_of_some hf] at hs
      exact headNext_of_suspended (by simpa using hb) hs
    · have hhead : findMarker (s.buf.drop i ++ x) = some 0 := findMarker_append_left (findMarker_of_head hm) x
      refine ⟨?_, fun hnone => ?_⟩
      · rw [← List.append_assoc, List.take_append_drop, findMarker_append_left hf, hhead, hlen, Option.map_some,
          Nat.zero_add]
      · rw [hhead] at hnone
        cases hnone

/-! ### An iteration that goes on has met a packet -/

theorem nextPacket_of_decodePacket {s : State} {i : Nat} {p : Instr} {rest : Bytes} (hf : findMarker s.buf = some i)
    (hd : decodePacket (s.buf.drop i) = .ok (p, rest)) : nextPacket s = [p] := by
  rw [nextPacket, hf]
  simp only [hd]

theorem nextPacket_of_suspended {s : State} (hb : s.busy = true) (hs : (dstepNext s).busy = false) :
    nextPacket s = [] := by
  unfold nextPacket
  cases hf : findMarker s.buf with
  | none => rfl
  | some i =>
    cases hd : decodePacket (s.buf.drop i) with
    | error e => simp only [hd]
    | ok x =>
      obtain ⟨p, rest⟩ := x
      rw [← discardNoise_buf] at hd
      have hbusy := decodeIteration_busy_of_decodePacket hd (decodeIteration_eq _)
      obtain ⟨hm, -⟩ := decodePacket_ok hd
      rw [dstepNext_of_head hm, ← dstepNext_of_some hf, discardNoise_busy, hb, hs] at hbusy
      cases hbusy

theorem decodePacket_of_complete {b : Bytes} (hm : hdrMarker b = marker) (h7 : 7 ≤ b.length)
    (hc : hdrLength b ≤ b.length) : ∃ p rest, decodePacket b = .ok (p, rest) := by
  unfold decodePacket
  rw [if_neg (not_not.mpr hm), if_neg (Nat.not_lt.mpr h7)]
  split_ifs with hl hlt
  · exact ⟨_, _, rfl⟩
  · omega
  · exact ⟨_, _, rfl⟩

/-- Without a watermark only a packet, or a header of a length below 7, lets the run go on. -/
theorem exists_packet_of_running {s : State} (hw : s.cfg.watermark = none) (hs : (dstepNext s).busy = true) :
    ∃ i p rest, findMarker s.buf = some i ∧ decodePacket (s.buf.drop i) = .ok (p, rest) := by
  cases hf : findMarker s.buf with
  | none =>
    rw [dstepNext_of_none hf, noMarker_eq] at hs
    cases hs
  | some i =>
    rw [dstepNext_of_some hf, headNext, discardNoise_buf] at hs
    have hm := (findMarker_some_at hf).2
    suffices h : 7 ≤ (s.buf.drop i).length ∧ hdrLength (s.buf.drop i) ≤ (s.buf.drop i).length by
      obtain ⟨p, rest, hd⟩ := decodePacket_of_complete hm h.1 h.2
      exact ⟨i, p, rest, rfl, hd⟩
    split_ifs at hs with h7 hl hc
    · cases hs
    · exact ⟨by omega, by omega⟩
    · rw [incomplete, discardNoise_cfg, hw] at hs
      cases hs
    · exact ⟨by omega, by omega⟩

end Sys2Proof.Machine

/-! ## O26: feeding a stream chunk by chunk is one run over the whole of it (R76, R116) -/

namespace Sys2Proof.Machine

/-- A chunk appended, and the loop run begun again: what an accepted INGEST does (R100). -/
def State.resume (x : Bytes) (s : State) : State := { s with buf := s.buf ++ x, busy := true }

section
variable (s : State) (x y : Bytes)

@[simp] theorem State.resume_buf : (s.resume x).buf = s.buf ++ x := rfl

theorem State.resume_resume : (s.resume x).resume y = s.resume (x ++ y) := by
  simp only [State.resume, List.append_assoc]

theorem sameDecoded_resume : SameDecoded (s.resume x) s := { SameDecoded.refl s with }

end

theorem ingest_eq_resume {c : Bytes} {s : State} (hc : c.length ≤ s.cfg.maxChunk) : ingest c s = s.resume c :=
  ingest_of_le hc

theorem discardNoise_resume {i : Nat} {s : State} (hi : i ≤ s.buf.length) (x : Bytes) :
    discardNoise i (s.resume x) = (discardNoise i s).resume x := by
  have hdrop : (s.buf ++ x).drop i = s.buf.drop i ++ x := List.drop_append_of_le_length hi
  obtain ⟨rfl, -⟩ | ⟨hpos, -⟩ := discardNoise_eq i s
  · rfl
  · simp only [discardNoise, if_pos hpos, State.trim, State.resume, State.raise_buf, hdrop]
    rfl

/-! ### A packet is decoded the same whatever follows it -/

theorem decodePacket_append {b rest : Bytes} {p : Instr} (x : Bytes) (h : decodePacket b = .ok (p, rest)) :
    decodePacket (b ++ x) = .ok (p, rest ++ x) := by
  obtain ⟨t, lll, hlll, rfl, rfl⟩ | ⟨t, body, hbody, rfl, rfl⟩ := decodePacket_ok_bytes h
  · rw [List.append_assoc]
    exact decodePacket_shortHeader t _ hlll
  · rw [List.append_assoc]
    exact decodePacket_packetBytes t _ hbody

theorem header_append {b : Bytes} (x : Bytes) (h7 : 7 ≤ b.length) :
    hdrType (b ++ x) = hdrType b ∧ hdrLength (b ++ x) = hdrLength b := by
  obtain ⟨m0, m1, m2, m3, t, l1, l0, r, rfl⟩ := header_split b h7
  exact ⟨rfl, rfl⟩

/-- What the packet at the head does to the outputs, the queue and the counters does not depend on the bytes
behind it. -/
theorem dstepNext_resume_sameDecoded {s : State} {p : Instr} {rest : Bytes} (x : Bytes)
    (hd : decodePacket s.buf = .ok (p, rest)) : SameDecoded (dstepNext (s.resume x)) (dstepNext s) := by
  obtain ⟨hm, h7, -⟩ := decodePacket_ok hd
  obtain ⟨htype, hlen⟩ := header_append x h7
  have hm' : hdrMarker (s.resume x).buf = marker := (hdrMarker_append_of_le x (by omega)).trans hm
  have hle : s.buf.length ≤ (s.resume x).buf.length := by simp
  have hsame := sameDecoded_resume s x
  rw [← State.resume_buf] at htype hlen
  rw [dstepNext_of_head hm, dstepNext_of_head hm']
  obtain ⟨hl, -⟩ | ⟨hl, hc, -⟩ := decodeIteration_of_decodePacket hd
  · rw [headNext_of_short h7 hl, headNext_of_short (Nat.le_trans h7 hle) (hlen ▸ hl), hlen]
    exact (hsame.raise _).trim _ _
  · have hslice : slice (s.resume x).buf 0 (hdrLength s.buf) = slice s.buf 0 (hdrLength s.buf) :=
      slice_append_left x hc
    rw [headNext_of_complete hl hc, headNext_of_complete (hlen ▸ hl) (hlen ▸ Nat.le_trans hc hle), htype, hlen, hslice]
    exact dispatch_sameDecoded (hsame.trim _ _) _ _

/-- Appending bytes before or after the iteration that meets a packet at the head is the same. -/
theorem dstepNext_resume_of_decodePacket {s : State} {p : Instr} {rest : Bytes} (x : Bytes)
    (hd : decodePacket s.buf = .ok (p, rest)) : SameRun (dstepNext (s.resume x)) ((dstepNext s).resume x) := by
  obtain ⟨hbuf, -⟩ := dstepNext_of_decodePacket hd
  obtain ⟨hbuf', hbusy'⟩ := dstepNext_of_decodePacket (s := s.resume x) (decodePacket_append x hd)
  exact { dstepNext_resume_sameDecoded x hd with
    buf := by rw [hbuf', State.resume_buf, hbuf]
    busy := hbusy' }

/-- An iteration that goes on meets the same packet, and does the same, whatever arrives behind it. -/
theorem dstepNext_resume_of_running {s : State} (hw : s.cfg.watermark = none) (hs : (dstepNext s).busy = true)
    (x : Bytes) :
    nextPacket (s.resume x) = nextPacket s ∧ SameRun (dstepNext (s.resume x)) ((dstepNext s).resume x) := by
  obtain ⟨i, p, rest, hf, hd⟩ := exists_packet_of_running hw hs
  obtain ⟨hi, -⟩ := findMarker_some_at hf
  have hf' : findMarker (s.resume x).buf = some i := findMarker_append_left hf x
  have hd' : decodePacket ((s.resume x).buf.drop i) = .ok (p, rest ++ x) := by
    rw [State.resume_buf, List.drop_append_of_le_length hi]
    exact decodePacket_append x hd
  refine ⟨by rw [nextPacket_of_decodePacket hf hd, nextPacket_of_decodePacket hf' hd'], ?_⟩
  rw [← discardNoise_buf] at hd
  obtain ⟨hm, -⟩ := decodePacket_ok hd
  have hnext : dstepNext s = dstepNext (discardNoise i s) := by
    rw [dstepNext_of_some hf, dstepNext_of_head hm]
  have hm' : hdrMarker ((discardNoise i s).resume x).buf = marker :=
    (hdrMarker_append_of_le x (length_of_hdrMarker hm)).trans hm
  have hnext' : dstepNext (s.resume x) = dstepNext ((discardNoise i s).resume x) := by
    rw [dstepNext_of_some hf', discardNoise_resume hi, dstepNext_of_head hm']
  rw [hnext, hnext']
  exact dstepNext_resume_of_decodePacket x hd

/-! ### Runs, one after the other -/

/-- A run, then the run after more bytes, is one run with those bytes there from the start. -/
theorem DecodeRun.resume {s u : State} {ps : List Instr} (h : DecodeRun s ps u) (hw : s.cfg.watermark = none)
    {x : Bytes} {qs : List Instr} {v : State} (hv : DecodeRun (u.resume x) qs v) :
    ∃ w, DecodeRun (s.resume x) (ps ++ qs) w ∧ SameRun v w := by
  induction h with
  | done => exact ⟨v, hv, .refl v⟩
  | @step s u ps hb h ih =>
    cases hs : (dstepNext s).busy with
    | true =>
      obtain ⟨hcfg, -⟩ := decodeIteration_stream (decodeIteration_eq s)
      obtain ⟨w, hrun, hvw⟩ := ih (hcfg ▸ hw) hv
      obtain ⟨hpacket, hstep⟩ := dstepNext_resume_of_running hw hs x
      obtain ⟨w', hrun', hww'⟩ := hrun.of_sameRun hstep.symm
      refine ⟨w', ?_, hvw.trans hww'⟩
      rw [List.append_assoc, ← hpacket]
      exact .step rfl hrun'
    | false =>
      obtain ⟨rfl, rfl⟩ := (DecodeRun.done hs).unique h
      obtain ⟨noise, r, hbuf, he, hnoise⟩ := exists_noise_of_suspended hb hs
      have hle : noise.length ≤ s.buf.length := by rw [hbuf, List.length_append]; exact Nat.le_add_right _ _
      have hstart : (dstepNext s).resume x = discardNoise noise.length (s.resume x) := by
        rw [he, discardNoise_resume hle]; rfl
      have hbuf' : (s.resume x).buf = noise ++ (r ++ x) := by rw [State.resume_buf, hbuf, List.append_assoc]
      rw [hstart] at hv
      rw [nextPacket_of_suspended hb hs]
      exact hv.of_noise rfl hbuf' (hnoise x)

/-! ### FEED -/

/-- A block that can be fed, with no watermark: idle, connected, its buffer a retained form (R34). -/
structure Receptive (s : State) : Prop where
  idle : s.busy = false
  connected : s.disc = false
  unmarked : s.cfg.watermark = none
  retained : RetainedForm s.cfg s.buf

/-- FEED is a run over the buffer with the chunk appended. -/
theorem decodeRun_feed {s : State} {c : Bytes} (hs : Receptive s) (hc : c.length ≤ s.cfg.maxChunk) :
    DecodeRun (s.resume c) (feedPackets s c) (feed s c) := by
  simp only [feedPackets, feed, exec_portIngest_of_free c hs.idle hs.connected, ingest_eq_resume hc]
  exact decodeRun_drain (Nat.lt_succ_self _)

theorem Receptive.feed {s : State} {c : Bytes} (hs : Receptive s) (hc : c.length ≤ s.cfg.maxChunk) :
    Receptive (Machine.feed s c) ∧ (Machine.feed s c).cfg = s.cfg := by
  have hrun := decodeRun_feed hs hc
  obtain ⟨hcfg, hdisc⟩ := hrun.cfg_disc
  refine ⟨⟨hrun.busy_eq_false, hdisc.trans hs.connected, ?_, hrun.retained rfl⟩, hcfg⟩
  rw [hcfg]
  exact hs.unmarked

/-- With no new bytes the loop suspends at once, and nothing has changed. -/
theorem Receptive.decodeRun_nil {s : State} (hs : Receptive s) : ∃ w, DecodeRun (s.resume []) [] w ∧ SameRun s w := by
  have hret : RetainedForm (s.resume []).cfg (s.resume []).buf := by
    rw [State.resume_buf, List.append_nil]
    exact hs.retained
  have hnext : dstepNext (s.resume []) = (s.resume []).suspend :=
    Host.Outcome.next.inj ((decodeIteration_eq _).symm.trans (decodeIteration_of_retained hret))
  have hend : (dstepNext (s.resume [])).busy = false := by rw [hnext]; rfl
  have hrun := DecodeRun.step (s := s.resume []) rfl (.done hend)
  rw [nextPacket_of_suspended rfl hend] at hrun
  refine ⟨_, hrun, ?_⟩
  rw [hnext]
  exact { SameDecoded.refl s with buf := (List.append_nil _).symm, busy := hs.idle }

/-- Feeding a stream in chunks meets the packets of one run over the whole stream, and agrees with its end. -/
theorem decodeRun_feedAll {s : State} {cs : List Bytes} (hs : Receptive s) (hcs : ∀ c ∈ cs, c.length ≤ s.cfg.maxChunk) :
    ∃ w, DecodeRun (s.resume cs.flatten) (feedAllPackets s cs) w ∧ SameRun (feedAll s cs) w := by
  induction cs generalizing s with
  | nil => exact hs.decodeRun_nil
  | cons c cs ih =>
    obtain ⟨hc, hcs⟩ := List.forall_mem_cons.mp hcs
    obtain ⟨hs', hcfg⟩ := hs.feed hc
    obtain ⟨v, hrest, hv⟩ := ih hs' (hcfg ▸ hcs)
    obtain ⟨w, hrun, hw⟩ := (decodeRun_feed hs hc).resume hs.unmarked hrest
    rw [State.resume_resume] at hrun
    exact ⟨w, hrun, hv.trans hw⟩

/-- Settles O26: both splits agree with the one run over the whole stream. -/
theorem chunkBoundariesDoNotMatter : Obligations.ChunkBoundariesDoNotMatter := by
  unfold Obligations.ChunkBoundariesDoNotMatter
  intro s cs ds hinv hb hd hw hcs hds hstream
  obtain ⟨-, -, -, -, hret, -⟩ := hinv
  have hs : Receptive s := ⟨hb, hd, hw, hret hb⟩
  obtain ⟨v, hrun, hv⟩ := decodeRun_feedAll hs hcs
  obtain ⟨w, hrun', hw⟩ := decodeRun_feedAll hs hds
  rw [← hstream] at hrun'
  obtain ⟨hpackets, rfl⟩ := hrun.unique hrun'
  have h := hv.trans hw.symm
  refine ⟨hpackets, h.trace, h.q, h.waiter, h.events, h.buf, fun k hk => ?_⟩
  obtain ⟨r, rfl⟩ := DiagReg.index_surjective k
  exact h.regs r hk

end Sys2Proof.Machine

/-! ## O29: the array decoder, byte for byte (R135) -/

namespace Sys2Proof.Machine

theorem decodeArray_length (p : Bytes) (w : Nat) : (decodeArray p w).length = p.length / w := by
  rw [decodeArray, List.length_map, List.length_range]

/-- An element is read from at most `w` bytes. -/
theorem decodeArray_lt {p : Bytes} {w v : Nat} (h : v ∈ decodeArray p w) : v < 2 ^ (8 * w) := by
  obtain ⟨k, -, rfl⟩ := List.mem_map.mp h
  have hlen : (slice p (k * w) ((k + 1) * w)).length ≤ w := by
    rw [slice, List.length_drop, List.length_take, Nat.succ_mul]
    omega
  calc be (slice p (k * w) ((k + 1) * w)) < 256 ^ (slice p (k * w) ((k + 1) * w)).length := be_lt _
    _ ≤ 256 ^ w := Nat.pow_le_pow_right (by decide) hlen
    _ = 2 ^ (8 * w) := (pow_mul 2 8 w).symm

/-- The elements of `n` whole pieces of `w` bytes encode back to those bytes: the first piece is the first
element (`decodeArray_append`), and so on. -/
theorem flatten_map_beEnc_decodeArray {w : Nat} (hw : 0 < w) {p : Bytes} {n : Nat} (h : p.length = n * w) :
    ((decodeArray p w).map (beEnc w)).flatten = p := by
  induction n generalizing p with
  | zero =>
    obtain rfl : p = [] := List.eq_nil_of_length_eq_zero (by omega)
    simp only [decodeArray_nil, List.map_nil, List.flatten_nil]
  | succ n ih =>
    rw [Nat.succ_mul] at h
    have htake : (p.take w).length = w := by rw [List.length_take]; omega
    have hdrop : (p.drop w).length = n * w := by rw [List.length_drop]; omega
    have hfirst : beEnc w (be (p.take w)) = p.take w := by
      have h := beEnc_be (p.take w)
      rwa [htake] at h
    calc ((decodeArray p w).map (beEnc w)).flatten
        = ((decodeArray (p.take w ++ p.drop w) w).map (beEnc w)).flatten := by rw [List.take_append_drop]
      _ = p.take w ++ p.drop w := by
        rw [decodeArray_append _ htake hw, List.map_cons, List.flatten_cons, hfirst, ih hdrop]
      _ = p := List.take_append_drop w p

/-- Settles O29: the count and the bound hold of any payload; a payload of whole elements encodes back. -/
theorem arrayElementsAreBigEndian : Obligations.ArrayElementsAreBigEndian := by
  unfold Obligations.ArrayElementsAreBigEndian
  intro p w hw hmod
  refine ⟨decodeArray_length p w, fun v => decodeArray_lt, ?_⟩
  exact flatten_map_beEnc_decodeArray hw (Nat.div_mul_cancel (Nat.dvd_of_mod_eq_zero hmod)).symm

end Sys2Proof.Machine

/-! ## O30: the block decoder's checks (R134) -/

namespace Sys2Proof.Machine

/-- A block's header is three bytes. -/
theorem decodeBlock_headerShort (c : Config) {b : Bytes} {o : Nat} (h : b.length < o + 3) :
    decodeBlock c b o = .error .blockHeaderShort := if_pos h

theorem be_pair (l1 l0 : Byte) : be [l1, l0] = l1.toNat * 256 + l0.toNat := by
  simp only [be, List.foldl_cons, List.foldl_nil, Nat.zero_mul, Nat.zero_add]

/-- A block's two length bytes, by their value. -/
theorem beEnc_two_pair (l1 l0 : Byte) : beEnc 2 (l1.toNat * 256 + l0.toNat) = [l1, l0] := by
  rw [← be_pair]
  exact beEnc_be [l1, l0]

/-- A payload that its header says runs past the end of the body. -/
theorem decodeBlock_overrun (c : Config) (pre tail : Bytes) (id l1 l0 : Byte)
    (h : tail.length < l1.toNat * 256 + l0.toNat) :
    decodeBlock c (pre ++ ([id, l1, l0] ++ tail)) pre.length = .error .blockOverrun := by
  have hlen : (pre ++ ([id, l1, l0] ++ tail)).length = pre.length + 3 + tail.length := by
    simp only [List.length_append, List.length_cons, List.length_nil]
    omega
  have hbl : be (slice (pre ++ ([id, l1, l0] ++ tail)) (pre.length + 1) (pre.length + 3))
      = l1.toNat * 256 + l0.toNat := by
    rw [slice_append_right, ← be_pair]
    rfl
  rw [decodeBlock, if_neg (by omega)]
  simp only [hbl]
  rw [if_pos (by omega)]

/-- Settles O30, check by check: the header, the end of the body, and then the width (`decodeBlock_payload`). -/
theorem blockDecodingChecksInOrder : Obligations.BlockDecodingChecksInOrder := by
  unfold Obligations.BlockDecodingChecksInOrder
  intro c pre post
  constructor
  · intro h
    exact decodeBlock_headerShort c (by rw [List.length_append]; omega)
  · rintro id l1 l0 tail rfl
    refine ⟨decodeBlock_overrun c pre tail id l1 l0, ?_⟩
    rintro payload rest rfl hlen
    have hlt : payload.length < 65536 := by
      have := l1.isLt
      have := l0.isLt
      omega
    have hheader : [id] ++ beEnc 2 payload.length = [id, l1, l0] := by
      rw [hlen, beEnc_two_pair]
      rfl
    rw [← hheader, decodeBlock_payload c pre payload rest id hlt, ite_not]

end Sys2Proof.Machine

/-! ## O32: UTF-8 validity (R138) -/

namespace Sys2Proof.Machine

/-- Each byte of `p` is in the range its row gives it. -/
abbrev Utf8Form (p : Bytes) (row : List (Nat × Nat)) : Prop :=
  List.Forall₂ (fun (x : Byte) (r : Nat × Nat) => r.1 ≤ x.toNat ∧ x.toNat ≤ r.2) p row

theorem startsWithRow_iff (row : List (Nat × Nat)) (b : Bytes) :
    startsWithRow row b = true ↔ Utf8Form (b.take row.length) row := by
  induction row generalizing b with
  | nil => simp [startsWithRow]
  | cons r row ih =>
    cases b with
    | nil => simp [startsWithRow]
    | cons x b => simp [startsWithRow, ih]

theorem startsWithRow_append {p : Bytes} {row : List (Nat × Nat)} (h : Utf8Form p row) (rest : Bytes) :
    startsWithRow row (p ++ rest) = true := by
  rw [startsWithRow_iff, ← h.length_eq, List.take_left]
  exact h

/-- The rows of R138's table have first bytes of disjoint ranges. -/
theorem utf8Table_heads_disjoint : ∀ row ∈ utf8Table, ∀ row' ∈ utf8Table, ∀ r ∈ row.head?, ∀ r' ∈ row'.head?,
    r.1 ≤ r'.2 → r'.1 ≤ r.2 → row = row' := by
  decide

theorem utf8Table_ne_nil : ∀ row ∈ utf8Table, row ≠ [] := by
  decide

/-- So the first byte tells the row. -/
theorem startsWithRow_unique {row row' : List (Nat × Nat)} {b : Bytes} (hrow : row ∈ utf8Table)
    (hrow' : row' ∈ utf8Table) (h : startsWithRow row b = true) (h' : startsWithRow row' b = true) : row = row' := by
  have hdisjoint := utf8Table_heads_disjoint row hrow row' hrow'
  match row, row', b, utf8Table_ne_nil row hrow, utf8Table_ne_nil row' hrow' with
  | (lo, hi) :: row, (lo', hi') :: row', x :: b, _, _ =>
    simp only [startsWithRow, Bool.and_eq_true, decide_eq_true_eq] at h h'
    obtain ⟨⟨hlo, hhi⟩, -⟩ := h
    obtain ⟨⟨hlo', hhi'⟩, -⟩ := h'
    exact hdisjoint _ rfl _ rfl (hlo.trans hhi') (hlo'.trans hhi)

/-- The sequence at the head is of one of the table's forms, and it is the only one there. -/
theorem utf8Head_eq_some_iff (b : Bytes) (k : Nat) :
    utf8Head b = some k ↔ ∃ row ∈ utf8Table, row.length = k ∧ startsWithRow row b = true := by
  rw [utf8Head]
  constructor
  · intro h
    obtain ⟨row, hfind, hk⟩ := Option.map_eq_some_iff.mp h
    exact ⟨row, List.mem_of_find?_eq_some hfind, hk, List.find?_some (p := fun row => startsWithRow row b) hfind⟩
  · rintro ⟨row, hrow, rfl, hstart⟩
    cases hfind : utf8Table.find? (fun row => startsWithRow row b) with
    | none => exact absurd hstart (List.find?_eq_none.mp hfind row hrow)
    | some found =>
      have hfound := List.find?_some (p := fun row => startsWithRow row b) hfind
      rw [startsWithRow_unique (List.mem_of_find?_eq_some hfind) hrow hfound hstart, Option.map_some]

/-- With fuel for one sequence more: no bytes, or a sequence at the head and valid bytes after it. -/
theorem validUtf8Fuel_succ_iff (fuel : Nat) (b : Bytes) :
    validUtf8Fuel (fuel + 1) b = true ↔
      b = [] ∨ ∃ k, utf8Head b = some k ∧ validUtf8Fuel fuel (b.drop k) = true := by
  cases b with
  | nil => simp only [validUtf8Fuel, true_or]
  | cons x b =>
    rw [validUtf8Fuel]
    cases utf8Head (x :: b) <;> simp

/-- `parts` are sequences of the forms of R138's table. -/
abbrev Utf8Parts (parts : List Bytes) : Prop := ∀ p ∈ parts, ∃ row ∈ utf8Table, Utf8Form p row

/-- Bytes found valid split into sequences of the table's forms. -/
theorem exists_parts_of_validUtf8Fuel {fuel : Nat} {b : Bytes} (h : validUtf8Fuel fuel b = true) :
    ∃ parts, b = parts.flatten ∧ Utf8Parts parts := by
  induction fuel generalizing b with
  | zero =>
    cases b with
    | nil => exact ⟨[], rfl, List.forall_mem_nil _⟩
    | cons x b => exact absurd h Bool.false_ne_true
  | succ fuel ih =>
    obtain rfl | ⟨k, hhead, hrest⟩ := (validUtf8Fuel_succ_iff fuel b).mp h
    · exact ⟨[], rfl, List.forall_mem_nil _⟩
    · obtain ⟨row, hrow, rfl, hstart⟩ := (utf8Head_eq_some_iff b k).mp hhead
      obtain ⟨parts, hparts, hforms⟩ := ih hrest
      have hform := (startsWithRow_iff row b).mp hstart
      refine ⟨b.take row.length :: parts, ?_, List.forall_mem_cons.mpr ⟨⟨row, hrow, hform⟩, hforms⟩⟩
      rw [List.flatten_cons, ← hparts, List.take_append_drop]

/-- Sequences of the table's forms are found valid: each is the one at the head of what is left, and holds a
byte, so as much fuel as there are bytes is enough. -/
theorem validUtf8Fuel_flatten {parts : List Bytes} (h : Utf8Parts parts) {fuel : Nat}
    (hfuel : parts.flatten.length ≤ fuel) : validUtf8Fuel fuel parts.flatten = true := by
  induction parts generalizing fuel with
  | nil => rw [List.flatten_nil, validUtf8Fuel]
  | cons p parts ih =>
    obtain ⟨⟨row, hrow, hform⟩, hparts⟩ := List.forall_mem_cons.mp h
    have hhead := (utf8Head_eq_some_iff (p ++ parts.flatten) p.length).mpr
      ⟨row, hrow, hform.length_eq.symm, startsWithRow_append hform _⟩
    have hpos : 0 < p.length := hform.length_eq ▸ List.length_pos_of_ne_nil (utf8Table_ne_nil row hrow)
    rw [List.flatten_cons, List.length_append] at hfuel
    rw [List.flatten_cons]
    obtain ⟨fuel, rfl⟩ := Nat.exists_eq_add_one_of_ne_zero (show fuel ≠ 0 by omega)
    refine (validUtf8Fuel_succ_iff fuel _).mpr (.inr ⟨_, hhead, ?_⟩)
    rw [List.drop_left]
    exact ih hparts (by omega)

/-- Settles O32: the two lemmas above, at the fuel of validUtf8. -/
theorem utf8ValidityIsSplitting : Obligations.Utf8ValidityIsSplitting := by
  unfold Obligations.Utf8ValidityIsSplitting
  intro b
  constructor
  · exact exists_parts_of_validUtf8Fuel
  · rintro ⟨parts, rfl, hforms⟩
    exact validUtf8Fuel_flatten hforms le_rfl

end Sys2Proof.Machine

/-! ## O31: the bodies the DATA decoder accepts (R130 to R132, R136, R79) -/

namespace Sys2Proof.Machine

/-! ### Blocks -/

/-- What the block decoder makes of a whole payload is a block the serializer is defined on, whose
serialization is the header and the payload. -/
theorem serBlock_decodeArray {c : Config} {id l1 l0 : Byte} {payload : Bytes} (hw : 0 < widthOf c id)
    (hlen : payload.length = l1.toNat * 256 + l0.toNat) (hmod : payload.length % widthOf c id = 0) :
    BlockOk c ⟨id, widthOf c id, decodeArray payload (widthOf c id)⟩ ∧
      serBlock ⟨id, widthOf c id, decodeArray payload (widthOf c id)⟩ = [id, l1, l0] ++ payload := by
  obtain ⟨hcount, hvalues, hflat⟩ := arrayElementsAreBigEndian payload (widthOf c id) hw hmod
  have hsize : widthOf c id * (decodeArray payload (widthOf c id)).length = payload.length := by
    rw [hcount, Nat.mul_div_cancel' (Nat.dvd_of_mod_eq_zero hmod)]
  have hlt : payload.length < 65536 := by
    have := l1.isLt
    have := l0.isLt
    omega
  refine ⟨⟨rfl, hw, hvalues, hsize ▸ hlt⟩, ?_⟩
  simp only [serBlock, hsize, hflat, hlen, beEnc_two_pair, List.singleton_append]

/-- The block decoder accepts exactly the serializations of the blocks the serializer is defined on. -/
theorem decodeBlock_eq_ok_iff {c : Config} (hc : legalConfig c = true) (pre post : Bytes) (blk : DataBlock) (o : Nat) :
    decodeBlock c (pre ++ post) pre.length = .ok (blk, o) ↔
      BlockOk c blk ∧ o = pre.length + (serBlock blk).length ∧ ∃ rest, post = serBlock blk ++ rest := by
  constructor
  · intro h
    obtain ⟨hshort, hlong⟩ := blockDecodingChecksInOrder c pre post
    match post, hshort, hlong with
    | [], hshort, _ | [_], hshort, _ | [_, _], hshort, _ => cases h.symm.trans (hshort (by simp))
    | id :: l1 :: l0 :: tail, _, hlong =>
      obtain ⟨hover, hpayload⟩ := hlong id l1 l0 tail rfl
      obtain hlt | hle := Nat.lt_or_ge tail.length (l1.toNat * 256 + l0.toNat)
      · cases h.symm.trans (hover hlt)
      · have hlen := List.length_take_of_le hle
        rw [hpayload _ _ (List.take_append_drop _ tail).symm hlen] at h
        split at h
        case isFalse => cases h
        case isTrue hmod =>
          obtain ⟨hok, hser⟩ := serBlock_decodeArray (legalConfig_widths hc id) hlen hmod
          cases h
          refine ⟨hok, ?_, tail.drop (l1.toNat * 256 + l0.toNat), ?_⟩
          · rw [hser, List.length_append, ← Nat.add_assoc]
            rfl
          · rw [hser, List.append_assoc, List.take_append_drop]
            rfl
  · rintro ⟨hok, rfl, rest, rfl⟩
    exact decodeBlock_serBlock hok pre rest

/-- `n + 1` blocks are one block and `n` more. -/
theorem decodeBlocks_succ_eq_ok_iff (c : Config) (b : Bytes) (n o o'' : Nat) (blks : List DataBlock) :
    decodeBlocks c b (n + 1) o = .ok (blks, o'') ↔
      ∃ blk o' blks', decodeBlock c b o = .ok (blk, o') ∧ decodeBlocks c b n o' = .ok (blks', o'')
        ∧ blks = blk :: blks' := by
  rw [decodeBlocks]
  constructor
  · intro h
    cases hblk : decodeBlock c b o with
    | error e => simp only [hblk] at h; cases h
    | ok r =>
      cases hblks : decodeBlocks c b n r.2 with
      | error e => simp only [hblk, hblks] at h; cases h
      | ok rs =>
        simp only [hblk, hblks] at h
        cases h
        exact ⟨r.1, r.2, rs.1, rfl, hblks, rfl⟩
  · rintro ⟨blk, o', blks', hblk, hblks, rfl⟩
    simp only [hblk, hblks]

/-- An error of `n + 1` blocks is one of the first block, or of the `n` after it. -/
theorem decodeBlocks_succ_error {c : Config} {b : Bytes} {n o : Nat} {e : SubCause}
    (h : decodeBlocks c b (n + 1) o = .error e) :
    decodeBlock c b o = .error e ∨ ∃ o', decodeBlocks c b n o' = .error e := by
  rw [decodeBlocks] at h
  cases hblk : decodeBlock c b o with
  | error e' => simp only [hblk] at h; cases h; exact .inl rfl
  | ok r =>
    cases hblks : decodeBlocks c b n r.2 with
    | error e' => simp only [hblk, hblks] at h; exact .inr ⟨r.2, hblks.trans h⟩
    | ok rs => simp only [hblk, hblks] at h; cases h

/-- The decoder of `n` blocks accepts exactly the serializations of `n` such blocks. -/
theorem decodeBlocks_eq_ok_iff {c : Config} (hc : legalConfig c = true) (n : Nat) (pre post : Bytes)
    (blks : List DataBlock) (o : Nat) :
    decodeBlocks c (pre ++ post) n pre.length = .ok (blks, o) ↔
      blks.length = n ∧ (∀ blk ∈ blks, BlockOk c blk) ∧ o = pre.length + (blks.map serBlock).flatten.length ∧
        ∃ rest, post = (blks.map serBlock).flatten ++ rest := by
  induction n generalizing pre post blks o with
  | zero =>
    constructor
    · intro h
      cases h
      exact ⟨rfl, List.forall_mem_nil _, rfl, post, rfl⟩
    · rintro ⟨hlen, -, rfl, -⟩
      rw [List.length_eq_zero_iff.mp hlen]
      rfl
  | succ n ih =>
    rw [decodeBlocks_succ_eq_ok_iff]
    constructor
    · rintro ⟨blk, o', blks', hblk, hblks, rfl⟩
      obtain ⟨hok, rfl, rest, rfl⟩ := (decodeBlock_eq_ok_iff hc pre post blk o').mp hblk
      rw [← List.length_append, ← List.append_assoc, ih] at hblks
      obtain ⟨rfl, hoks, rfl, rest', rfl⟩ := hblks
      refine ⟨rfl, List.forall_mem_cons.mpr ⟨hok, hoks⟩, ?_, rest', ?_⟩
      · simp only [List.map_cons, List.flatten_cons, List.length_append, Nat.add_assoc]
      · rw [List.map_cons, List.flatten_cons, List.append_assoc]
    · rintro ⟨hlen, hoks, rfl, rest, rfl⟩
      obtain ⟨blk, blks', rfl⟩ := List.exists_cons_of_length_eq_add_one hlen
      obtain ⟨hok, hoks⟩ := List.forall_mem_cons.mp hoks
      rw [List.map_cons, List.flatten_cons, List.append_assoc]
      refine ⟨blk, _, blks', decodeBlock_serBlock hok pre _, ?_, rfl⟩
      rw [← List.length_append, ← List.append_assoc, ih]
      refine ⟨Nat.succ.inj hlen, hoks, ?_, rest, rfl⟩
      simp only [List.length_append, Nat.add_assoc]

/-- Blocks that were read are read whatever follows the body. -/
theorem decodeBlocks_append {c : Config} (hc : legalConfig c = true) {b : Bytes} {n o : Nat}
    {blks : List DataBlock} {o' : Nat} (ho : o ≤ b.length) (h : decodeBlocks c b n o = .ok (blks, o')) (extra : Bytes) :
    decodeBlocks c (b ++ extra) n o = .ok (blks, o') := by
  obtain ⟨pre, post, rfl, rfl⟩ : ∃ pre post, b = pre ++ post ∧ pre.length = o :=
    ⟨b.take o, b.drop o, (List.take_append_drop o b).symm, List.length_take_of_le ho⟩
  obtain ⟨hlen, hoks, ho', rest, rfl⟩ := (decodeBlocks_eq_ok_iff hc n pre post blks o').mp h
  rw [List.append_assoc, List.append_assoc]
  exact (decodeBlocks_eq_ok_iff hc n pre _ blks o').mpr ⟨hlen, hoks, ho', _, rfl⟩

/-! ### Bodies -/

theorem decodeData_of_blocks {c : Config} {b : Bytes} {blks : List DataBlock} {o : Nat} (h5 : 5 ≤ b.length)
    (h : decodeBlocks c b (b.getD 4 0).toNat 5 = .ok (blks, o)) :
    decodeData c b = if o ≠ b.length then .error .trailingBytes
      else .ok { relativeStartTimestampMs := BitVec.ofNat 32 (be (slice b 0 4)), dataBlocks := blks } := by
  rw [decodeData, if_neg (Nat.not_lt.mpr h5)]
  simp only [h]

theorem decodeData_of_blocks_error {c : Config} {b : Bytes} {e : SubCause} (h5 : 5 ≤ b.length)
    (h : decodeBlocks c b (b.getD 4 0).toNat 5 = .error e) : decodeData c b = .error e := by
  rw [decodeData, if_neg (Nat.not_lt.mpr h5)]
  simp only [h]

theorem decodeData_of_short {c : Config} {b : Bytes} (h : b.length < 5) : decodeData c b = .error .bodyShort :=
  if_pos h

/-- An accepted body has its fixed part, and blocks up to its end. -/
theorem decodeData_eq_ok {c : Config} {b : Bytes} {dp : DataPacket} (h : decodeData c b = .ok dp) :
    5 ≤ b.length ∧ decodeBlocks c b (b.getD 4 0).toNat 5 = .ok (dp.dataBlocks, b.length)
      ∧ dp.relativeStartTimestampMs = BitVec.ofNat 32 (be (slice b 0 4)) := by
  obtain hlt | h5 := Nat.lt_or_ge b.length 5
  · cases h.symm.trans (decodeData_of_short hlt)
  · cases hblks : decodeBlocks c b (b.getD 4 0).toNat 5 with
    | error e => cases h.symm.trans (decodeData_of_blocks_error h5 hblks)
    | ok r =>
      rw [decodeData_of_blocks h5 hblks] at h
      split at h
      case isTrue => cases h
      case isFalse hend =>
        cases h
        exact ⟨h5, by rw [← not_ne_iff.mp hend], rfl⟩

/-- A four-byte time stamp encodes back. -/
theorem beEnc_timestamp {t : Bytes} (h : t.length = 4) : beEnc 4 (BitVec.ofNat 32 (be t)).toNat = t := by
  have hlt : be t < 2 ^ 32 := by
    have := be_lt t
    rwa [h] at this
  have henc := beEnc_be t
  rwa [h, ← Nat.mod_eq_of_lt hlt, ← BitVec.toNat_ofNat] at henc

/-- An accepted body is the serialization of the packet it decodes to, which the serializer is defined on. -/
theorem serDataBody_of_decodeData {c : Config} (hc : legalConfig c = true) {b : Bytes} (hb : b.length ≤ 65528)
    {dp : DataPacket} (h : decodeData c b = .ok dp) : Serializable c dp ∧ serDataBody dp = b := by
  obtain ⟨h5, hblks, htime⟩ := decodeData_eq_ok h
  match b, h5 with
  | t0 :: t1 :: t2 :: t3 :: n :: post, _ =>
    obtain ⟨hcount, hoks, hend, rest, rfl⟩ := (decodeBlocks_eq_ok_iff hc n.toNat [t0, t1, t2, t3, n] post _ _).mp hblks
    obtain rfl : rest = [] := by
      refine List.eq_nil_of_length_eq_zero ?_
      simp only [List.length_cons, List.length_append, List.length_nil] at hend
      omega
    have hser : serDataBody dp = t0 :: t1 :: t2 :: t3 :: n :: ((dp.dataBlocks.map serBlock).flatten ++ []) := by
      have hstamp : beEnc 4 dp.relativeStartTimestampMs.toNat = [t0, t1, t2, t3] := by
        rw [htime]
        exact beEnc_timestamp rfl
      rw [serDataBody, hstamp, hcount, BitVec.ofNat_toNat, BitVec.setWidth_eq, List.append_nil]
      rfl
    refine ⟨⟨?_, fun blk hmem => ⟨(hoks blk hmem).width, (hoks blk hmem).values⟩, ?_⟩, hser⟩
    · have := n.isLt
      omega
    · rw [serData_length, hser]
      omega

/-! ### The sub-causes BodyShort and TrailingBytes -/

theorem decodeBlock_ne_bodyShort (c : Config) (b : Bytes) (o : Nat) : decodeBlock c b o ≠ .error .bodyShort := by
  unfold decodeBlock
  dsimp only
  split_ifs <;> nofun

theorem decodeBlocks_ne_bodyShort (c : Config) (b : Bytes) (n o : Nat) : decodeBlocks c b n o ≠ .error .bodyShort := by
  induction n generalizing o with
  | zero => nofun
  | succ n ih =>
    intro h
    obtain hblk | ⟨o', hblks⟩ := decodeBlocks_succ_error h
    · exact decodeBlock_ne_bodyShort c b o hblk
    · exact ih o' hblks

/-- No block is BodyShort, so only a body without its fixed part is. -/
theorem decodeData_bodyShort_iff (c : Config) (b : Bytes) : decodeData c b = .error .bodyShort ↔ b.length < 5 := by
  refine ⟨fun h => ?_, decodeData_of_short⟩
  by_contra hlt
  have h5 := Nat.not_lt.mp hlt
  cases hblks : decodeBlocks c b (b.getD 4 0).toNat 5 with
  | error e =>
    cases h.symm.trans (decodeData_of_blocks_error h5 hblks)
    exact decodeBlocks_ne_bodyShort c b _ 5 hblks
  | ok r =>
    rw [decodeData_of_blocks h5 hblks] at h
    split at h <;> cases h

/-- Bytes after an accepted body are left when its blocks are read. -/
theorem decodeData_trailingBytes {c : Config} (hc : legalConfig c = true) {b extra : Bytes} {dp : DataPacket}
    (h : decodeData c b = .ok dp) (he : extra ≠ []) : decodeData c (b ++ extra) = .error .trailingBytes := by
  obtain ⟨h5, hblks, -⟩ := decodeData_eq_ok h
  have hpos := List.length_pos_of_ne_nil he
  have hcount : (b ++ extra).getD 4 0 = b.getD 4 0 := List.getD_append b extra 0 4 h5
  rw [decodeData_of_blocks (by rw [List.length_append]; omega) (hcount ▸ decodeBlocks_append hc h5 hblks extra),
    if_pos (by rw [List.length_append]; omega)]

/-- Settles O31: the accepted bodies in both directions, and the two sub-causes. -/
theorem dataBodiesAreSerializedPackets : Obligations.DataBodiesAreSerializedPackets := by
  unfold Obligations.DataBodiesAreSerializedPackets
  intro c b hc hb
  refine ⟨fun dp => ⟨serDataBody_of_decodeData hc hb, ?_⟩, (decodeData_bodyShort_iff c b).symm, ?_⟩
  · rintro ⟨hser, rfl⟩
    exact decodeData_serDataBody hc hser
  · intro dp extra
    exact decodeData_trailingBytes hc

end Sys2Proof.Machine

/-! ## O38, O40, O41: what the correlator does with a text, an AWAIT and a TICK (R160 to R165, R197) -/

namespace Sys2Proof.Machine

theorem enqueueReply_of_await {s : State} {r : Nat} (text : Bytes) (hw : s.waiter = .await r) :
    enqueueReply text s = ({ s with waiter := .idle } : State).emit (.awaitDone (some text)) := by
  rw [enqueueReply, hw]

theorem enqueueReply_of_ping {s : State} {r : Nat} (text : Bytes) (hw : s.waiter = .ping r) :
    enqueueReply text s = completePing text s := by
  rw [enqueueReply, hw]

theorem enqueueReply_of_idle {s : State} (text : Bytes) (hw : s.waiter = .idle) :
    enqueueReply text s = if s.q.length < s.cfg.qcap then { s with q := s.q ++ [text] } else overflow text s := by
  rw [enqueueReply, hw]

/-- Settles O38: one equation for each wait; at capacity `overflow_cases` says which text is lost. -/
theorem enqueueHandsOffQueuesOrDrops : Obligations.EnqueueHandsOffQueuesOrDrops := by
  unfold Obligations.EnqueueHandsOffQueuesOrDrops
  intro text s
  refine ⟨fun r => enqueueReply_of_await text, fun r => enqueueReply_of_ping text, fun hw hq => ?_, fun hw hq => ?_⟩
  · rw [enqueueReply_of_idle text hw, if_pos hq]
  · rw [enqueueReply_of_idle text hw, if_neg (Nat.not_lt.mpr hq)]
    obtain ⟨d, hd, hr⟩ := State.raise_eq .replyDropped s
    refine ⟨d, hd, ?_⟩
    obtain ⟨hpolicy, he⟩ | ⟨hpolicy, he⟩ := overflow_cases text s <;> rw [he, hr, hpolicy]

theorem awaitReply_of_cons {s : State} {x : Bytes} {rest : List Bytes} (n : Nat) (hq : s.q = x :: rest) :
    awaitReply n s = ({ s with q := rest } : State).emit (.awaitDone (some x)) := by
  rw [awaitReply, hq]

theorem awaitReply_of_nil {s : State} (n : Nat) (hq : s.q = []) :
    awaitReply n s = if n = 0 then (s.raise .noReply).emit (.awaitDone none) else { s with waiter := .await n } := by
  rw [awaitReply, hq]

theorem exec_portAwait_of_idle {s : State} (n : Nat) (hw : s.waiter = .idle) :
    exec (.portAwait n) s = .next (awaitReply n s) :=
  whenEnabled_mayWait _ hw

/-- Settles O40: the guard is that no wait is outstanding, and then the queue and `n` decide. -/
theorem awaitTakesHeadOrWaits : Obligations.AwaitTakesHeadOrWaits := by
  unfold Obligations.AwaitTakesHeadOrWaits
  intro n s
  split_ifs with hw
  · exact if_neg (mt s.mayWait_iff.mp hw)
  rw [exec_portAwait_of_idle n (not_not.mp hw)]
  refine ⟨fun x rest hq => congrArg _ (awaitReply_of_cons n hq), fun hq hn => ?_, fun hq hn => ?_⟩
  · obtain ⟨d, hd, hr⟩ := State.raise_eq .noReply s
    exact ⟨d, hd, by rw [awaitReply_of_nil n hq, if_pos hn, hr]; rfl⟩
  · rw [awaitReply_of_nil n hq, if_neg hn]

theorem tick_of_idle {s : State} (hw : s.waiter = .idle) : tick s = s := by
  rw [tick, hw]

theorem tick_of_await {s : State} {r : Nat} (hw : s.waiter = .await r) :
    tick s = if r = 1 then timeoutAwait s else { s with waiter := .await (r - 1) } := by
  rw [tick, hw]

theorem tick_of_ping {s : State} {r : Nat} (hw : s.waiter = .ping r) :
    tick s = if r = 1 then timeoutPing s else { s with waiter := .ping (r - 1) } := by
  rw [tick, hw]

/-- Settles O41: one equation for each wait, and a timeout is one event of the diagnostic file. -/
theorem tickCountsDown : Obligations.TickCountsDown := by
  unfold Obligations.TickCountsDown
  intro s
  have hexec : exec .portTick s = .next (tick s) := rfl
  obtain ⟨d, hd, hr⟩ := State.raise_eq .noReply ({ s with waiter := .idle } : State)
  rw [hexec]
  refine ⟨fun hw => ?_, fun r hw hne => ?_, fun r hw hne => ?_, fun hw => ⟨d, hd, ?_⟩, fun hw => ⟨d, hd, ?_⟩⟩
  · rw [tick_of_idle hw]
  · rw [tick_of_await hw, if_neg hne]
  · rw [tick_of_ping hw, if_neg hne]
  · rw [tick_of_await hw, if_pos rfl, timeoutAwait, hr]; rfl
  · rw [tick_of_ping hw, if_pos rfl, timeoutPing, hr]; rfl

end Sys2Proof.Machine

/-! ## O43, O44: the queue and the account of the texts (R26, R160 to R163, R169) -/

namespace Sys2Proof.Machine

/-- `t` has the queue of `s` and accounts for the same texts, under the same configuration. -/
structure SameTexts (s t : State) : Prop where
  cfg : t.cfg = s.cfg
  q : t.q = s.q
  stringOk : t.diagReg .stringOk = s.diagReg .stringOk
  accounted : t.textsAccounted = s.textsAccounted

theorem SameTexts.refl (s : State) : SameTexts s s := ⟨rfl, rfl, rfl, rfl⟩

theorem SameTexts.trans {s t u : State} (h : SameTexts s t) (h' : SameTexts t u) : SameTexts s u :=
  ⟨h'.cfg.trans h.cfg, h'.q.trans h.q, h'.stringOk.trans h.stringOk, h'.accounted.trans h.accounted⟩

/-- An output accounts for a text if it is AWAIT_DONE of a text, or PING_DONE(true). -/
theorem State.emit_textsAccounted (e : OutEvent) (s : State) :
    (s.emit e).textsAccounted = s.textsAccounted + [e].countP OutEvent.isAwaitText + [e].count (.pingDone true) := by
  simp only [State.textsAccounted, State.emit_trace, State.emit_events, State.emit_q, List.countP_append,
    List.count_append]
  omega

/-- An event accounts for a text if it is PingMismatch or ReplyDropped. -/
theorem State.raise_textsAccounted (e : DiagEvent) (s : State) :
    (s.raise e).textsAccounted = s.textsAccounted + [e].count .pingMismatch + [e].count .replyDropped := by
  simp only [State.textsAccounted, State.raise_trace, State.raise_events, State.raise_q, List.count_append]
  omega

/-- Each text in the queue is accounted for once. -/
theorem textsAccounted_of_setQueue {s t : State} {q : List Bytes} (h : t = { s with q := q }) :
    t.textsAccounted + s.q.length = s.textsAccounted + q.length := by
  subst h
  simp only [State.textsAccounted]
  omega

/-- No event counts in STRING_OK. -/
theorem State.raise_stringOk (e : DiagEvent) (s : State) : (s.raise e).diagReg .stringOk = s.diagReg .stringOk := by
  have hcounter : DiagReg.stringOk ≠ e.counter := by cases e <;> simp [DiagEvent.counter]
  rw [State.raise_diagReg, if_neg (by decide), if_neg hcounter]

section
variable {s t : State} (h : SameTexts s t)
include h

theorem SameTexts.trim (n : Nat) : SameTexts s (t.trim n) := { h with }

theorem SameTexts.suspend : SameTexts s t.suspend := { h with }

theorem SameTexts.setWaiter (w : Waiter) : SameTexts s { t with waiter := w } := { h with }

/-- Of the outputs only a text for an AWAIT and PING_DONE(true) deliver a text. -/
theorem SameTexts.emit {e : OutEvent} (hawait : e.isAwaitText = false := by rfl)
    (hping : e ≠ .pingDone true := by simp) : SameTexts s (t.emit e) :=
  h.trans ⟨rfl, rfl, rfl, by simp [State.emit_textsAccounted, hawait, hping]⟩

/-- Of the events only PingMismatch and ReplyDropped account for a text. -/
theorem SameTexts.raise {e : DiagEvent} (hping : e ≠ .pingMismatch := by simp)
    (hdrop : e ≠ .replyDropped := by simp) : SameTexts s (t.raise e) :=
  h.trans ⟨rfl, rfl, t.raise_stringOk e, by simp [State.raise_textsAccounted, hping, hdrop]⟩

theorem SameTexts.count_dataOk : SameTexts s (t.count .dataOk 1) :=
  h.trans ⟨rfl, rfl, by rw [State.count_diagReg, if_neg (by decide)], rfl⟩

end

theorem tick_sameTexts (s : State) : SameTexts s (tick s) := by
  have hs := SameTexts.refl s
  obtain ⟨-, h⟩ | ⟨-, h⟩ | ⟨-, h⟩ | ⟨r, -, -, h⟩ | ⟨r, -, -, h⟩ := tick_cases s <;> rw [h]
  · exact hs
  · exact (hs.setWaiter .idle).raise.emit
  · exact (hs.setWaiter .idle).raise.emit
  · exact hs.setWaiter _
  · exact hs.setWaiter _

theorem sendCommand_sameTexts (name : Bytes) (params : List Bytes) (s : State) :
    SameTexts s (sendCommand name params s) := by
  obtain ⟨b, -, h⟩ | ⟨-, h⟩ := sendCommand_cases name params s <;> rw [h]
  · exact (SameTexts.refl s).emit
  · exact (SameTexts.refl s).raise

theorem ingest_sameTexts (c : Bytes) (s : State) : SameTexts s (ingest c s) := by
  obtain ⟨-, h⟩ | ⟨-, h⟩ := ingest_cases c s <;> rw [h]
  · have hraise : SameTexts s (s.raise (.transportOverload c.length)) := (SameTexts.refl s).raise
    exact SameTexts.emit (t := { s.raise _ with buf := [], disc := true }) { hraise with }
  · exact ⟨rfl, rfl, rfl, rfl⟩

theorem noMarker_sameTexts (s : State) : SameTexts s (noMarker s) := by
  obtain ⟨-, h⟩ | ⟨-, h⟩ := noMarker_cases s <;> rw [h]
  · exact ((SameTexts.refl s).raise.trim _).suspend
  · exact ((SameTexts.refl s).trim _).suspend

theorem discardNoise_sameTexts (i : Nat) (s : State) : SameTexts s (discardNoise i s) := by
  obtain ⟨-, h⟩ | ⟨-, h⟩ := discardNoise_eq i s <;> rw [h]
  · exact .refl s
  · exact (SameTexts.refl s).raise.trim i

theorem incomplete_sameTexts (s : State) : SameTexts s (incomplete s) := by
  obtain ⟨-, h⟩ | ⟨w, -, -, h⟩ := incomplete_cases s <;> rw [h]
  · exact (SameTexts.refl s).suspend
  · exact (SameTexts.refl s).raise.trim 1

/-- What a transaction does with texts: nothing; one received and counted goes to the correlator (R113);
or the head of the queue is taken, by an AWAIT (R163) or by a PING after its line (R195). -/
inductive TextMove (s : State) : State → Prop
  | none {t : State} (h : SameTexts s t) : TextMove s t
  | received {u : State} (text : Bytes) (h : SameTexts s u) : TextMove s (enqueueReply text (u.count .stringOk 1))
  | awaited {x : Bytes} {rest : List Bytes} (hq : s.q = x :: rest) :
      TextMove s (({ s with q := rest } : State).emit (.awaitDone (some x)))
  | pinged {x : Bytes} {rest : List Bytes} (line : Bytes) (hq : s.q = x :: rest) :
      TextMove s (completePing x { s.emit (.tx line) with q := rest })

/-- A dispatch, in a state `u` that has the texts of `s`. -/
theorem dispatch_textMove {s u : State} (h : SameTexts s u) (ty : Byte) (p : Bytes) : TextMove s (dispatch ty p u) := by
  obtain ⟨dp, -, -, he⟩ | ⟨e, -, -, he⟩ | ⟨text, -, -, he⟩ | ⟨-, -, he⟩ | ⟨-, -, he⟩ := dispatch_cases ty p u <;>
    rw [he]
  · exact .none h.emit.count_dataOk
  · exact .none h.raise
  · exact .received text h
  · exact .none h.raise
  · exact .none h.raise

theorem decodeIteration_textMove {s t : State} (h : decodeIteration s = .next t) : TextMove s t := by
  obtain ⟨-, he⟩ | ⟨i, -, he⟩ := decodeIteration_cases s <;> rw [he] at h
  · cases h
    exact .none (noMarker_sameTexts s)
  have hnoise := discardNoise_sameTexts i s
  obtain ⟨-, he⟩ | ⟨-, -, he⟩ | ⟨-, -, -, he⟩ | ⟨-, -, he⟩ := decodeHead_cases (discardNoise i s) <;>
    (rw [he] at h; cases h)
  · exact .none hnoise.suspend
  · exact .none (hnoise.raise.trim hdrSize)
  · exact .none (hnoise.trans (incomplete_sameTexts _))
  · exact dispatch_textMove (hnoise.trim _) _ _

theorem awaitReply_textMove (n : Nat) (s : State) : TextMove s (awaitReply n s) := by
  obtain ⟨x, rest, hq, h⟩ | ⟨-, -, h⟩ | ⟨-, -, h⟩ := awaitReply_cases n s <;> rw [h]
  · exact .awaited hq
  · exact .none (SameTexts.refl s).raise.emit
  · exact .none ((SameTexts.refl s).setWaiter _)

theorem pingWith_textMove (line : Bytes) (s : State) : TextMove s (pingWith line s) := by
  have hline : SameTexts s (s.emit (.tx line)) := (SameTexts.refl s).emit
  obtain ⟨x, rest, hq, h⟩ | ⟨-, -, h⟩ | ⟨-, -, h⟩ := pingWith_cases line s <;> rw [h]
  · exact .pinged line hq
  · exact .none (hline.setWaiter .idle).raise.emit
  · exact .none (hline.setWaiter _)

theorem Transaction.textMove {i : Instr} {s t : State} (h : Transaction i s t) (hi : i ≠ .portReset) :
    TextMove s t := by
  cases h with
  | dstep hb h => exact decodeIteration_textMove h
  | packet hb hd h => exact decodeIteration_textMove h
  | ingest c hb hd => exact .none (ingest_sameTexts c s)
  | reset => exact absurd rfl hi
  | encode name params => exact .none ⟨rfl, rfl, rfl, rfl⟩
  | diagRead n => exact .none ⟨rfl, rfl, rfl, rfl⟩
  | await n hw => exact awaitReply_textMove n s
  | tick => exact .none (tick_sameTexts s)
  | ping hw hline => exact pingWith_textMove _ s
  | send name params => exact .none (sendCommand_sameTexts name params s)

/-! ### The queue -/

@[simp] theorem completePing_q (text : Bytes) (s : State) : (completePing text s).q = s.q := by
  obtain ⟨-, h⟩ | ⟨-, h⟩ := completePing_cases text s <;> rw [h] <;> rfl

/-- A text goes past the queue, or to its tail; at capacity to its tail in place of the head, or nowhere. -/
theorem enqueueReply_q (text : Bytes) (s : State) :
    (enqueueReply text s).q = s.q ∨ (enqueueReply text s).q = s.q ++ [text]
      ∨ (s.cfg.qcap ≤ s.q.length ∧ s.cfg.overflow = .dropOldest ∧ (enqueueReply text s).q = s.q.tail ++ [text]) := by
  obtain ⟨r, -, h⟩ | ⟨r, -, h⟩ | ⟨-, -, h⟩ | ⟨-, hfull, h⟩ := enqueueReply_cases text s <;> rw [h]
  · exact .inl rfl
  · exact .inl (completePing_q text s)
  · exact .inr (.inl rfl)
  · obtain ⟨hpolicy, he⟩ | ⟨-, he⟩ := overflow_cases text s <;> rw [he]
    · exact .inr (.inr ⟨hfull, hpolicy, rfl⟩)
    · exact .inl rfl

/-- Settles O43, move by move. -/
theorem queueIsFirstInFirstOut : Obligations.QueueIsFirstInFirstOut := by
  unfold Obligations.QueueIsFirstInFirstOut
  intro i s t h hi
  cases (exec_transaction h).textMove hi with
  | none hsame => exact .inl hsame.q
  | @received u text hsame =>
    have hq := enqueueReply_q text (u.count .stringOk 1)
    rw [State.count_q, State.count_cfg, hsame.q, hsame.cfg] at hq
    obtain hq | hq | hq := hq
    · exact .inl hq
    · exact .inr (.inl ⟨text, hq⟩)
    · exact .inr (.inr (.inr ⟨text, hq⟩))
  | @awaited x rest hq => exact .inr (.inr (.inl ⟨x, hq⟩))
  | @pinged x rest line hq => exact .inr (.inr (.inl ⟨x, by rw [completePing_q]; exact hq⟩))

/-! ### The account -/

theorem completePing_stringOk (text : Bytes) (s : State) :
    (completePing text s).diagReg .stringOk = s.diagReg .stringOk := by
  obtain ⟨-, h⟩ | ⟨-, h⟩ := completePing_cases text s <;> rw [h]
  · rfl
  · exact State.raise_stringOk _ _

/-- The text is delivered, by PING_DONE(true) or by a recorded mismatch. -/
theorem completePing_textsAccounted (text : Bytes) (s : State) :
    (completePing text s).textsAccounted = s.textsAccounted + 1 := by
  obtain ⟨-, h⟩ | ⟨-, h⟩ := completePing_cases text s <;> rw [h, State.emit_textsAccounted]
  · rfl
  · rw [State.raise_textsAccounted]; rfl

theorem enqueueReply_stringOk (text : Bytes) (s : State) :
    (enqueueReply text s).diagReg .stringOk = s.diagReg .stringOk := by
  obtain ⟨r, -, h⟩ | ⟨r, -, h⟩ | ⟨-, -, h⟩ | ⟨-, -, h⟩ := enqueueReply_cases text s <;> rw [h]
  · rfl
  · exact completePing_stringOk text s
  · rfl
  · obtain ⟨-, h'⟩ | ⟨-, h'⟩ := overflow_cases text s <;> rw [h'] <;> exact s.raise_stringOk _

/-- At capacity one text is dropped, and the number queued stays, because a full queue is not empty. -/
theorem overflow_textsAccounted (text : Bytes) {s : State} (hq : 1 ≤ s.q.length) :
    (overflow text s).textsAccounted = s.textsAccounted + 1 := by
  have hraise : (s.raise .replyDropped).textsAccounted = s.textsAccounted + 1 := s.raise_textsAccounted _
  obtain ⟨-, h⟩ | ⟨-, h⟩ := overflow_cases text s
  · have hset := textsAccounted_of_setQueue (s := s.raise .replyDropped) h
    rw [State.raise_q, List.length_append, List.length_tail, List.length_singleton] at hset
    omega
  · rw [h, hraise]

/-- A text is delivered, queued or dropped. -/
theorem enqueueReply_textsAccounted (text : Bytes) {s : State} (hc : 1 ≤ s.cfg.qcap) :
    (enqueueReply text s).textsAccounted = s.textsAccounted + 1 := by
  obtain ⟨r, -, h⟩ | ⟨r, -, h⟩ | ⟨-, -, h⟩ | ⟨-, hfull, h⟩ := enqueueReply_cases text s
  · rw [h]; exact State.emit_textsAccounted _ _
  · rw [h, completePing_textsAccounted]
  · have hset := textsAccounted_of_setQueue (s := s) h
    rw [List.length_append, List.length_singleton] at hset
    omega
  · rw [h, overflow_textsAccounted text (hc.trans hfull)]

/-- Taking the head of the queue takes one text out of the account. -/
theorem textsAccounted_tail {s : State} {x : Bytes} {rest : List Bytes} (hq : s.q = x :: rest) :
    s.textsAccounted = ({ s with q := rest } : State).textsAccounted + 1 := by
  have hset := textsAccounted_of_setQueue (s := s) (q := rest) rfl
  rw [hq, List.length_cons] at hset
  omega

/-- A move counts as many texts in STRING_OK as it brings into the account. -/
theorem TextMove.account {s t : State} (h : TextMove s t) (hc : 1 ≤ s.cfg.qcap) :
    ∃ n, t.diagReg .stringOk = s.diagReg .stringOk + BitVec.ofNat 32 n ∧ t.textsAccounted = s.textsAccounted + n := by
  cases h with
  | none hsame => exact ⟨0, hsame.stringOk.trans (BitVec.add_zero _).symm, hsame.accounted⟩
  | @received u text hsame =>
    refine ⟨1, ?_, ?_⟩
    · rw [enqueueReply_stringOk, State.count_diagReg, if_pos rfl, hsame.stringOk]
    · rw [enqueueReply_textsAccounted text (by rw [State.count_cfg, hsame.cfg]; exact hc), ← hsame.accounted]; rfl
  | @awaited x rest hq =>
    refine ⟨0, (BitVec.add_zero _).symm, ?_⟩
    rw [State.emit_textsAccounted, textsAccounted_tail hq]; rfl
  | @pinged x rest line hq =>
    have hline : SameTexts { s with q := rest } { s.emit (.tx line) with q := rest } :=
      (SameTexts.refl { s with q := rest }).emit
    refine ⟨0, (completePing_stringOk ..).trans (BitVec.add_zero _).symm, ?_⟩
    rw [completePing_textsAccounted, hline.accounted, textsAccounted_tail hq]

/-- Settles O44: both sides are the number of texts the move counts. -/
theorem textsAreConserved : Obligations.TextsAreConserved := by
  unfold Obligations.TextsAreConserved
  intro i s t hc h hi
  obtain ⟨hqcap, -⟩ := legalConfig_bounds hc
  obtain ⟨n, hcount, haccount⟩ := ((exec_transaction h).textMove hi).account hqcap
  rw [hcount, haccount, BitVec.ofNat_add, add_sub_cancel_left, add_sub_cancel_left]

end Sys2Proof.Machine

/-! ## O42: a wait runs out at its last TICK (R165, R166, R168, R194, R197) -/

namespace Sys2Proof.Machine

/-- TICKs count a wait `w` of some ticks down to 1, and the next one ends it with the output `done`. -/
structure CountsDown (w : Nat → Waiter) (done : OutEvent) : Prop where
  count : ∀ {s : State} {r : Nat}, s.waiter = w r → r ≠ 1 → tick s = { s with waiter := w (r - 1) }
  finish : ∀ {s : State}, s.waiter = w 1 → (tick s).waiter = .idle ∧ (tick s).trace = s.trace ++ [done]

theorem countsDown_await : CountsDown .await (.awaitDone none) where
  count hw hr := (tick_of_await hw).trans (if_neg hr)
  finish hw := by rw [tick_of_await hw, if_pos rfl]; exact ⟨rfl, rfl⟩

theorem countsDown_ping : CountsDown .ping (.pingDone false) where
  count hw hr := (tick_of_ping hw).trans (if_neg hr)
  finish hw := by rw [tick_of_ping hw, if_pos rfl]; exact ⟨rfl, rfl⟩

theorem iterate_tick_q (s : State) (k : Nat) : (tick^[k] s).q = s.q := by
  induction k with
  | zero => rfl
  | succ k ih => rw [Function.iterate_succ_apply', (tick_sameTexts _).q, ih]

/-- Before its last tick a wait has only been counted down. -/
theorem CountsDown.iterate_tick {w : Nat → Waiter} {done : OutEvent} (h : CountsDown w done) {s : State} {n k : Nat}
    (hw : s.waiter = w n) (hk : k < n) : tick^[k] s = { s with waiter := w (n - k) } := by
  induction k with
  | zero => rw [Nat.sub_zero, ← hw]; rfl
  | succ k ih =>
    have hr : n - k ≠ 1 := by omega
    rw [Function.iterate_succ_apply', ih (by omega), h.count rfl hr, Nat.sub_sub]

/-- At its last tick a wait ends. -/
theorem CountsDown.iterate_tick_last {w : Nat → Waiter} {done : OutEvent} (h : CountsDown w done) {s : State} {n : Nat}
    (hw : s.waiter = w n) (hn : 1 ≤ n) : (tick^[n] s).waiter = .idle ∧ (tick^[n] s).trace = s.trace ++ [done] := by
  obtain ⟨m, rfl⟩ := Nat.exists_eq_add_of_le' hn
  have hlast : tick^[m] s = { s with waiter := w 1 } := by
    rw [h.iterate_tick hw (Nat.lt_succ_self m), Nat.add_sub_cancel_left]
  rw [Function.iterate_succ_apply', hlast]
  exact h.finish rfl

/-- The run of a wait of n ticks under TICKs alone, from an empty queue. -/
theorem CountsDown.exists_run {w : Nat → Waiter} {done : OutEvent} (h : CountsDown w done) {s : State} {n : Nat}
    (hw : s.waiter = w n) (hn : 1 ≤ n) (hq : s.q = []) :
    ∃ f : Nat → State, f 0 = s ∧ (∀ k, exec .portTick (f k) = .next (f (k + 1))) ∧ (∀ k, (f k).q = [])
      ∧ (∀ k < n, (f k).waiter = w (n - k) ∧ (f k).trace = s.trace)
      ∧ (f n).waiter = .idle ∧ (f n).trace = s.trace ++ [done] := by
  have htick : ∀ k, exec .portTick (tick^[k] s) = .next (tick^[k + 1] s) := fun k =>
    congrArg _ (Function.iterate_succ_apply' tick k s).symm
  have hwaiting : ∀ k < n, (tick^[k] s).waiter = w (n - k) ∧ (tick^[k] s).trace = s.trace := fun k hk => by
    rw [h.iterate_tick hw hk]
    exact ⟨rfl, rfl⟩
  exact ⟨fun k => tick^[k] s, rfl, htick, fun k => (iterate_tick_q s k).trans hq, hwaiting,
    h.iterate_tick_last hw hn⟩

theorem lineBytes_nil (name : Bytes) : lineBytes name [] = name ++ [0x0D] := by
  simp [lineBytes]

/-- Settles O42: the wait begins, and `CountsDown.exists_run` follows it to its end. -/
theorem waitEndsAtItsLastTick : Obligations.WaitEndsAtItsLastTick := by
  unfold Obligations.WaitEndsAtItsLastTick
  intro s hw hq
  refine ⟨fun n hn => ?_, fun ht i line hline => ?_⟩
  · have hbegin : awaitReply n s = { s with waiter := .await n } := by
      rw [awaitReply_of_nil n hq, if_neg (Nat.ne_of_gt hn)]
    obtain ⟨f, hf, hrun⟩ := countsDown_await.exists_run (s := { s with waiter := .await n }) rfl hn hq
    exact ⟨f, by rw [exec_portAwait_of_idle n hw, hbegin, hf], hrun⟩
  · have hexec : exec i s = .next (pingWith line s) := by
      obtain ⟨rfl, rfl⟩ | ⟨rfl, rfl⟩ := hline
      · rw [← lineBytes_nil]; exact whenEnabled_mayWait _ hw
      · exact whenEnabled_mayWait _ hw
    obtain ⟨-, -, hwait⟩ := pingWith_effect line hw
    have hbegin := hwait hq (Nat.ne_of_gt ht)
    obtain ⟨f, hf, htick, hempty, hwaiting, hidle, hdone⟩ :=
      countsDown_ping.exists_run (s := pingWith line s) (by rw [hbegin]) (by omega) (by rw [hbegin]; exact hq)
    rw [hbegin] at hwaiting hdone
    exact ⟨f, by rw [hexec, hf], htick, hempty, hwaiting, hidle, by rw [hdone, List.append_assoc]; rfl⟩

end Sys2Proof.Machine

/-! ## O39, O35: a reply ends a ping, and the packet `PONG` is one (R70, R113, R196) -/

namespace Sys2Proof.Machine

/-- Settles O39: the two ends of `completePing_cases`; a mismatch is one event of the diagnostic file. -/
theorem pingReplyIsComparedExactly : Obligations.PingReplyIsComparedExactly := by
  unfold Obligations.PingReplyIsComparedExactly
  intro text s
  obtain ⟨heq, he⟩ | ⟨hne, he⟩ := completePing_cases text s
  · exact ⟨fun _ => he, fun hne => absurd heq hne⟩
  · obtain ⟨d, hd, hr⟩ := State.raise_eq .pingMismatch ({ s with waiter := .idle } : State)
    exact ⟨fun heq => absurd heq hne, fun _ => ⟨d, hd, by rw [he, hr]; rfl⟩⟩

/-- `PONG` is valid UTF-8, so its packet is counted in STRING_OK and its text goes to the correlator. -/
theorem exec_pktStringPong {s : State} {rest : Bytes} (hb : s.busy = true)
    (hbuf : s.buf = packetBytes 1 pongText ++ rest) :
    ∃ d, DiagCounted s.diag d 5
      ∧ exec .pktStringPong s = .next (enqueueReply pongText { s with buf := rest, diag := d }) := by
  have hd : decodePacket s.buf = .ok (.pktStringPong, rest) := by
    rw [hbuf, decodePacket_packetBytes 1 rest (by decide)]; rfl
  have htext : decodeString pongText = some pongText := rfl
  have hexec : exec .pktStringPong s = .next (dispatchString pongText { s with buf := rest }) :=
    (whenAtHead_of_busy hb hd).trans (by rw [trim_packetBytes hbuf])
  obtain ⟨d, hdiag, hcount⟩ := State.count_eq .stringOk ({ s with buf := rest } : State)
  exact ⟨d, hdiag, by simp only [hexec, dispatchString, htext, hcount]⟩

/-- Settles O35: the text goes to the correlator, which hands it to an outstanding ping (O39). -/
theorem pongPacketCompletesPing : Obligations.PongPacketCompletesPing := by
  unfold Obligations.PongPacketCompletesPing
  intro s rest hb hbuf
  obtain ⟨d, hd, he⟩ := exec_pktStringPong hb hbuf
  obtain ⟨hmatch, hmismatch⟩ := pingReplyIsComparedExactly pongText { s with buf := rest, diag := d }
  have hping : ∀ r, s.waiter = .ping r →
      exec .pktStringPong s = .next (completePing pongText { s with buf := rest, diag := d }) :=
    fun _ hw => he.trans (congrArg _ (enqueueReply_of_ping pongText hw))
  refine ⟨fun r hw htoken => ⟨d, hd, ?_⟩, fun r hw htoken => ?_, fun _ => ⟨d, hd, he⟩⟩
  · rw [hping r hw, hmatch htoken.symm]
  · obtain ⟨d', hd', hcomplete⟩ := hmismatch (Ne.symm htoken)
    exact ⟨d, d', hd, hd', by rw [hping r hw, hcomplete]⟩

end Sys2Proof.Machine

/-! ## O46, O47: the encoded line, or EncodeNonPrintable (R190, R191, R193) -/

namespace Sys2Proof.Machine

/-- Every byte of `name` and `params` is in 20..7E (R191). -/
abbrev PrintableTokens (name : Bytes) (params : List Bytes) : Prop :=
  ∀ x ∈ name ++ params.flatten, 0x20 ≤ x.toNat ∧ x.toNat ≤ 0x7E

theorem all_printable_iff (b : Bytes) : b.all printable = true ↔ ∀ x ∈ b, 0x20 ≤ x.toNat ∧ x.toNat ≤ 0x7E := by
  simp [printable]

/-- The encoder's test, token by token, is one test of all the bytes. -/
theorem tokens_all_printable_iff (name : Bytes) (params : List Bytes) :
    (name.all printable && params.all (fun p => p.all printable)) = true ↔ PrintableTokens name params := by
  rw [← List.all_flatten, ← List.all_append, all_printable_iff]

theorem foldl_tokens_eq_lineText (name : Bytes) (params : List Bytes) :
    params.foldl (fun acc p => acc ++ [0x20] ++ p) name = lineText name params := by
  simp [lineText]

theorem encodeCommand_of_printable {name : Bytes} {params : List Bytes} (h : PrintableTokens name params) :
    encodeCommand name params = .ok (params.foldl (fun acc p => acc ++ [0x20] ++ p) name ++ [0x0D]) := by
  rw [encodeCommand, if_pos ((tokens_all_printable_iff name params).mpr h), foldl_tokens_eq_lineText, lineBytes_eq]

theorem encodeCommand_of_not_printable {name : Bytes} {params : List Bytes} (h : ¬ PrintableTokens name params) :
    encodeCommand name params = .errNonPrintable :=
  if_neg (mt (tokens_all_printable_iff name params).mp h)

/-- Settles O46: ENCODE answers with `encodeCommand`. -/
theorem encodeBuildsOneLine : Obligations.EncodeBuildsOneLine := by
  unfold Obligations.EncodeBuildsOneLine
  intro name params s
  have hexec : exec (.cmdLine name params) s = .next (s.answer (.encoded (encodeCommand name params))) := rfl
  refine ⟨fun h => ?_, fun h => ?_⟩
  · rw [hexec, encodeCommand_of_printable h]; rfl
  · rw [hexec, encodeCommand_of_not_printable h]; rfl

/-- Settles O47: SEND transmits what `encodeCommand` gives, or raises one event. -/
theorem sendTransmitsOrRefusesTheCommand : Obligations.SendTransmitsOrRefusesTheCommand := by
  unfold Obligations.SendTransmitsOrRefusesTheCommand
  intro name params s
  have hexec : exec (.portSend name params) s = .next (sendCommand name params s) := rfl
  refine ⟨fun h => ?_, fun h => ?_⟩
  · rw [hexec, sendCommand, encodeCommand_of_printable h]; rfl
  · obtain ⟨d, hd, hr⟩ := State.raise_eq .encodeNonPrintable s
    exact ⟨d, hd, by rw [hexec, sendCommand, encodeCommand_of_not_printable h, ← hr]⟩

end Sys2Proof.Machine

/-! ## O48: PORT_PING sends the line of PING_CMD (R194, R195, R197) -/

namespace Sys2Proof.Machine

/-- Settles O48: the guard is that no wait is outstanding, and then `pingWith_effect` says what follows. -/
theorem pingSendsThenWaits : Obligations.PingSendsThenWaits := by
  unfold Obligations.PingSendsThenWaits
  intro s
  split_ifs with hw
  · exact if_neg (mt s.mayWait_iff.mp hw)
  have hidle : s.waiter = .idle := not_not.mp hw
  have hexec : exec .portPing s = .next (pingWith (s.cfg.pingCmd ++ [0x0D]) s) := by
    rw [← lineBytes_nil]; exact whenEnabled_mayWait _ hidle
  obtain ⟨hreply, htimeout, hwait⟩ := pingWith_effect (s.cfg.pingCmd ++ [0x0D]) hidle
  rw [hexec]
  refine ⟨fun x rest hq => congrArg _ (hreply x rest hq), fun hq ht => ?_, fun hq ht => congrArg _ (hwait hq ht)⟩
  obtain ⟨d, hd, he⟩ := htimeout hq ht
  exact ⟨d, hd, congrArg _ he⟩

end Sys2Proof.Machine

/-! ## O45: the waits begun, outstanding and completed (R166, R167, R198) -/

namespace Sys2Proof.Machine

/-- The waits begun so far, pings and awaits: those completed and the one outstanding. -/
def State.waits (s : State) : Nat × Nat :=
  (s.trace.countP OutEvent.isPingDone + s.waiter.pingsOwed, s.trace.countP OutEvent.isAwaitDone + s.waiter.awaitsOwed)

/-- The waits an instruction begins, pings and awaits. -/
def waitsBegun : Instr → Nat × Nat
  | .cmdPing => (1, 0)
  | .portPing => (1, 0)
  | .portAwait _ => (0, 1)
  | _ => (0, 0)

/-! ### Outputs and the outstanding wait -/

/-- An output completes a wait if it is PING_DONE or AWAIT_DONE. -/
theorem State.emit_waits (e : OutEvent) (s : State) :
    (s.emit e).waits = s.waits + ([e].countP OutEvent.isPingDone, [e].countP OutEvent.isAwaitDone) := by
  simp only [State.waits, State.emit_trace, State.emit_waiter, List.countP_append, Prod.mk_add_mk, Nat.add_right_comm]

theorem waits_of_ping {s : State} {r : Nat} (hw : s.waiter = .ping r) :
    s.waits = ({ s with waiter := .idle } : State).waits + (1, 0) := by
  rw [State.waits, hw]; rfl

theorem waits_of_await {s : State} {r : Nat} (hw : s.waiter = .await r) :
    s.waits = ({ s with waiter := .idle } : State).waits + (0, 1) := by
  rw [State.waits, hw]; rfl

theorem waits_of_idle {s : State} (hw : s.waiter = .idle) : s.waits = ({ s with waiter := .idle } : State).waits := by
  rw [State.waits, hw]; rfl

/-! ### The correlator and the ping sequencer -/

theorem timeoutPing_waits (s : State) :
    (timeoutPing s).waits = ({ s with waiter := .idle } : State).waits + (1, 0) :=
  State.emit_waits _ _

theorem timeoutAwait_waits (s : State) :
    (timeoutAwait s).waits = ({ s with waiter := .idle } : State).waits + (0, 1) :=
  State.emit_waits _ _

theorem completePing_waits (text : Bytes) (s : State) :
    (completePing text s).waits = ({ s with waiter := .idle } : State).waits + (1, 0) := by
  obtain ⟨-, h⟩ | ⟨-, h⟩ := completePing_cases text s <;> rw [h] <;> exact State.emit_waits _ _

/-- A text completes the wait it finds outstanding; it begins none. -/
theorem enqueueReply_waits (text : Bytes) (s : State) : (enqueueReply text s).waits = s.waits := by
  obtain ⟨r, hw, h⟩ | ⟨r, hw, h⟩ | ⟨-, -, h⟩ | ⟨-, -, h⟩ := enqueueReply_cases text s <;> rw [h]
  · rw [waits_of_await hw]; exact State.emit_waits _ _
  · rw [waits_of_ping hw, completePing_waits]
  · rfl
  · obtain ⟨-, he⟩ | ⟨-, he⟩ := overflow_cases text s <;> rw [he] <;> rfl

/-- A TICK keeps the wait outstanding or completes it. -/
theorem tick_waits (s : State) : (tick s).waits = s.waits := by
  obtain ⟨-, h⟩ | ⟨hw, h⟩ | ⟨hw, h⟩ | ⟨r, hw, -, h⟩ | ⟨r, hw, -, h⟩ := tick_cases s <;> rw [h]
  · rw [waits_of_await hw, timeoutAwait_waits]
  · rw [waits_of_ping hw, timeoutPing_waits]
  · rw [waits_of_await hw]; rfl
  · rw [waits_of_ping hw]; rfl

/-- An AWAIT is one wait, completed at once or left outstanding. -/
theorem awaitReply_waits (n : Nat) {s : State} (hw : s.waiter = .idle) :
    (awaitReply n s).waits = s.waits + (0, 1) := by
  obtain ⟨x, rest, -, h⟩ | ⟨-, -, h⟩ | ⟨-, -, h⟩ := awaitReply_cases n s <;> rw [h]
  · exact State.emit_waits _ _
  · exact State.emit_waits _ _
  · rw [waits_of_idle hw]; exact waits_of_await rfl

/-- A PING is one wait, completed at once or left outstanding; its line completes none. -/
theorem pingWith_waits (line : Bytes) {s : State} (hw : s.waiter = .idle) :
    (pingWith line s).waits = s.waits + (1, 0) := by
  have hline : ({ s.emit (.tx line) with waiter := .idle } : State).waits = s.waits := by
    rw [waits_of_idle hw]; exact State.emit_waits (.tx line) { s with waiter := .idle }
  obtain ⟨x, rest, -, h⟩ | ⟨-, -, h⟩ | ⟨-, -, h⟩ := pingWith_cases line s <;> rw [h, ← hline]
  · exact completePing_waits _ _
  · exact timeoutPing_waits _
  · exact waits_of_ping rfl

theorem sendCommand_waits (name : Bytes) (params : List Bytes) (s : State) :
    (sendCommand name params s).waits = s.waits := by
  obtain ⟨b, -, h⟩ | ⟨-, h⟩ := sendCommand_cases name params s <;> rw [h]
  · exact State.emit_waits _ _
  · rfl

/-! ### The input side begins no wait -/

theorem ingest_waits (c : Bytes) (s : State) : (ingest c s).waits = s.waits := by
  obtain ⟨-, h⟩ | ⟨-, h⟩ := ingest_cases c s <;> rw [h]
  · exact State.emit_waits _ _
  · rfl

theorem dispatch_waits (ty : Byte) (p : Bytes) (s : State) : (dispatch ty p s).waits = s.waits := by
  obtain ⟨dp, -, -, h⟩ | ⟨e, -, -, h⟩ | ⟨text, -, -, h⟩ | ⟨-, -, h⟩ | ⟨-, -, h⟩ := dispatch_cases ty p s <;> rw [h]
  · exact State.emit_waits _ _
  · rfl
  · exact enqueueReply_waits text (s.count .stringOk 1)
  · rfl
  · rfl

theorem decodeHead_waits {s t : State} (h : decodeHead s = .next t) : t.waits = s.waits := by
  obtain ⟨-, he⟩ | ⟨-, -, he⟩ | ⟨-, -, -, he⟩ | ⟨-, -, he⟩ := decodeHead_cases s <;> (rw [he] at h; cases h)
  · rfl
  · rfl
  · obtain ⟨-, hi⟩ | ⟨w, -, -, hi⟩ := incomplete_cases s <;> rw [hi] <;> rfl
  · exact dispatch_waits _ _ (s.trim _)

theorem decodeIteration_waits {s t : State} (h : decodeIteration s = .next t) : t.waits = s.waits := by
  obtain ⟨-, he⟩ | ⟨i, -, he⟩ := decodeIteration_cases s <;> rw [he] at h
  · cases h
    obtain ⟨-, hn⟩ | ⟨-, hn⟩ := noMarker_cases s <;> rw [hn] <;> rfl
  · rw [decodeHead_waits h]
    obtain ⟨-, hn⟩ | ⟨-, hn⟩ := discardNoise_eq i s <;> rw [hn]
    rfl

/-- No packet row begins a wait. -/
theorem waitsBegun_of_decodePacket {b rest : Bytes} {i : Instr} (h : decodePacket b = .ok (i, rest)) :
    waitsBegun i = 0 := by
  obtain ⟨-, -, ⟨-, rfl⟩ | ⟨-, -, rfl⟩⟩ := decodePacket_ok h
  · rfl
  · unfold packetOfType
    split_ifs <;> rfl

/-! ### Every transaction -/

/-- The waits of a state grow by those an instruction begins, unless it is RESET. -/
theorem Transaction.waits {i : Instr} {s t : State} (h : Transaction i s t) (hi : i ≠ .portReset) :
    t.waits = s.waits + waitsBegun i := by
  cases h with
  | dstep hb h => exact decodeIteration_waits h
  | packet hb hd h => rw [waitsBegun_of_decodePacket hd, decodeIteration_waits h, add_zero]
  | ingest c hb hd => exact ingest_waits c s
  | reset => exact absurd rfl hi
  | encode name params => rfl
  | diagRead n => rfl
  | await n hw => exact awaitReply_waits n hw
  | tick => exact tick_waits s
  | ping hw hline => obtain ⟨rfl, -⟩ | ⟨rfl, -⟩ := hline <;> exact pingWith_waits _ hw
  | send name params => exact sendCommand_waits name params s

/-- Settles O45: the two accounts are the two halves of `State.waits`. -/
theorem eachWaitCompletesOnce : Obligations.EachWaitCompletesOnce := by
  unfold Obligations.EachWaitCompletesOnce
  intro i s t h hi
  obtain ⟨hping, hawait⟩ := Prod.ext_iff.mp ((exec_transaction h).waits hi)
  cases i <;> exact ⟨hping, hawait⟩

end Sys2Proof.Machine

/-! ## O50: what raising an event does (R220, R221) -/

namespace Sys2Proof.Machine

/-- Settles O50: `State.raise_eq`, with the event's code, counter and amount read off R220's table. -/
theorem raisingRecordsCodeAndCounter : Obligations.RaisingRecordsCodeAndCounter := by
  unfold Obligations.RaisingRecordsCodeAndCounter
  intro e s
  obtain ⟨d, hd, hraise⟩ := s.raise_eq e
  refine ⟨d, hraise, ?_⟩
  cases e <;> exact hd

end Sys2Proof.Machine

/-! ## O25: the events of one DSTEP, in their order (R223) -/

namespace Sys2Proof.Machine

/-- From `s` to `t` no event is raised, or one, and that one satisfies `p`. -/
def RaisesAtMostOne (p : DiagEvent → Prop) (s t : State) : Prop :=
  ∃ evs, t.events = s.events ++ evs ∧ (evs = [] ∨ ∃ e, evs = [e] ∧ p e)

theorem RaisesAtMostOne.of_same {p : DiagEvent → Prop} {s t : State} (h : t.events = s.events) :
    RaisesAtMostOne p s t :=
  ⟨[], h.trans (List.append_nil _).symm, .inl rfl⟩

theorem RaisesAtMostOne.of_raised {p : DiagEvent → Prop} {s t : State} {e : DiagEvent}
    (h : t.events = s.events ++ [e]) (he : p e) : RaisesAtMostOne p s t :=
  ⟨[e], h, .inr ⟨e, rfl, he⟩⟩

/-- The discard of at least one byte of noise (R103, R104). -/
def DiagEvent.IsNoise (e : DiagEvent) : Prop := ∃ n, 0 < n ∧ e = .noiseDiscarded n

/-- The events that can follow the noise in one DSTEP: 1, 2, 3 and 9 are the decoder's (R223), 7 and 10 those of
the correlator that a text is handed to (R161, R196). -/
def DiagEvent.AfterNoise (e : DiagEvent) : Prop := e.code ∈ [1, 2, 3, 7, 9, 10]

/-- Raising an event whose code is in that list. -/
theorem RaisesAtMostOne.afterNoise {s t : State} {e : DiagEvent} (h : t.events = s.events ++ [e])
    (he : e.code ∈ [1, 2, 3, 7, 9, 10] := by simp [DiagEvent.code]) : RaisesAtMostOne DiagEvent.AfterNoise s t :=
  .of_raised h he

theorem discardNoise_raises (i : Nat) (s : State) : RaisesAtMostOne DiagEvent.IsNoise s (discardNoise i s) := by
  obtain ⟨-, h⟩ | ⟨hi, h⟩ := discardNoise_eq i s <;> rw [h]
  · exact .of_same rfl
  · exact .of_raised rfl ⟨i, hi, rfl⟩

theorem completePing_raises (text : Bytes) (s : State) :
    RaisesAtMostOne DiagEvent.AfterNoise s (completePing text s) := by
  obtain ⟨-, h⟩ | ⟨-, h⟩ := completePing_cases text s <;> rw [h]
  · exact .of_same rfl
  · exact .afterNoise rfl

theorem overflow_raises (text : Bytes) (s : State) : RaisesAtMostOne DiagEvent.AfterNoise s (overflow text s) := by
  obtain ⟨-, h⟩ | ⟨-, h⟩ := overflow_cases text s <;> rw [h] <;> exact .afterNoise rfl

theorem enqueueReply_raises (text : Bytes) (s : State) :
    RaisesAtMostOne DiagEvent.AfterNoise s (enqueueReply text s) := by
  obtain ⟨r, -, h⟩ | ⟨r, -, h⟩ | ⟨-, -, h⟩ | ⟨-, -, h⟩ := enqueueReply_cases text s <;> rw [h]
  · exact .of_same rfl
  · exact completePing_raises text s
  · exact .of_same rfl
  · exact overflow_raises text s

theorem dispatch_raises (ty : Byte) (p : Bytes) (s : State) :
    RaisesAtMostOne DiagEvent.AfterNoise s (dispatch ty p s) := by
  obtain ⟨dp, -, -, h⟩ | ⟨e, -, -, h⟩ | ⟨text, -, -, h⟩ | ⟨-, -, h⟩ | ⟨-, -, h⟩ := dispatch_cases ty p s <;> rw [h]
  · exact .of_same rfl
  · exact .afterNoise rfl
  · exact enqueueReply_raises text (s.count .stringOk 1)
  · exact .afterNoise rfl
  · exact .afterNoise rfl

theorem incomplete_raises (s : State) : RaisesAtMostOne DiagEvent.AfterNoise s (incomplete s) := by
  obtain ⟨-, h⟩ | ⟨w, -, -, h⟩ := incomplete_cases s <;> rw [h]
  · exact .of_same rfl
  · exact .afterNoise rfl

/-- The four ends of the head exclude each other, and each raises at most one event (R223). -/
theorem decodeHead_raises {s t : State} (h : decodeHead s = .next t) :
    RaisesAtMostOne DiagEvent.AfterNoise s t := by
  obtain ⟨-, he⟩ | ⟨-, -, he⟩ | ⟨-, -, -, he⟩ | ⟨-, -, he⟩ := decodeHead_cases s <;> (rw [he] at h; cases h)
  · exact .of_same rfl
  · exact .afterNoise rfl
  · exact incomplete_raises s
  · exact dispatch_raises _ _ (s.trim _)

/-- An iteration discards the noise to a state `u`, and from there suspends or decodes the head. -/
theorem decodeIteration_raises {s t : State} (h : decodeIteration s = .next t) :
    ∃ u, RaisesAtMostOne DiagEvent.IsNoise s u ∧ RaisesAtMostOne DiagEvent.AfterNoise u t := by
  obtain ⟨-, he⟩ | ⟨i, -, he⟩ := decodeIteration_cases s <;> rw [he] at h
  · cases h
    rw [noMarker_eq]
    exact ⟨_, discardNoise_raises _ s, .of_same rfl⟩
  · exact ⟨_, discardNoise_raises i s, decodeHead_raises h⟩

/-- Settles O25: the events of the discarded noise, then those of the head. -/
theorem dstepRaisesInPriorityOrder : Obligations.DstepRaisesInPriorityOrder := by
  unfold Obligations.DstepRaisesInPriorityOrder
  intro s t h
  obtain ⟨u, ⟨noise, hu, hnoise⟩, ⟨rest, ht, hrest⟩⟩ := decodeIteration_raises (whenEnabled_next.mp h).2
  refine ⟨noise, rest, by rw [ht, hu], hnoise.imp_right ?_, hrest⟩
  rintro ⟨_, hone, n, hn, rfl⟩
  exact ⟨n, hn, hone⟩

end Sys2Proof.Machine

/-! ## O1: RESET (R35, R250) -/

namespace Sys2Proof.Machine

/-- Settles O1: R250's thirteen zeros are the diagnostic file that `resetBlock` writes. -/
theorem resetSetsEveryElement : Obligations.ResetSetsEveryElement := by
  unfold Obligations.ResetSetsEveryElement
  intro s
  have hreset : exec .portReset s = .next (resetBlock s) := rfl
  have hdiag : (Vector.replicate 13 0 : Vector U32 13) = #v[0, 0, 0, 0, 0, 0, 0, 0, 0, 0, 0, 0, 0] := rfl
  rw [hreset, resetBlock, hdiag]

end Sys2Proof.Machine

/-! ## O5: only an illegal configuration is refused for it (R252) -/

namespace Sys2Proof.Machine

theorem legalConfig_iff (c : Config) :
    legalConfig c = true ↔
      1 ≤ c.qcap ∧ (∀ id : Byte, widthOf c id ∈ [1, 2, 4]) ∧ 1 ≤ c.maxChunk
        ∧ 65534 + c.maxChunk ≤ bufCapacity c ∧ (∀ w, c.watermark = some w → 7 ≤ w)
        ∧ (∀ x ∈ c.pingCmd, 0x20 ≤ x.toNat ∧ x.toNat ≤ 0x7E) ∧ c.marker = marker := by
  simp only [legalConfig, Bool.and_eq_true, and_assoc, positive_iff, legalWidths_iff, legalBufCap_iff,
    legalWatermark_iff, all_printable_iff, beq_iff_eq]

/-- No enabling condition reads what else is on offer. -/
theorem enabled_setOffers (i : Instr) (s : State) (offers : List Instr) :
    enabled i { s with offers := offers } = enabled i s := by
  cases i <;> rfl

theorem exists_exec_of_enabled {i : Instr} {s : State} (h : enabled i s = true) : ∃ t, exec i s = .next t :=
  (enabledExactlyWhenExecSteps i s).mp h

/-- In a legal configuration every step answers: a transaction is run only where it is enabled. -/
theorem exists_step_of_legalConfig {s : State} (hc : legalConfig s.cfg = true) : ∃ t, step s = .next t := by
  rw [step, if_pos hc]
  cases hf : firstEnabled s s.offers with
  | some x =>
    obtain ⟨held, rest, -, -, -, hi⟩ := firstEnabled_some (i := x.1) (r := x.2) hf
    rw [State.takeOffer, hf]
    exact exists_exec_of_enabled ((enabled_setOffers x.1 s x.2).trans hi)
  | none =>
    rw [State.takeOffer, hf]
    by_cases hb : s.busy = true
    · obtain ⟨t, ht⟩ := exists_exec_of_enabled (i := .portDstep) hb
      exact ⟨t, (if_pos hb).trans ht⟩
    · exact ⟨s, if_neg hb⟩

theorem step_of_illegalConfig {s : State} (hc : ¬ legalConfig s.cfg = true) :
    step s = .refused .illegalConfiguration :=
  if_neg hc

/-- Settles O5: an illegal configuration is refused, and in a legal one every step answers. -/
theorem illegalConfigurationsAreRefused : Obligations.IllegalConfigurationsAreRefused := by
  unfold Obligations.IllegalConfigurationsAreRefused
  intro s
  have hrefused : step s = .refused .illegalConfiguration ↔ ¬ legalConfig s.cfg = true := by
    refine ⟨fun h hc => ?_, step_of_illegalConfig⟩
    obtain ⟨t, ht⟩ := exists_step_of_legalConfig hc
    exact absurd (ht.symm.trans h) (by simp)
  exact hrefused.trans (not_congr (legalConfig_iff s.cfg))

end Sys2Proof.Machine

/-! ## O56: a disconnected block receives nothing (R25, R34, R266) -/

namespace Sys2Proof.Machine

/-- Between `s` and `t` no packet was received: none was counted or put out as data, and no text came to
the queue, from which at most the head was taken. -/
structure ReceivesNothing (s t : State) : Prop where
  queue : t.q = s.q ∨ ∃ x, s.q = x :: t.q
  dataOk : t.diagReg .dataOk = s.diagReg .dataOk
  stringOk : t.diagReg .stringOk = s.diagReg .stringOk
  dataOut (dp : DataPacket) : t.trace.count (.dataOut dp) = s.trace.count (.dataOut dp)

theorem ReceivesNothing.refl (s : State) : ReceivesNothing s s := ⟨.inl rfl, rfl, rfl, fun _ => rfl⟩

theorem ReceivesNothing.of_take_head {s : State} {x : Bytes} {rest : List Bytes} (hq : s.q = x :: rest) :
    ReceivesNothing s { s with q := rest } :=
  ⟨.inr ⟨x, hq⟩, rfl, rfl, fun _ => rfl⟩

/-- No event counts in DATA_OK. -/
theorem State.raise_dataOk (e : DiagEvent) (s : State) : (s.raise e).diagReg .dataOk = s.diagReg .dataOk := by
  have hcounter : DiagReg.dataOk ≠ e.counter := by cases e <;> simp [DiagEvent.counter]
  rw [State.raise_diagReg, if_neg (by decide), if_neg hcounter]

section
variable {s t : State} (h : ReceivesNothing s t)
include h

theorem ReceivesNothing.setWaiter (w : Waiter) : ReceivesNothing s { t with waiter := w } := { h with }

theorem ReceivesNothing.answer (r : PortResult) : ReceivesNothing s (t.answer r) := { h with }

theorem ReceivesNothing.emit {e : OutEvent} (he : ∀ dp, e ≠ .dataOut dp := by simp) : ReceivesNothing s (t.emit e) :=
  { h with
    dataOut := fun dp => by
      rw [State.emit_trace, List.count_append, List.count_singleton, if_neg (by simpa using he dp), add_zero,
        h.dataOut dp] }

theorem ReceivesNothing.raise (e : DiagEvent) : ReceivesNothing s (t.raise e) where
  queue := h.queue
  dataOk := (t.raise_dataOk e).trans h.dataOk
  stringOk := (t.raise_stringOk e).trans h.stringOk
  dataOut := h.dataOut

/-- Ending a wait with the text that was the queue's head, or with none. -/
theorem ReceivesNothing.completePing (text : Bytes) : ReceivesNothing s (completePing text t) := by
  obtain ⟨-, he⟩ | ⟨-, he⟩ := completePing_cases text t <;> rw [he]
  · exact (h.setWaiter .idle).emit
  · exact ((h.setWaiter .idle).raise .pingMismatch).emit

theorem ReceivesNothing.timeoutPing : ReceivesNothing s (timeoutPing t) :=
  ((h.setWaiter .idle).raise .noReply).emit

theorem ReceivesNothing.timeoutAwait : ReceivesNothing s (timeoutAwait t) :=
  ((h.setWaiter .idle).raise .noReply).emit

end

theorem awaitReply_receivesNothing (n : Nat) (s : State) : ReceivesNothing s (awaitReply n s) := by
  obtain ⟨x, rest, hq, h⟩ | ⟨-, -, h⟩ | ⟨-, -, h⟩ := awaitReply_cases n s <;> rw [h]
  · exact (ReceivesNothing.of_take_head hq).emit
  · exact ((ReceivesNothing.refl s).raise .noReply).emit
  · exact (ReceivesNothing.refl s).setWaiter _

theorem tick_receivesNothing (s : State) : ReceivesNothing s (tick s) := by
  have hs := ReceivesNothing.refl s
  obtain ⟨-, h⟩ | ⟨-, h⟩ | ⟨-, h⟩ | ⟨r, -, -, h⟩ | ⟨r, -, -, h⟩ := tick_cases s <;> rw [h]
  · exact hs
  · exact hs.timeoutAwait
  · exact hs.timeoutPing
  · exact hs.setWaiter _
  · exact hs.setWaiter _

theorem pingWith_receivesNothing (line : Bytes) (s : State) : ReceivesNothing s (pingWith line s) := by
  have hline : ReceivesNothing s (s.emit (.tx line)) := (ReceivesNothing.refl s).emit
  obtain ⟨x, rest, hq, h⟩ | ⟨-, -, h⟩ | ⟨-, -, h⟩ := pingWith_cases line s <;> rw [h]
  · have htaken : ReceivesNothing s (({ s with q := rest } : State).emit (.tx line)) :=
      (ReceivesNothing.of_take_head hq).emit
    exact htaken.completePing x
  · exact hline.timeoutPing
  · exact hline.setWaiter _

theorem sendCommand_receivesNothing (name : Bytes) (params : List Bytes) (s : State) :
    ReceivesNothing s (sendCommand name params s) := by
  obtain ⟨b, -, h⟩ | ⟨-, h⟩ := sendCommand_cases name params s <;> rw [h]
  · exact (ReceivesNothing.refl s).emit
  · exact (ReceivesNothing.refl s).raise _

/-- A packet needs a running Decoder, and a chunk a connected block; no other transaction receives. -/
theorem Transaction.receivesNothing {i : Instr} {s t : State} (h : Transaction i s t) (hi : i ≠ .portReset)
    (hbusy : s.busy = false) (hdisc : s.disc = true) : ReceivesNothing s t := by
  cases h with
  | dstep hb h => exact absurd (hb.symm.trans hbusy) (by simp)
  | packet hb hd h => exact absurd (hb.symm.trans hbusy) (by simp)
  | ingest c hb hd => exact absurd (hd.symm.trans hdisc) (by simp)
  | reset => exact absurd rfl hi
  | encode name params => exact (ReceivesNothing.refl s).answer _
  | diagRead n => exact (ReceivesNothing.refl s).answer _
  | await n hw => exact awaitReply_receivesNothing n s
  | tick => exact tick_receivesNothing s
  | ping hw hline => exact pingWith_receivesNothing _ s
  | send name params => exact sendCommand_receivesNothing name params s

/-- R34 (d), (e) and (f) need no bound on QCAP. -/
theorem State.Inv.streamOk {s : State} (h : s.Inv) : s.StreamOk := by
  obtain ⟨-, -, -, hdisc, hretained, -, hbounded, hcap⟩ := h
  exact ⟨hdisc, hretained, hbounded, hcap⟩

/-- Settles O56: `disc` stays set (R25), so R34 (d), which every transaction keeps, leaves the Decoder
stopped and the buffer empty. -/
theorem disconnectedBlockReceivesNothing : Obligations.DisconnectedBlockReceivesNothing := by
  unfold Obligations.DisconnectedBlockReceivesNothing
  intro i s t hs hdisc h hi
  have htr := exec_transaction h
  obtain ⟨hbusy, -⟩ := hs.streamOk.disconnected hdisc
  obtain ⟨-, -, -, hreset⟩ := htr.flagRules
  have hdisc' : t.disc = true := Bool.of_not_eq_false fun ht => hi (hreset hdisc ht)
  obtain ⟨hbusy', hbuf'⟩ := (htr.streamOk hs.streamOk).disconnected hdisc'
  obtain ⟨hqueue, hdata, hstring, hout⟩ := htr.receivesNothing hi hbusy hdisc
  exact ⟨hdisc', hbusy', hbuf', hqueue, hdata, hstring, hout⟩

end Sys2Proof.Machine
